-- ==== Sys2Proof/Word.lean ====
section
/-! DEFINITION. The word types of the engine: the byte of the two buffers and the framer
(10_state.md R20) and the operation word (30_encoding.md R90). Only the plainest arithmetic stands here. -/

namespace Sys2Proof

/-- One byte: a queued value, or a framer's in-progress byte (R20). Bit 0 is the least significant (R12). -/
abbrev Byte := BitVec 8

/-- The 12-bit operation word `w[11:0]` of rule R90: opcode in `w[11:8]`, operand in `w[7:0]`. -/
abbrev OpWord := BitVec 12

end Sys2Proof
end

