-- ==== Sys2Proof/Syntax.lean ====
section
/-! DEFINITION. The names the spec gives to finite sets of things (roles, levels, lines, edges), and the
operations: one constructor of `Instr` for each row of spec/opcode_table.json. -/

namespace Sys2Proof

/-- Parameter `ROLE` (00_scope.md R9): which of the two nodes of the link an engine is. -/
inductive Role where
  | node1
  | node2
deriving DecidableEq, Repr

/-- The level of a one-bit line (R13): `high` is the idle level, `low` the driven one. -/
inductive Level where
  | low
  | high
deriving DecidableEq, Repr

/-- The polarity of an edge (R13): `fall` is HIGH to LOW, `rise` is LOW to HIGH. -/
inductive Polarity where
  | fall
  | rise
deriving DecidableEq, Repr

/-- The two lines a node reads, by role-relative name (R10): the peer's request line and the peer's
data-and-confirmation line. -/
inductive InLine where
  | reqIn
  | dcIn
deriving DecidableEq, Repr

/-- The two lines a node drives, by role-relative name (R10). -/
inductive OutLine where
  | reqOut
  | dcOut
deriving DecidableEq, Repr

/-- The four wires of the link (R10, 20_memory.md R66). -/
inductive Wire where
  | a
  | b
  | c
  | d
deriving DecidableEq, Repr

/-- An edge event as the node that reads the line sees it (20_memory.md R72): which line, which polarity. -/
structure EdgeEvent where
  line : InLine
  pol : Polarity
deriving DecidableEq, Repr

/-- The operations a node can be given (00_scope.md R3), one constructor per row of spec/opcode_table.json.
The eight encoded operations carry their operand byte `w[7:0]` (30_encoding.md R90): the byte to send for
`SEND_BYTE` (R92), the live `DC_IN` level in bit 0 for the edge operations (R93), ignored bits otherwise.
A reserved word carries the whole word. -/
inductive Instr where
  /-- `INIT`, 43_application_api.md R200. -/
  | init (operand : Byte)
  /-- `SEND_BYTE b`, R201. -/
  | sendByte (operand : Byte)
  /-- `RECV_BYTE`, R202. -/
  | recvByte (operand : Byte)
  /-- `AVAILABLE`, R203. -/
  | available (operand : Byte)
  /-- `EDGE_REQ_FALL`, 42_link_state_machine.md R180. -/
  | edgeReqFall (operand : Byte)
  /-- `EDGE_REQ_RISE`, R181. -/
  | edgeReqRise (operand : Byte)
  /-- `EDGE_DC_FALL`, R182. -/
  | edgeDcFall (operand : Byte)
  /-- `EDGE_DC_RISE`, R183. -/
  | edgeDcRise (operand : Byte)
  /-- A reserved word with opcode 4 to 7, 30_encoding.md R101. -/
  | reserved47 (word : OpWord)
  /-- A reserved word with opcode 0xC to 0xF, R101. -/
  | reservedCF (word : OpWord)
deriving DecidableEq, Repr

end Sys2Proof
end

