-- ==== Sys2Proof/WellFormed.lean ====
section
/-! DEFINITION. Which terms of `Instr` are operations of the engine. An operand byte may be any byte: ignored
operand bits are not reserved, "any value is legal" (30_encoding.md R92, R93, R101). A reserved word must
carry the class and `z` bits of its own block (R95, R101). -/

namespace Sys2Proof

/-- The check of each instruction's fields: a reserved word lies in the block its constructor names (R101). -/
def wellFormed : Instr → Bool
  | .init _ => true
  | .sendByte _ => true
  | .recvByte _ => true
  | .available _ => true
  | .edgeReqFall _ => true
  | .edgeReqRise _ => true
  | .edgeDcFall _ => true
  | .edgeDcRise _ => true
  | .reserved47 w => w &&& 0xC00#12 == 0x400#12
  | .reservedCF w => w &&& 0xC00#12 == 0xC00#12

/-- `i` is an operation of the engine. -/
abbrev WellFormed (i : Instr) : Prop := wellFormed i = true

end Sys2Proof
end

