-- ==== Sys2Proof/Decode.lean ====
section
/-! DEFINITION. Decoding an operation word (30_encoding.md R90 to R95, R101), then the encoder, the opcode map
of rule R95 as a list of match and mask rows, and the text of rule R104. -/

namespace Sys2Proof

/-- The class bit `c = w[11]` of an operation word (R90). -/
def classBit (w : OpWord) : Bool := w.getLsbD 11

/-- The bit `z = w[10]`, which "must be 0" in a defined operation (R90). -/
def zBit (w : OpWord) : Bool := w.getLsbD 10

/-- The operand field `w[7:0]` (R90). -/
def operandField (w : OpWord) : Byte := w.extractLsb' 0 8

/-- The function bit `f1 = w[9]` (R90, R91). -/
def f1Bit (w : OpWord) : Bool := w.getLsbD 9

/-- The function bit `f0 = w[8]` (R90, R91). -/
def f0Bit (w : OpWord) : Bool := w.getLsbD 8

/-- The operation a word stands for (R90, R91, R95): `z = 1` is reserved in either class (R101); class 0 is
an application command named by `f1 f0`; class 1 is an edge event whose line is `f1` and polarity `f0`. -/
def decode (w : OpWord) : Instr :=
  match zBit w, classBit w, f1Bit w, f0Bit w with
  | true,  false, _,     _     => .reserved47 w
  | true,  true,  _,     _     => .reservedCF w
  | false, false, false, false => .init (operandField w)
  | false, false, false, true  => .sendByte (operandField w)
  | false, false, true,  false => .recvByte (operandField w)
  | false, false, true,  true  => .available (operandField w)
  | false, true,  false, false => .edgeReqFall (operandField w)
  | false, true,  false, true  => .edgeReqRise (operandField w)
  | false, true,  true,  false => .edgeDcFall (operandField w)
  | false, true,  true,  true  => .edgeDcRise (operandField w)

/-- Why a number is not an operation word. -/
inductive DecodeError where
  /-- The number has a bit above bit 11: an operation word has 12 bits and no other length (R90). Raised by
  `decodeNumber`; safe, the engine is given no such number. -/
  | longerThanTwelveBits
deriving DecidableEq, Repr

/-- Decoding of any number: total, a number that is not a 12-bit word is rejected by name (R90). -/
def decodeNumber (w : Nat) : Except DecodeError Instr :=
  if w < 2 ^ 12 then .ok (decode (BitVec.ofNat 12 w)) else .error .longerThanTwelveBits

/-- What the decoder reads from an operation word whose bits are `w`, bit 0 the least significant, of which
the opcode table gives the low `nbits`. -/
def decodeTableWord (nbits w : Nat) : Option Instr :=
  match decodeNumber (w % 2 ^ nbits) with
  | .ok i => some i
  | .error _ => none

/-- The operation word with opcode `op` and operand `v` (R90). -/
def packWord (op : BitVec 4) (v : Byte) : OpWord := op ++ v

/-- The operation word of an instruction, from the opcode map of rule R95. -/
def encode : Instr → OpWord
  | .init v => packWord 0x0#4 v
  | .sendByte v => packWord 0x1#4 v
  | .recvByte v => packWord 0x2#4 v
  | .available v => packWord 0x3#4 v
  | .edgeReqFall v => packWord 0x8#4 v
  | .edgeReqRise v => packWord 0x9#4 v
  | .edgeDcFall v => packWord 0xA#4 v
  | .edgeDcRise v => packWord 0xB#4 v
  | .reserved47 w => w
  | .reservedCF w => w

/-- The mnemonic of an instruction: the `mnemonic` of its row of spec/opcode_table.json. -/
def mnemonic : Instr → String
  | .init _ => "INIT"
  | .sendByte _ => "SEND_BYTE"
  | .recvByte _ => "RECV_BYTE"
  | .available _ => "AVAILABLE"
  | .edgeReqFall _ => "EDGE_REQ_FALL"
  | .edgeReqRise _ => "EDGE_REQ_RISE"
  | .edgeDcFall _ => "EDGE_DC_FALL"
  | .edgeDcRise _ => "EDGE_DC_RISE"
  | .reserved47 _ => "RESERVED_4_7"
  | .reservedCF _ => "RESERVED_C_F"

/-- One row of the opcode map (R95): the words `w` with `w & mask = value`. -/
structure OpcodeRow where
  mnemonic : String
  value : OpWord
  mask : OpWord
deriving DecidableEq, Repr

/-- The opcode map of rule R95. -/
def opcodeMap : List OpcodeRow :=
  [ ⟨"INIT",          0x000#12, 0xF00#12⟩,
    ⟨"SEND_BYTE",     0x100#12, 0xF00#12⟩,
    ⟨"RECV_BYTE",     0x200#12, 0xF00#12⟩,
    ⟨"AVAILABLE",     0x300#12, 0xF00#12⟩,
    ⟨"RESERVED_4_7",  0x400#12, 0xC00#12⟩,
    ⟨"EDGE_REQ_FALL", 0x800#12, 0xF00#12⟩,
    ⟨"EDGE_REQ_RISE", 0x900#12, 0xF00#12⟩,
    ⟨"EDGE_DC_FALL",  0xA00#12, 0xF00#12⟩,
    ⟨"EDGE_DC_RISE",  0xB00#12, 0xF00#12⟩,
    ⟨"RESERVED_C_F",  0xC00#12, 0xC00#12⟩ ]

/-- A word lies in a row of the opcode map (R95). -/
def OpcodeRow.covers (row : OpcodeRow) (w : OpWord) : Bool := w &&& row.mask == row.value

/-- The edge operation that handles an event (20_memory.md R75), with operand byte `v`. -/
def edgeInstr (e : EdgeEvent) (v : Byte) : Instr :=
  match e.line, e.pol with
  | .reqIn, .fall => .edgeReqFall v
  | .reqIn, .rise => .edgeReqRise v
  | .dcIn, .fall => .edgeDcFall v
  | .dcIn, .rise => .edgeDcRise v

/-- The numeric code of a level (30_encoding.md R99): HIGH = 1, LOW = 0. -/
def Level.code : Level → BitVec 1
  | .low => 0#1
  | .high => 1#1

/-- The operation word the shim presents for an event (20_memory.md R75, 30_encoding.md R93): the event's edge
operation with the live `DC_IN` level in bit 0 and the ignored operand bits zero. -/
def edgeWord (e : EdgeEvent) (dc : Level) : OpWord :=
  encode (edgeInstr e (dc.code.setWidth 8))

/-- The digit of a number below 16 in the text of rule R104. -/
def hexDigit (n : Nat) : Char :=
  (['0', '1', '2', '3', '4', '5', '6', '7', '8', '9', 'A', 'B', 'C', 'D', 'E', 'F'][n]?).getD '?'

/-- The operand text `0xHH` of rule R104. -/
def hexByte (v : Byte) : String :=
  "0x" ++ String.ofList [hexDigit (v.toNat / 16), hexDigit (v.toNat % 16)]

/-- The level digit `L` of the edge text of rule R104. -/
def levelDigit (v : Byte) : String := if v.getLsbD 0 then "1" else "0"

/-- The trace text of an operation (R104); a reserved word has none. -/
def traceText : Instr → Option String
  | .init _ => some "init"
  | .sendByte v => some ("send " ++ hexByte v)
  | .recvByte _ => some "recv"
  | .available _ => some "avail"
  | .edgeReqFall v => some ("edge REQ fall dc=" ++ levelDigit v)
  | .edgeReqRise v => some ("edge REQ rise dc=" ++ levelDigit v)
  | .edgeDcFall v => some ("edge DC fall dc=" ++ levelDigit v)
  | .edgeDcRise v => some ("edge DC rise dc=" ++ levelDigit v)
  | .reserved47 _ => none
  | .reservedCF _ => none

end Sys2Proof
end

