-- ==== Sys2Proof/Config.lean ====
section
/-! DEFINITION. The implementation parameters (00_scope.md R8 to R11), their values for this hardware, and the values the spec leaves
open. A constant with no body is a FREE VALUE: nothing in Lean can evaluate it or prove a value of it. -/

namespace Sys2Proof

/-- The implementation parameters of 00_scope.md R8 and R11 that have more than one value (93_implementation_defined.md U22), and the one
property of a platform that 60_exceptions.md R229 (3) tells two cases of. The engine's operations and the step take them as an argument;
nothing changes them. `ROLE` (R9) is an argument of its own. -/
structure Params where
  /-- `N`, the capacity of each circular byte buffer in bytes (R8). -/
  capacity : Nat
  /-- `BIT_LEVEL`, the level that carries a 1 bit (R11, decision D5). -/
  bitLevel : Level
  /-- `RX_CLEAR_ON_DROP`: the accumulator is cleared when a completed byte is dropped (R11, decision D14, U5). -/
  rxClearOnDrop : Bool
  /-- `SENTINEL`, the stored code of the empty read index (R11, 10_state.md R29, decision D11). -/
  sentinel : Nat
  /-- `PEND_DEPTH`, the capacity of a node's pending-event queue; `none` is unbounded (R11, decision D27). -/
  pendDepth : Option Nat
  /-- The platform can tell the order of two events created at the same instant (60_exceptions.md R229 (3), decision D18). DESIGN CHOICE
  in form: one constant for both nodes (log entry 16). -/
  tellsOrder : Bool
deriving DecidableEq, Repr

/-- A pending queue with `k` entries is within `PEND_DEPTH`. -/
def Params.fits (P : Params) (k : Nat) : Bool :=
  match P.pendDepth with
  | none => true
  | some d => decide (k ≤ d)

/-- The ranges of the parameters (92_eei_decisions.md, "Open parameters, collected"): `N >= 1`, a `SENTINEL` outside `0..N-1`, a
`PEND_DEPTH` of at least 3 or unbounded. It sets no upper bound, as that table sets none, although the index registers of 10_state.md R29
have 6 bits: what the stored codes are above 63 is a DESIGN CHOICE (log entry 24). -/
def Params.legal (P : Params) : Bool :=
  decide (1 ≤ P.capacity) && decide (P.capacity ≤ P.sentinel) && P.fits 3

/-- The values of the parameters for this hardware (R8, R11), on a platform that delivers in wire order (20_memory.md R72, R78). -/
def Config.hardware : Params :=
  { capacity := 50, bitLevel := .high, rxClearOnDrop := true, sentinel := 0x3F, pendDepth := none, tellsOrder := true }

/-- FREE VALUE (10_state.md R52, decision D12, U14): the byte that slot `i` of a node's transmit array holds
while no `ENQUEUE` has written it. -/
opaque Config.txStorageAtReset : Role → Nat → Byte

/-- FREE VALUE (R52, D12, U14): the byte that slot `i` of a node's receive array holds while no `ENQUEUE`
has written it. -/
opaque Config.rxStorageAtReset : Role → Nat → Byte

/-- FREE VALUE (parameter `RECV_EMPTY_DATA`, R11, R202, decision D30, U7): the data byte that the `k`-th
`RECV_BYTE` on an empty receive buffer of a node returns. -/
opaque Config.recvEmptyData : Role → Nat → Byte

end Sys2Proof
end

