-- ==== Sys2Proof/Machine/State.lean ====
section
/-! DEFINITION. The state of the link as plain data: for each of the two nodes the engine's record of
10_state.md R20 and the state of its line-edge shim (R36, 20_memory.md R74), and the outside world's schedule
of what happens next (R76). Then the reasons a step can stop, and the state after reset (R50 to R55, R261). -/

namespace Sys2Proof.Machine

/-- The eight values of `s.ls` (10_state.md R22), in the source's order. -/
inductive LinkState where
  | idle
  | requestSent
  | requestConfirmed
  | requestConfAckReceived
  | readyForData
  | dataTransmission
  | dataTransConfirmed
  | dataTransConfAckReceived
deriving DecidableEq, Repr

/-- The three values of `s.dir` (R20, R25). -/
inductive Direction where
  | noDirection
  | node1ToNode2
  | node2ToNode1
deriving DecidableEq, Repr

/-- The written bytes of one buffer array (R20, 20_memory.md R60): pairs of slot index and byte, the indices
strictly rising. A slot that is not listed has not been written; what it holds is a free value (R52). -/
abbrev Memory := List Host.Cell

/-- A circular byte buffer (R27): the array, the write index ("next free slot") and the read index, `none` being the
sentinel `EMPTY` (00_scope.md R16). The capacity is an argument of the operations; that both indices lie in `0..N-1` (R29, R45) is
an invariant. -/
structure Buffer where
  mem : Memory
  wr : Nat
  rd : Option Nat
deriving DecidableEq, Repr

/-- The complete state of one engine (R20), field by field. -/
structure Engine where
  /-- `s.ls`, the handshake phase (R22). -/
  ls : LinkState
  /-- `s.dir`, the active transfer direction (R25). -/
  dir : Direction
  /-- `s.out_req`, the level driven on `REQ_OUT` (R34). -/
  outReq : Level
  /-- `s.out_dc`, the level driven on `DC_OUT` (R34). -/
  outDc : Level
  /-- `s.tx`, the transmit queue (R27). -/
  tx : Buffer
  /-- `s.rx`, the receive queue (R27). -/
  rx : Buffer
  /-- `s.tx_idx`, the transmit bit index, 0 to 7 (R31, R32). -/
  txIdx : Fin 8
  /-- `s.tx_byte`, the byte now being sent (R31). -/
  txByte : Byte
  /-- `s.rx_idx`, the receive bit index, 0 to 7 (R31, R32). -/
  rxIdx : Fin 8
  /-- `s.rx_byte`, the byte now being assembled (R31). -/
  rxByte : Byte
deriving DecidableEq, Repr

/-- The 9-bit response of an operation (30_encoding.md R94). -/
structure Response where
  ok : Bool
  data : Byte
deriving DecidableEq, Repr

/-- One node of the link: its engine, the state of its line-edge shim (R36), its response port, and one
counter of the model's own. -/
structure Node where
  /-- The engine's record (R20). -/
  engine : Engine
  /-- The node has executed its first `INIT` (70_reset_and_hazards.md R260), which is also when its edge
  sources become enabled, for good (60_exceptions.md R228). -/
  initialised : Bool
  /-- `pend`, the edge events not yet handled, oldest first (20_memory.md R74). -/
  pend : List EdgeEvent
  /-- The last level the edge detector saw on `REQ_IN` (R36 b). -/
  seenReq : Level
  /-- The last level the edge detector saw on `DC_IN` (R36 b). -/
  seenDc : Level
  /-- The response ports `rsp_ok` and `rsp_data`: the response of the node's last operation (30_encoding.md R94,
  R106). -/
  rsp : Response
  /-- THE MODEL'S OWN: how many times `RECV_BYTE` has met an empty buffer at this node; it selects the free
  value `Config.recvEmptyData`. -/
  emptyReads : Nat
deriving DecidableEq, Repr

/-- What the outside world makes happen next. The first three are what a link does (20_memory.md R76, 60_exceptions.md R229); the
last three are a shim that breaks the requirements of R244, for the hazards of 70_reset_and_hazards.md R272 and
R273. -/
inductive Action where
  /-- Operation word `w` is presented at node `x` (R79): an application command (`step_cmd` of R78), or a
  hand-fed edge word, which without a matching wire change is a spurious edge (R276). -/
  | operation (x : Role) (w : OpWord)
  /-- Node `y` handles the event at the head of its queue (`step_edge` of R78). -/
  | deliver (y : Role)
  /-- Operation word `w` waits at node `x` behind the arbiter of R229 (1): a pending edge event of the node goes
  first, and the word keeps waiting. -/
  | arbitrate (x : Role) (w : OpWord)
  /-- The shim of node `y` loses its `k`-th pending event (R273). -/
  | lose (y : Role) (k : Nat)
  /-- The shim of node `y` lets its pending event number `k + 1` overtake number `k` (R272). -/
  | overtake (y : Role) (k : Nat)
  /-- The shim of node `y` reports its `k`-th pending event with the other polarity (R273). -/
  | misreport (y : Role) (k : Nat)
deriving DecidableEq, Repr

/-- The whole link (20_memory.md R78): `ROLE` is the position of a node in this record, so no step can change
it (R21). -/
structure State where
  /-- THE PARAMETERS of the link, constants and no state of an engine (00_scope.md R11): the interface fixes the type of a step, so its
  argument for the parameters stands here. No step changes them. -/
  params : Params
  /-- The node with `ROLE = Node1`. -/
  node1 : Node
  /-- The node with `ROLE = Node2`. -/
  node2 : Node
  /-- THE MODEL'S OWN: the node that `exec` runs its operation at; the step sets it from the schedule. -/
  active : Role
  /-- THE MODEL'S OWN: what happens next, oldest first. Every list is allowed, which is the scheduling freedom
  of R76. -/
  schedule : List Action
deriving DecidableEq, Repr

/-- Reasons for the machine to stop with a fault. There is none: "The engine raises no exception, takes no trap
and has no fault state" (60_exceptions.md R220). -/
inductive Fault where
deriving DecidableEq, Repr

/-- Reasons for the machine to refuse an operation. -/
inductive Refusal where
  /-- No meaning is given to the instruction. Raised by an arm of `exec` that has none; safe. No arm raises it. -/
  | notModelled (mnemonic : String)
  /-- An operation other than `INIT` at a node that has not executed its first `INIT`: "the result of any other
  operation is unspecified" and the model accepts only `INIT` there (70_reset_and_hazards.md R260, U12). Raised by
  every meaning but `INIT`'s; safe, the model claims nothing where the spec says nothing. -/
  | beforeFirstInit
deriving DecidableEq, Repr

/-- The empty buffer after `INIT` (R51, R52): write index 0, read index `EMPTY`, no slot written yet. -/
def Buffer.reset : Buffer :=
  { mem := [], wr := 0, rd := none }

/-- The engine's record right after `INIT` (R50 to R54). -/
def Engine.reset : Engine :=
  { ls := .idle, dir := .noDirection, outReq := .high, outDc := .high,
    tx := Buffer.reset, rx := Buffer.reset,
    txIdx := 7, txByte := 0x00#8, rxIdx := 7, rxByte := 0x00#8 }

/-- A node right after `INIT` (R261): the engine's reset values, the edge sources enabled, no pending event, both
input lines last seen at the idle level (R70), and the response of `INIT` at the response port (R94). -/
def Node.reset : Node :=
  { engine := Engine.reset, initialised := true, pend := [], seenReq := .high, seenDc := .high,
    rsp := ⟨true, 0x00#8⟩, emptyReads := 0 }

/-- A link with parameters `P` right after reset: both nodes in the state produced by `INIT` (R260, R261, R264), nothing
scheduled. -/
def State.resetWith (P : Params) : State :=
  { params := P, node1 := Node.reset, node2 := Node.reset, active := .node1, schedule := [] }

/-- The link of this hardware right after reset. -/
def State.reset : State := State.resetWith Config.hardware

end Sys2Proof.Machine
end

