-- ==== Sys2Proof/Machine/Flags.lean ====
section
/-! DEFINITION. The status conditions of 10_state.md R26: "The engine has no flag register. Its status conditions
are pure functions of the state, recomputed whenever read". -/

namespace Sys2Proof.Machine

/-- `is_empty(b)` (R26). -/
def Buffer.isEmpty (b : Buffer) : Bool := b.rd.isNone

/-- `is_nonempty(b)`, the sub-operation `IS_NONEMPTY` (R26, 40_circular_buffer.md R123). -/
def Buffer.isNonempty (b : Buffer) : Bool := b.rd.isSome

/-- `is_full(b)` (R26): the read index is not `EMPTY` and equals the write index. -/
def Buffer.isFull (b : Buffer) : Bool := b.rd == some b.wr

/-- `count(b)` (R26) at capacity `n`: 0 when empty, `n` when full, else `(wr - rd) mod n`. -/
def Buffer.count (n : Nat) (b : Buffer) : Nat :=
  match b.rd with
  | none => 0
  | some r => if b.wr = r then n else (b.wr + (n - r)) % n

/-- `tx_pending(s)` (R26, 41_framer.md R146): a byte is part-sent or one waits in the transmit buffer. -/
def Engine.txPending (e : Engine) : Bool := e.txIdx != 7 || e.tx.isNonempty

/-- `link_idle(s)` (R26). -/
def Engine.linkIdle (e : Engine) : Bool := e.dir == .noDirection

end Sys2Proof.Machine
end

