-- ==== Sys2Proof/Machine/Operands.lean ====
section
/-! DEFINITION. What an operation reads from its operand byte `w[7:0]` (30_encoding.md R92, R93), the bit a level
carries (R100), and the numeric codes of the enumerations (R29, R96 to R99). -/

namespace Sys2Proof.Machine

/-- The byte `b = w[7:0]` of `SEND_BYTE`, "used as is" (R92). -/
def byteOperand (operand : Byte) : Byte := operand

/-- The level a 1-bit code stands for (R99): 1 = HIGH, 0 = LOW. -/
def levelOfCode (b : Bool) : Level := if b then .high else .low

/-- The live level of `DC_IN` that an edge operation carries in `w[0]` (R93); `w[7:1]` are ignored. -/
def levelOperand (operand : Byte) : Level := levelOfCode (operand.getLsbD 0)

/-- The other level. -/
def otherLevel : Level → Level
  | .low => .high
  | .high => .low

/-- `level(b)` (R100): the level that carries bit `b`, when `one` (parameter `BIT_LEVEL`) carries a 1. -/
def levelOfBit (one : Level) (b : Bool) : Level := if b then one else otherLevel one

/-- `bit(v)` (R100): the bit that level `v` carries, when `one` carries a 1. -/
def bitOfLevel (one : Level) (v : Level) : Bool := v == one

/-- The 3-bit code of `ls` (R96). -/
def LinkState.code : LinkState → BitVec 3
  | .idle => 0
  | .requestSent => 1
  | .requestConfirmed => 2
  | .requestConfAckReceived => 3
  | .readyForData => 4
  | .dataTransmission => 5
  | .dataTransConfirmed => 6
  | .dataTransConfAckReceived => 7

/-- The 2-bit code of `dir` (R97); code 3 is never produced. -/
def Direction.code : Direction → BitVec 2
  | .noDirection => 0
  | .node1ToNode2 => 1
  | .node2ToNode1 => 2

/-- The 1-bit code of the `ROLE` strap (R98). -/
def roleCode : Role → BitVec 1
  | .node1 => 0
  | .node2 => 1

/-- The 6-bit stored code of a write index (R29). DESIGN CHOICE (log entry 24): of an index above 63, which 6 bits cannot hold, the low 6
bits. -/
def writeIndexCode (i : Nat) : BitVec 6 := BitVec.ofNat 6 i

/-- The 6-bit stored code of a read index (R29), with `sentinel` the parameter `SENTINEL` for `EMPTY`. DESIGN CHOICE (log entry 24):
of an index or a `SENTINEL` above 63, the low 6 bits, so that `EMPTY` may then share the code of an index. -/
def readIndexCode (sentinel : Nat) (rd : Option Nat) : BitVec 6 := BitVec.ofNat 6 (rd.getD sentinel)

end Sys2Proof.Machine
end

