-- ==== Sys2Proof/Machine/Ops.lean ====
section
/-! DEFINITION. The named operations over storage, lines and shim: the buffer arrays (20_memory.md R60 to R65), the
roles and their lines (00_scope.md R9, R10), `LineWrite` and `LineRead` (R15, R71, R73), edge generation and the
pending queue (R72 to R75), the end of an operation, and the event entry of 60_exceptions.md R230, which is all this
hardware has in the place of taking an exception (R220). -/

namespace Sys2Proof.Machine

/-! ### The buffer arrays -/

/-- The byte written last to slot `i`, if any `ENQUEUE` has written it. -/
def Memory.written : Memory → Nat → Option Byte
  | [], _ => none
  | (a, v) :: rest, i => if a = i then some v else Memory.written rest i

/-- `MemRead(b, i)` (R15). A slot that nothing has written holds a free value: `unwritten i` (R52). -/
def Memory.read (unwritten : Nat → Byte) (m : Memory) (i : Nat) : Byte :=
  (Memory.written m i).getD (unwritten i)

/-- `MemWrite(b, i, v)` (R15), keeping the indices strictly rising. -/
def Memory.write : Memory → Nat → Byte → Memory
  | [], i, v => [(i, v)]
  | (a, u) :: rest, i, v =>
    if i < a then (i, v) :: (a, u) :: rest
    else if i = a then (i, v) :: rest
    else (a, u) :: Memory.write rest i v

/-- Every listed index is above `lo` and the indices rise strictly. -/
def Memory.risesFrom (lo : Nat) : Memory → Bool
  | [] => true
  | (a, _) :: rest => decide (lo ≤ a) && Memory.risesFrom (a + 1) rest

/-- The canonical form of an array of capacity `n`: indices strictly rising and below `n`. An unlisted slot reads as
"not written", which no entry equals, so equal contents are equal lists. -/
def Memory.wf (n : Nat) (m : Memory) : Bool :=
  Memory.risesFrom 0 m && m.all fun cell => decide (cell.1 < n)

/-! ### Roles, directions and lines -/

/-- The other node's role. -/
def peerOf : Role → Role
  | .node1 => .node2
  | .node2 => .node1

/-- `MY_DIR` (R9). -/
def myDir : Role → Direction
  | .node1 => .node1ToNode2
  | .node2 => .node2ToNode1

/-- `PEER_DIR` (R9). -/
def peerDir : Role → Direction
  | .node1 => .node2ToNode1
  | .node2 => .node1ToNode2

/-- The wire a node's output line is (R10). -/
def outWire : Role → OutLine → Wire
  | .node1, .reqOut => .a
  | .node2, .reqOut => .b
  | .node1, .dcOut => .c
  | .node2, .dcOut => .d

/-- The wire a node's input line is (R10). -/
def inWire : Role → InLine → Wire
  | .node1, .reqIn => .b
  | .node2, .reqIn => .a
  | .node1, .dcIn => .d
  | .node2, .dcIn => .c

/-- The one node that drives a wire (R10, R66). -/
def wireWriter : Wire → Role
  | .a => .node1
  | .b => .node2
  | .c => .node1
  | .d => .node2

/-- Which of its writer's output lines a wire is (R66). -/
def wirePort : Wire → OutLine
  | .a => .reqOut
  | .b => .reqOut
  | .c => .dcOut
  | .d => .dcOut

/-- An output line as the peer that reads it names it (R72). -/
def seenAs : OutLine → InLine
  | .reqOut => .reqIn
  | .dcOut => .dcIn

/-! ### Nodes -/

/-- The node with role `x`. -/
def State.node (s : State) : Role → Node
  | .node1 => s.node1
  | .node2 => s.node2

/-- `s` with node `x` replaced. -/
def State.setNode (s : State) (x : Role) (n : Node) : State :=
  match x with
  | .node1 => { s with node1 := n }
  | .node2 => { s with node2 := n }

/-! ### Lines -/

/-- The level of an output latch (R34). -/
def Engine.latch (e : Engine) : OutLine → Level
  | .reqOut => e.outReq
  | .dcOut => e.outDc

/-- One `LineWrite` an operation has made. -/
structure LineWrite where
  line : OutLine
  level : Level
deriving DecidableEq, Repr

/-- An operation under way (00_scope.md R14, R15): the engine's record so far and the `LineWrite`s so far, in program
order. -/
structure Work where
  engine : Engine
  writes : List LineWrite
deriving DecidableEq, Repr

/-- An operation that has done nothing yet. -/
def Work.start (e : Engine) : Work := { engine := e, writes := [] }

/-- `LineWrite(l, v)` (R15): sets the output latch. Whether it makes an edge is for the peer's edge detector (R72, R73). -/
def Work.lineWrite (l : OutLine) (v : Level) (k : Work) : Work :=
  { engine := match l with
      | .reqOut => { k.engine with outReq := v }
      | .dcOut => { k.engine with outDc := v }
    writes := k.writes ++ [⟨l, v⟩] }

/-- `s.ls <- x` (R15). -/
def Work.setLs (x : LinkState) (k : Work) : Work := { k with engine := { k.engine with ls := x } }

/-- `s.dir <- d` (R15). -/
def Work.setDir (d : Direction) (k : Work) : Work := { k with engine := { k.engine with dir := d } }

/-- The level a node puts on one of its lines (R70): its latch, or the idle level HIGH before its first `INIT`. -/
def Node.drives (n : Node) (l : OutLine) : Level :=
  if n.initialised then n.engine.latch l else .high

/-- The level of a wire (R70). -/
def State.wireLevel (s : State) (w : Wire) : Level := (s.node (wireWriter w)).drives (wirePort w)

/-- `LineRead(l)` at node `x` (R71): the live level of the wire. -/
def State.lineRead (s : State) (x : Role) (l : InLine) : Level := s.wireLevel (inWire x l)

/-! ### Edge detection and the pending queue -/

/-- The last level the edge detector of a node saw on an input line (10_state.md R36 b). -/
def Node.seen (n : Node) : InLine → Level
  | .reqIn => n.seenReq
  | .dcIn => n.seenDc

/-- The edge detector has now seen level `v` on line `l`. -/
def Node.setSeen (n : Node) (l : InLine) (v : Level) : Node :=
  match l with
  | .reqIn => { n with seenReq := v }
  | .dcIn => { n with seenDc := v }

/-- The polarity of a change to level `v` (R13). -/
def polarityTo : Level → Polarity
  | .low => .fall
  | .high => .rise

/-- The edge detector of node `n` samples level `v` on its line `l` (R72 to R74): a change of level makes one event, which
enters the queue at the tail; no change makes none; before the node's first `INIT` no handler is registered and a
change makes no event (70_reset_and_hazards.md R262). DESIGN CHOICE (log entry 13): an event that finds the queue at its depth
`PEND_DEPTH` (00_scope.md R11) is lost, since a waiting event is never dropped (60_exceptions.md R228). -/
def Node.observe (P : Params) (n : Node) (l : InLine) (v : Level) : Node :=
  if n.seen l = v then n
  else if n.initialised && P.fits (n.pend.length + 1) then
    { n.setSeen l v with pend := n.pend ++ [⟨l, polarityTo v⟩] }
  else n.setSeen l v

/-- The order in which the events of one operation's `LineWrite`s go (60_exceptions.md R229 (3)): that of the `LineWrite`s; on a platform that
cannot tell it, the peer's `DC_IN` before its `REQ_IN`. -/
def arrivalOrder (P : Params) (writes : List LineWrite) : List LineWrite :=
  if P.tellsOrder then writes
  else writes.filter (fun w => w.line == .dcOut) ++ writes.filter (fun w => w.line == .reqOut)

/-- The edge detector of a node samples the levels of a list of `LineWrite`s, one after the other. -/
def Node.observeEach (P : Params) (n : Node) (writes : List LineWrite) : Node :=
  writes.foldl (fun m w => m.observe P (seenAs w.line) w.level) n

/-- The peer's shim sees one operation's `LineWrite`s (R72, R78), in the order of R229 (3). -/
def Node.observeAll (P : Params) (n : Node) (writes : List LineWrite) : Node := n.observeEach P (arrivalOrder P writes)

/-- The end of an operation at the active node (R78): the node takes its new value, and the peer's shim sees the line
writes. -/
def State.commit (s : State) (n : Node) (writes : List LineWrite) : State :=
  (s.setNode s.active n).setNode (peerOf s.active) ((s.node (peerOf s.active)).observeAll s.params writes)

/-- The end of an operation whose only effect on the node outside the engine's record is its response. -/
def State.finish (s : State) (k : Work) (rsp : Response) : State :=
  s.commit { s.node s.active with engine := k.engine, rsp := rsp } k.writes

/-- An operation other than `INIT` needs an initialised node (70_reset_and_hazards.md R260, U12). -/
def State.whenInitialised (s : State) (t : State) : Host.Outcome State Fault Refusal :=
  if (s.node s.active).initialised then .next t else .refused .beforeFirstInit

/-! ### Event entry -/

/-- Handling the oldest pending event of node `y` (R75, 60_exceptions.md R230): the event leaves the queue and the
matching edge operation word is given to the node, with the live level of `DC_IN` in `w[0]`. There is no such step
before the node's first `INIT` (R78) or when the queue is empty: then nothing happens. -/
def State.takeEvent (s : State) (y : Role) : Option OpWord × State :=
  match (s.node y).initialised, (s.node y).pend with
  | true, e :: rest =>
    (some (edgeWord e (s.lineRead y .dcIn)),
      { s.setNode y { s.node y with pend := rest } with active := y })
  | _, _ => (none, s)

end Sys2Proof.Machine
end

