-- ==== Sys2Proof/Machine/Buffer.lean ====
section
/-! DEFINITION. The circular byte buffer operations of 40_circular_buffer.md, for every capacity `n` (parameter `N`, 00_scope.md R8).
`IS_NONEMPTY` is `Buffer.isNonempty` of Flags. -/

namespace Sys2Proof.Machine

/-- `next(i) = (i + 1) mod N` (R120). -/
def nextIndex (n i : Nat) : Nat := (i + 1) % n

/-- What `ENQUEUE` leaves and answers (R121). -/
structure Enqueued where
  buf : Buffer
  ok : Bool
  wasEmpty : Bool
deriving DecidableEq, Repr

/-- `ENQUEUE(b, v)` (R121). It starts no transmission (R124). -/
def Buffer.enqueue (n : Nat) (b : Buffer) (v : Byte) : Enqueued :=
  if b.isFull then { buf := b, ok := false, wasEmpty := false }
  else
    { buf :=
        { mem := b.mem.write b.wr v
          wr := nextIndex n b.wr
          rd := if b.isEmpty then some b.wr else b.rd }
      ok := true
      wasEmpty := b.isEmpty }

/-- What `DEQUEUE` leaves and answers (R122): `value` is `none` when `ok = 0`. -/
structure Dequeued where
  buf : Buffer
  value : Option Byte
deriving DecidableEq, Repr

/-- `DEQUEUE(b)` (R122), over an array whose unwritten slots hold `unwritten`. -/
def Buffer.dequeue (n : Nat) (unwritten : Nat → Byte) (b : Buffer) : Dequeued :=
  match b.rd with
  | none => { buf := b, value := none }
  | some r =>
    { buf := { b with rd := if nextIndex n r = b.wr then none else some (nextIndex n r) }
      value := some (b.mem.read unwritten r) }

/-- The slot that holds the `k`-th unread byte of a buffer whose read index is `r` (10_state.md R28). -/
def unreadSlot (n r k : Nat) : Nat := (r + k) % n

/-- The unread bytes of a buffer, oldest first (10_state.md R28): the list form of R127. -/
def Buffer.contents (n : Nat) (unwritten : Nat → Byte) (b : Buffer) : List Byte :=
  match b.rd with
  | none => []
  | some r => (List.range (b.count n)).map fun k => b.mem.read unwritten (unreadSlot n r k)

end Sys2Proof.Machine
end

