-- ==== Sys2Proof/Machine/Framer.lean ====
section
/-! DEFINITION. The bit and byte framer operations of 41_framer.md. The bit index is a `Fin 8`, whose addition is the
wrapping successor of R140. -/

namespace Sys2Proof.Machine

/-- `NEXT_BIT_TO_SEND()` (R141) at a node with role `r`: the engine after the call and the bit to send. With nothing
to send it answers 0 and changes nothing (R142). -/
def Engine.nextBitToSend (P : Params) (r : Role) (e : Engine) : Engine × Bool :=
  if e.txIdx = 7 then
    match e.tx.dequeue P.capacity (Config.txStorageAtReset r) with
    | { buf := _, value := none } => (e, false)
    | { buf := tx, value := some v } => ({ e with tx := tx, txByte := v, txIdx := 0 }, v.getLsbD 0)
  else
    ({ e with txIdx := e.txIdx + 1 }, e.txByte.getLsbD (e.txIdx + 1).val)

/-- Bit insertion `v | (bit << i)` (R140). -/
def insertBit (v : Byte) (bit : Bool) (i : Fin 8) : Byte := v ||| (BitVec.setWidth 8 (BitVec.ofBool bit) <<< i.val)

/-- `NEW_BIT_RECEIVED(bit)` (R143). The eighth bit pushes the byte, or
drops it when the receive buffer is full, and then keeps its bits
in the accumulator unless `RX_CLEAR_ON_DROP` (R144). -/
def Engine.newBitReceived (P : Params) (bit : Bool) (e : Engine) : Engine :=
  if e.rxIdx + 1 = 7 then
    { e with
      rxIdx := 7
      rx := (e.rx.enqueue P.capacity (insertBit e.rxByte bit 7)).buf
      rxByte :=
        if (e.rx.enqueue P.capacity (insertBit e.rxByte bit 7)).ok || P.rxClearOnDrop then 0x00#8 else insertBit e.rxByte bit 7 }
  else
    { e with rxIdx := e.rxIdx + 1, rxByte := insertBit e.rxByte bit (e.rxIdx + 1) }

end Sys2Proof.Machine
end

