-- ==== Sys2Proof/Machine/LinkStateMachine.lean ====
section
/-! DEFINITION. The link state machine of 42_link_state_machine.md: `INITIATE_SEND`, the nine transitions, completion, and
`HANDLE_EDGE`, the whole body of the four edge operations. -/

namespace Sys2Proof.Machine

/-- `INITIATE_SEND()` (R163): unconditional at Node 1, at Node 2 only when no direction is active. -/
def initiateSend (r : Role) (k : Work) : Work :=
  if r = .node1 ∨ k.engine.dir = .noDirection then
    ((k.lineWrite .reqOut .low).setDir (myDir r)).setLs .requestSent
  else k

/-- `COMPLETE()` (R175): back to `Idle`, and the continuation when data is pending. -/
def complete (r : Role) (k : Work) : Work :=
  if k.engine.txPending then initiateSend r ((k.setLs .idle).setDir .noDirection)
  else (k.setLs .idle).setDir .noDirection

/-- T1, request confirmed (R166). -/
def transitionT1 (k : Work) : Work := (k.setLs .requestConfAckReceived).lineWrite .reqOut .high

/-- T2, emit the bit (R167): the data line first, then the strobe. -/
def transitionT2 (P : Params) (r : Role) (k : Work) : Work :=
  ((({ k with engine := (k.engine.nextBitToSend P r).1 } : Work).lineWrite .dcOut
      (levelOfBit P.bitLevel (k.engine.nextBitToSend P r).2)).lineWrite .reqOut .low).setLs .dataTransmission

/-- T3, data confirmed (R168): the data line is released, then the strobe. -/
def transitionT3 (k : Work) : Work :=
  ((k.setLs .dataTransConfAckReceived).lineWrite .dcOut .high).lineWrite .reqOut .high

/-- T4, the sender completes (R169). -/
def transitionT4 (r : Role) (k : Work) : Work := complete r k

/-- T5, accept a request (R171). -/
def transitionT5 (r : Role) (k : Work) : Work :=
  ((k.setDir (peerDir r)).lineWrite .dcOut .low).setLs .requestConfirmed

/-- T6, Node 2 yields (R170): it withdraws its request, then confirms Node 1's. -/
def transitionT6 (r : Role) (k : Work) : Work :=
  (((k.lineWrite .reqOut .high).setDir (peerDir r)).lineWrite .dcOut .low).setLs .requestConfirmed

/-- T7, ready for data (R172). -/
def transitionT7 (k : Work) : Work := (k.lineWrite .dcOut .high).setLs .readyForData

/-- T8, capture the bit that the live level `dc` carries (R173). -/
def transitionT8 (P : Params) (dc : Level) (k : Work) : Work :=
  (({ k with engine :=
        k.engine.newBitReceived P (bitOfLevel P.bitLevel dc) } : Work).lineWrite
      .dcOut .low).setLs .dataTransConfirmed

/-- T9, the receiver completes (R174): the confirmation is released, then possibly a new request. -/
def transitionT9 (r : Role) (k : Work) : Work := complete r (k.lineWrite .dcOut .high)

/-- `HANDLE_EDGE(line, pol, dc)` (R164) at a node with role `r`: the arms in the order of the rule, the last of each group
being `IGNORE` (R176). -/
def handleEdge (P : Params) (r : Role) (line : InLine) (pol : Polarity) (dc : Level) (k : Work) : Work :=
  match line with
  | .dcIn =>
    if k.engine.dir = (myDir r) then
      if k.engine.ls = .requestSent ∧ pol = .fall then transitionT1 k
      else if k.engine.ls = .requestConfAckReceived ∧ pol = .rise then transitionT2 P r k
      else if k.engine.ls = .dataTransmission ∧ pol = .fall then transitionT3 k
      else if k.engine.ls = .dataTransConfAckReceived ∧ pol = .rise then transitionT4 r k
      else k
    else k
  | .reqIn =>
    if k.engine.ls = .idle ∧ k.engine.dir = .noDirection ∧ pol = .fall then transitionT5 r k
    else if r = .node2 ∧ k.engine.ls = .requestSent ∧ k.engine.dir = (myDir r) ∧ pol = .fall then
      transitionT6 r k
    else if k.engine.dir = (peerDir r) ∧ k.engine.ls = .requestConfirmed ∧ pol = .rise then transitionT7 k
    else if k.engine.dir = (peerDir r) ∧ k.engine.ls = .readyForData ∧ pol = .fall then transitionT8 P dc k
    else if k.engine.dir = (peerDir r) ∧ k.engine.ls = .dataTransConfirmed ∧ pol = .rise then transitionT9 r k
    else k

/-- The response of an edge operation: "an edge event has no caller and its response is discarded" (30_encoding.md R94). -/
def edgeResponse : Response := { ok := false, data := 0x00#8 }

/-- One edge operation of the active node (R180 to R183): `HANDLE_EDGE` on the engine, with the live `DC_IN` level of the
operand (R93). -/
def State.handleEdge (s : State) (line : InLine) (pol : Polarity) (operand : Byte) :
    Host.Outcome State Fault Refusal :=
  s.whenInitialised
    (s.finish
      (Machine.handleEdge s.params s.active line pol (levelOperand operand) (Work.start (s.node s.active).engine))
      edgeResponse)

end Sys2Proof.Machine
end

