-- ==== Sys2Proof/Machine/Commands.lean ====
section
/-! DEFINITION. The meanings of the four application commands (43_application_api.md). -/

namespace Sys2Proof.Machine

/-- The engine part of `INIT` (R200): every field but the two arrays takes its reset value, then both owned lines are driven
HIGH. -/
def initWork (e : Engine) : Work :=
  let cleared : Engine :=
    { e with
      tx := { Engine.reset.tx with mem := e.tx.mem }
      rx := { Engine.reset.rx with mem := e.rx.mem }
      ls := .idle
      dir := .noDirection
      txIdx := 7
      txByte := 0x00#8
      rxIdx := 7
      rxByte := 0x00#8 }
  ((Work.start cleared).lineWrite .reqOut .high).lineWrite .dcOut .high

/-- `INIT` (R200): the engine part, and outside the engine the shim registers the node's input lines and empties its pending
queue (20_memory.md R78, 10_state.md R55). It is accepted in every state, also a second time (R265). The operand is
ignored (30_encoding.md R92). -/
def execInit (_operand : Byte) (s : State) : Host.Outcome State Fault Refusal :=
  .next
    (s.commit
      { s.node s.active with
        engine := (initWork (s.node s.active).engine).engine
        initialised := true
        pend := []
        rsp := { ok := true, data := 0x00#8 } }
      (initWork (s.node s.active).engine).writes)

/-- The engine part of `SEND_BYTE` (R201): the byte is queued, and a request starts when the buffer was empty and no direction
is active. The Bool is `ok`. -/
def sendByteWork (P : Params) (r : Role) (b : Byte) (e : Engine) : Work × Bool :=
  let q := e.tx.enqueue P.capacity b
  let queued := Work.start { e with tx := q.buf }
  (if q.ok && q.wasEmpty && e.linkIdle then initiateSend r queued else queued, q.ok)

/-- `SEND_BYTE b` (R201), `b` the operand byte. -/
def execSendByte (operand : Byte) (s : State) : Host.Outcome State Fault Refusal :=
  s.whenInitialised
    (s.finish (sendByteWork s.params s.active (byteOperand operand) (s.node s.active).engine).1
      { ok := (sendByteWork s.params s.active (byteOperand operand) (s.node s.active).engine).2, data := 0x00#8 })

/-- `RECV_BYTE` at one node (R202): the oldest received byte, or, from an empty buffer, `ok = 0` with the free value
`RECV_EMPTY_DATA` and no change of the engine's record. -/
def Node.recvByte (P : Params) (r : Role) (n : Node) : Node :=
  match n.engine.rx.dequeue P.capacity (Config.rxStorageAtReset r) with
  | { buf := rx, value := some v } =>
    { n with engine := { n.engine with rx := rx }, rsp := { ok := true, data := v } }
  | { buf := _, value := none } =>
    { n with
      rsp := { ok := false, data := Config.recvEmptyData r n.emptyReads }
      emptyReads := n.emptyReads + 1 }

/-- `RECV_BYTE` (R202). The operand is ignored (30_encoding.md R92). -/
def execRecvByte (_operand : Byte) (s : State) : Host.Outcome State Fault Refusal :=
  s.whenInitialised (s.commit ((s.node s.active).recvByte s.params s.active) [])

/-- `AVAILABLE` (R203): whether a received byte is pending; no state is written. The operand is ignored. -/
def execAvailable (_operand : Byte) (s : State) : Host.Outcome State Fault Refusal :=
  s.whenInitialised
    (s.finish (Work.start (s.node s.active).engine)
      { ok := (s.node s.active).engine.rx.isNonempty, data := 0x00#8 })

end Sys2Proof.Machine
end

