-- ==== Sys2Proof/Machine/Edges.lean ====
section
/-! DEFINITION. The meanings of the four edge operations (42_link_state_machine.md R180 to R183): the opcode gives the line and
the polarity (30_encoding.md R91), the operand the live `DC_IN` level. -/

namespace Sys2Proof.Machine

/-- `EDGE_REQ_FALL` (R180). -/
def execEdgeReqFall (operand : Byte) (s : State) : Host.Outcome State Fault Refusal :=
  s.handleEdge .reqIn .fall operand

/-- `EDGE_REQ_RISE` (R181). -/
def execEdgeReqRise (operand : Byte) (s : State) : Host.Outcome State Fault Refusal :=
  s.handleEdge .reqIn .rise operand

/-- `EDGE_DC_FALL` (R182). -/
def execEdgeDcFall (operand : Byte) (s : State) : Host.Outcome State Fault Refusal :=
  s.handleEdge .dcIn .fall operand

/-- `EDGE_DC_RISE` (R183). -/
def execEdgeDcRise (operand : Byte) (s : State) : Host.Outcome State Fault Refusal :=
  s.handleEdge .dcIn .rise operand

end Sys2Proof.Machine
end

