-- ==== Sys2Proof/Machine/Reserved.lean ====
section
/-! DEFINITION. The meanings of the two blocks of reserved operation words (30_encoding.md R101): "no state field changes, no
line is written, the response is `(0, 0x00)`". -/

namespace Sys2Proof.Machine

/-- A no-operation of the active node with response `(0, 0x00)` (R101). -/
def State.noOperation (s : State) : Host.Outcome State Fault Refusal :=
  s.whenInitialised (s.finish (Work.start (s.node s.active).engine) { ok := false, data := 0x00#8 })

/-- A reserved word with opcode 4 to 7 (R101). -/
def execReserved47 (_word : OpWord) (s : State) : Host.Outcome State Fault Refusal := s.noOperation

/-- A reserved word with opcode 0xC to 0xF (R101). -/
def execReservedCF (_word : OpWord) (s : State) : Host.Outcome State Fault Refusal := s.noOperation

end Sys2Proof.Machine
end

