-- ==== Sys2Proof/Machine/Dispatch.lean ====
section
/-! DEFINITION. The operation `i` at the active node: one direct call per row of spec/opcode_table.json. -/

namespace Sys2Proof.Machine

def exec (i : Instr) (s : State) : Host.Outcome State Fault Refusal :=
  match i with
  | .init operand => Sys2Proof.Machine.execInit operand s
  | .sendByte operand => Sys2Proof.Machine.execSendByte operand s
  | .recvByte operand => Sys2Proof.Machine.execRecvByte operand s
  | .available operand => Sys2Proof.Machine.execAvailable operand s
  | .edgeReqFall operand => Sys2Proof.Machine.execEdgeReqFall operand s
  | .edgeReqRise operand => Sys2Proof.Machine.execEdgeReqRise operand s
  | .edgeDcFall operand => Sys2Proof.Machine.execEdgeDcFall operand s
  | .edgeDcRise operand => Sys2Proof.Machine.execEdgeDcRise operand s
  | .reserved47 word => Sys2Proof.Machine.execReserved47 word s
  | .reservedCF word => Sys2Proof.Machine.execReservedCF word s

end Sys2Proof.Machine
end

