-- ==== Sys2Proof/Machine/Schedule.lean ====
section
/-! DEFINITION. What the outside world's next action gives a node to execute (20_memory.md R76, R78; 60_exceptions.md R229, R244;
70_reset_and_hazards.md R272, R273). The step runs what `nextOperation` answers. -/

namespace Sys2Proof.Machine

/-- The event with the other polarity (R273). -/
def otherPolarity (e : EdgeEvent) : EdgeEvent :=
  match e.pol with
  | .fall => { e with pol := .rise }
  | .rise => { e with pol := .fall }

/-- Entry `k` of a queue lost (R273). -/
def loseAt : Nat → List EdgeEvent → List EdgeEvent
  | _, [] => []
  | 0, _ :: rest => rest
  | k + 1, e :: rest => e :: loseAt k rest

/-- Entries `k` and `k + 1` of a queue exchanged (R272). -/
def overtakeAt : Nat → List EdgeEvent → List EdgeEvent
  | 0, e :: f :: rest => f :: e :: rest
  | k + 1, e :: rest => e :: overtakeAt k rest
  | _, q => q

/-- Entry `k` of a queue reported with the other polarity (R273). -/
def misreportAt : Nat → List EdgeEvent → List EdgeEvent
  | _, [] => []
  | 0, e :: rest => otherPolarity e :: rest
  | k + 1, e :: rest => e :: misreportAt k rest

/-- `s` with the pending queue of node `y` changed by its shim. -/
def State.changePend (s : State) (y : Role) (q : List EdgeEvent) : State :=
  s.setNode y { s.node y with pend := q }

/-- Operation word `w` is given to node `x`. -/
def State.present (s : State) (x : Role) (w : OpWord) : Option OpWord × State :=
  (some w, { s with active := x })

/-- Whether node `x` has an event its shim can hand over (R78). -/
def State.eventReady (s : State) (x : Role) : Bool :=
  (s.node x).initialised && !(s.node x).pend.isEmpty

/-- The next operation word and the state in which the active node executes it; no word when nothing is given to a node. An
action leaves the schedule when it is taken, but for a word that waits behind a pending event in the arbiter (R229 (1)). -/
def State.nextOperation (s : State) : Option OpWord × State :=
  match s.schedule with
  | [] => (none, s)
  | .operation x w :: rest => State.present { s with schedule := rest } x w
  | .deliver y :: rest => State.takeEvent { s with schedule := rest } y
  | .arbitrate x w :: rest =>
    if s.eventReady x then s.takeEvent x else State.present { s with schedule := rest } x w
  | .lose y k :: rest => (none, State.changePend { s with schedule := rest } y (loseAt k (s.node y).pend))
  | .overtake y k :: rest => (none, State.changePend { s with schedule := rest } y (overtakeAt k (s.node y).pend))
  | .misreport y k :: rest => (none, State.changePend { s with schedule := rest } y (misreportAt k (s.node y).pend))

end Sys2Proof.Machine
end

