-- ==== Sys2Proof/Machine/Step.lean ====
section
/-! DEFINITION. One step of the link (20_memory.md R78): the operation the schedule gives next, decoded and executed. -/

namespace Sys2Proof.Machine

/-- One step. With nothing scheduled, or when the scheduled action gives no node an operation, no operation runs: the nodes
wait (60_exceptions.md R252). -/
def step (s : State) : Host.Outcome State Fault Refusal :=
  match s.nextOperation with
  | (some w, t) => exec (decode w) t
  | (none, t) => .next t

/-- `s` with the operation word whose low `nbits` bits are those of `w` presented at the active node as the very next thing
that happens. -/
def State.withFetchWord (s : State) (nbits w : Nat) : State :=
  { s with schedule := .operation s.active (BitVec.ofNat 12 (w % 2 ^ nbits)) :: s.schedule }

end Sys2Proof.Machine
end

