-- ==== Sys2Proof/Safety.lean ====
section
/-! DEFINITION. What claims about a safe run are stated in: the invariants of 10_state.md R40 to R46, the joint states of a link
whose environment keeps the rules (60_exceptions.md R244, 70_reset_and_hazards.md R263), quiescence and stall (R270), and the
byte stream of a direction (20_memory.md R77, 43_application_api.md R205). -/

namespace Sys2Proof.Machine

/-! ### Invariants of one engine -/

/-- The `ls` values of a node that is sending (R41). -/
def LinkState.sending : LinkState → Bool
  | .requestSent => true
  | .requestConfAckReceived => true
  | .dataTransmission => true
  | .dataTransConfAckReceived => true
  | .idle => false
  | .requestConfirmed => false
  | .readyForData => false
  | .dataTransConfirmed => false

/-- The `ls` values of a node that is receiving (R41). -/
def LinkState.receiving : LinkState → Bool
  | .requestConfirmed => true
  | .readyForData => true
  | .dataTransConfirmed => true
  | .idle => false
  | .requestSent => false
  | .requestConfAckReceived => false
  | .dataTransmission => false
  | .dataTransConfAckReceived => false

/-- The `out_req` column of the table of R44. -/
def reqLevelIn : LinkState → Level
  | .idle => .high
  | .requestSent => .low
  | .requestConfAckReceived => .high
  | .dataTransmission => .low
  | .dataTransConfAckReceived => .high
  | .requestConfirmed => .high
  | .readyForData => .high
  | .dataTransConfirmed => .high

/-- The `out_dc` column of the table of R44; in `DataTransmission` it is the level of the bit of this transfer, which is the
bit of `tx_byte` at `tx_idx` (41_framer.md R141). -/
def dcLevelIn (P : Params) (e : Engine) : Level :=
  match e.ls with
  | .idle => .high
  | .requestSent => .high
  | .requestConfAckReceived => .high
  | .dataTransmission => levelOfBit P.bitLevel (e.txByte.getLsbD e.txIdx.val)
  | .dataTransConfAckReceived => .high
  | .requestConfirmed => .low
  | .readyForData => .high
  | .dataTransConfirmed => .low

/-- Both indices of a buffer of capacity `n` lie in `0..n-1` (R29, R45). -/
def Buffer.inRange (n : Nat) (b : Buffer) : Bool :=
  decide (b.wr < n) && b.rd.all fun r => decide (r < n)

/-- Every unread slot of a buffer of capacity `n` has been written (R28, R45, R52). -/
def Buffer.OccupiedWritten (n : Nat) (b : Buffer) : Prop :=
  ∀ r, b.rd = some r → ∀ k, k < b.count n → (b.mem.written (unreadSlot n r k)).isSome = true

/-- The invariants R40 to R46 of an engine with parameters `P` and role `r`. -/
structure EngineInv (P : Params) (r : Role) (e : Engine) : Prop where
  /-- R40. -/
  idle_iff : e.ls = .idle ↔ e.dir = .noDirection
  /-- R41, sending. -/
  sender_dir : e.ls.sending = true → e.dir = myDir r
  /-- R41, receiving. -/
  receiver_dir : e.ls.receiving = true → e.dir = peerDir r
  /-- R42. -/
  idle_not_pending : e.ls = .idle → e.txPending = false
  /-- R43. -/
  request_pending : e.ls = .requestSent ∨ e.ls = .requestConfAckReceived → e.txPending = true
  /-- R44, `out_req`. -/
  req_level : e.outReq = reqLevelIn e.ls
  /-- R44, `out_dc`. -/
  dc_level : e.outDc = dcLevelIn P e
  /-- R45, the index ranges of the transmit buffer. -/
  tx_range : e.tx.inRange P.capacity = true
  /-- R45, the index ranges of the receive buffer. -/
  rx_range : e.rx.inRange P.capacity = true
  /-- R45 and R52 for the transmit buffer. -/
  tx_written : e.tx.OccupiedWritten P.capacity
  /-- R45 and R52 for the receive buffer. -/
  rx_written : e.rx.OccupiedWritten P.capacity
  /-- R46, between bytes. -/
  rx_boundary : P.rxClearOnDrop = true → e.rxIdx = 7 → e.rxByte = 0x00#8
  /-- R46, inside a byte: the bits above the index are zero. Where a dropped byte stays in the accumulator (41_framer.md R144) neither clause
  of R46 can hold. -/
  rx_partial : P.rxClearOnDrop = true → e.rxIdx ≠ 7 → ∀ j : Fin 8, e.rxIdx < j → e.rxByte.getLsbD j.val = false

/-! ### Invariants of the link under any environment -/

/-- What every step keeps, whatever events arrive and in whatever order, for every legal value of the parameters: the canonical form of the
four arrays, the invariants of every initialised engine, the edge detectors up to date with the wires (10_state.md R36 b), no pending
event before the first `INIT` (70_reset_and_hazards.md R262), and no queue longer than `PEND_DEPTH`. -/
structure Inv (s : State) : Prop where
  params : s.params.legal = true
  tx_canonical : ∀ x, (s.node x).engine.tx.mem.wf s.params.capacity = true
  rx_canonical : ∀ x, (s.node x).engine.rx.mem.wf s.params.capacity = true
  engines : ∀ x, (s.node x).initialised = true → EngineInv s.params x (s.node x).engine
  detectors : ∀ x l, (s.node x).seen l = s.lineRead x l
  silent : ∀ x, (s.node x).initialised = false → (s.node x).pend = []
  depth : ∀ x, s.params.fits (s.node x).pend.length = true

/-! ### Links whose environment keeps the rules -/

/-- An operation an application may issue after `INIT` (70_reset_and_hazards.md R263), or a reserved word. -/
def lawfulInstr : Instr → Bool
  | .init _ => false
  | .sendByte _ => true
  | .recvByte _ => true
  | .available _ => true
  | .edgeReqFall _ => false
  | .edgeReqRise _ => false
  | .edgeDcFall _ => false
  | .edgeDcRise _ => false
  | .reserved47 _ => true
  | .reservedCF _ => true

/-- An action of an environment that keeps the rules: application commands but no second `INIT` (R265), and events delivered as
the wire made them (60_exceptions.md R244). -/
def lawful : Action → Bool
  | .operation _ w => lawfulInstr (decode w)
  | .deliver _ => true
  | .arbitrate _ w => lawfulInstr (decode w)
  | .lose _ _ => false
  | .overtake _ _ => false
  | .misreport _ _ => false

/-- A joint control state of the link: the two `ls` values and the two pending queues. -/
structure LinkPhase where
  ls1 : LinkState
  ls2 : LinkState
  pend1 : List EdgeEvent
  pend2 : List EdgeEvent
deriving DecidableEq, Repr

/-- The control state of a link. -/
def State.phase (s : State) : LinkPhase :=
  { ls1 := s.node1.engine.ls, ls2 := s.node2.engine.ls, pend1 := s.node1.pend, pend2 := s.node2.pend }

/-- The two nodes of a joint control state exchanged. -/
def LinkPhase.mirror (p : LinkPhase) : LinkPhase :=
  { ls1 := p.ls2, ls2 := p.ls1, pend1 := p.pend2, pend2 := p.pend1 }

/-- The joint control states in which Node 1 is the sender and Node 2 the receiver, after the request is confirmed: the steps of the
table of 30_encoding.md R102, with the events of the data line that the receiver ignores (42_link_state_machine.md R176). -/
def transferPhases : List LinkPhase :=
  [ ⟨.requestSent, .requestConfirmed, [⟨.dcIn, .fall⟩], []⟩,
    ⟨.requestConfAckReceived, .requestConfirmed, [], [⟨.reqIn, .rise⟩]⟩,
    ⟨.requestConfAckReceived, .readyForData, [⟨.dcIn, .rise⟩], []⟩,
    ⟨.dataTransmission, .readyForData, [], [⟨.dcIn, .fall⟩, ⟨.reqIn, .fall⟩]⟩,
    ⟨.dataTransmission, .readyForData, [], [⟨.reqIn, .fall⟩]⟩,
    ⟨.dataTransmission, .dataTransConfirmed, [⟨.dcIn, .fall⟩], []⟩,
    ⟨.dataTransConfAckReceived, .dataTransConfirmed, [], [⟨.dcIn, .rise⟩, ⟨.reqIn, .rise⟩]⟩,
    ⟨.dataTransConfAckReceived, .dataTransConfirmed, [], [⟨.reqIn, .rise⟩]⟩,
    ⟨.dataTransConfAckReceived, .idle, [⟨.dcIn, .rise⟩], []⟩,
    ⟨.dataTransConfAckReceived, .requestSent, [⟨.dcIn, .rise⟩, ⟨.reqIn, .fall⟩], []⟩,
    ⟨.requestSent, .idle, [], [⟨.reqIn, .fall⟩]⟩ ]

/-- The joint control states of a collision (42_link_state_machine.md R170, R177): both nodes have requested, and Node 2's yield with
the events of it that Node 1 ignores. On a platform that cannot tell the order of the two events of the yield (60_exceptions.md R229 (3)),
the one that Node 1 ignores comes second and may still wait while the transfer goes on. -/
def collisionPhases (P : Params) : List LinkPhase :=
  [ ⟨.requestSent, .requestSent, [⟨.reqIn, .fall⟩], [⟨.reqIn, .fall⟩]⟩,
    ⟨.requestSent, .requestSent, [], [⟨.reqIn, .fall⟩]⟩ ] ++
  if P.tellsOrder then
    [ ⟨.requestSent, .requestConfirmed, [⟨.reqIn, .fall⟩, ⟨.reqIn, .rise⟩, ⟨.dcIn, .fall⟩], []⟩,
      ⟨.requestSent, .requestConfirmed, [⟨.reqIn, .rise⟩, ⟨.dcIn, .fall⟩], []⟩ ]
  else
    [ ⟨.requestSent, .requestConfirmed, [⟨.reqIn, .fall⟩, ⟨.dcIn, .fall⟩, ⟨.reqIn, .rise⟩], []⟩,
      ⟨.requestSent, .requestConfirmed, [⟨.dcIn, .fall⟩, ⟨.reqIn, .rise⟩], []⟩,
      ⟨.requestConfAckReceived, .requestConfirmed, [⟨.reqIn, .rise⟩], [⟨.reqIn, .rise⟩]⟩,
      ⟨.requestConfAckReceived, .readyForData, [⟨.reqIn, .rise⟩, ⟨.dcIn, .rise⟩], []⟩ ]

/-- The joint control states of a link whose environment keeps the rules: 27, or 29 where the order of two simultaneous events is not
known. -/
def linkPhases (P : Params) : List LinkPhase :=
  ⟨.idle, .idle, [], []⟩ :: (transferPhases ++ transferPhases.map LinkPhase.mirror ++ collisionPhases P)

/-- The emitted bit has not been captured yet: the sender is in `DataTransmission`, the receiver in `ReadyForData` (R167, R173). -/
def bitOnTheWire (snd rcv : Engine) : Bool :=
  snd.ls == .dataTransmission && rcv.ls == .readyForData

/-- The transmit index of one node against the receive index of the other (30_encoding.md R103): the receiver is at the same bit, or one
behind while a bit is on the wire. -/
def IndicesAgree (snd rcv : Engine) : Prop :=
  rcv.rxIdx = if bitOnTheWire snd rcv then snd.txIdx - 1 else snd.txIdx

/-- The accumulator of the receiver against the byte of the sender: between bytes it is clear, and inside a byte it holds the bits received so
far and zeros above them (10_state.md R32). -/
structure AccumulatorAgrees (snd rcv : Engine) : Prop where
  boundary : rcv.rxIdx = 7 → rcv.rxByte = 0x00#8
  bits : rcv.rxIdx ≠ 7 → ∀ j : Fin 8, rcv.rxByte.getLsbD j.val = (decide (j ≤ rcv.rxIdx) && snd.txByte.getLsbD j.val)

/-- Both accumulators of a link agree with the peer's byte. -/
def State.AccumulatorsAgree (s : State) : Prop :=
  ∀ x, AccumulatorAgrees (s.node x).engine (s.node (peerOf x)).engine

/-- The invariant of a link whose environment keeps the rules (42_link_state_machine.md R185). With `RX_CLEAR_ON_DROP = false` an overrun leaves
the accumulator with bits of the dropped byte (41_framer.md R144). -/
structure LinkInv (s : State) : Prop where
  inv : Inv s
  initialised : ∀ x, (s.node x).initialised = true
  phase : s.phase ∈ linkPhases s.params
  indices : ∀ x, IndicesAgree (s.node x).engine (s.node (peerOf x)).engine
  accumulators : s.params.rxClearOnDrop = true → s.AccumulatorsAgree

/-- Both pending queues are empty (20_memory.md R78). -/
def State.quiescent (s : State) : Bool := s.node1.pend.isEmpty && s.node2.pend.isEmpty

/-- The link is stalled (70_reset_and_hazards.md R270): quiescent with a node that is not `Idle`. -/
def State.stalled (s : State) : Bool :=
  s.quiescent && (s.node1.engine.ls != .idle || s.node2.engine.ls != .idle)

/-! ### The byte stream of a direction -/

/-- The unread bytes of the transmit queue of node `x`, oldest first. -/
def State.txQueue (s : State) (x : Role) : List Byte :=
  (s.node x).engine.tx.contents s.params.capacity (Config.txStorageAtReset x)

/-- The unread bytes of the receive queue of node `x`, oldest first. -/
def State.rxQueue (s : State) (x : Role) : List Byte :=
  (s.node x).engine.rx.contents s.params.capacity (Config.rxStorageAtReset x)

/-- The byte of node `x` that has left its transmit queue and is not yet complete at the peer: none exactly when both cursors are
between bytes. -/
def State.inFlight (s : State) (x : Role) : List Byte :=
  if (s.node x).engine.txIdx = 7 ∧ (s.node (peerOf x)).engine.rxIdx = 7 then []
  else [(s.node x).engine.txByte]

/-- All bytes on the way from node `x` to the application of its peer, the next to be received first (R205). -/
def State.stream (s : State) (x : Role) : List Byte :=
  s.rxQueue (peerOf x) ++ s.inFlight x ++ s.txQueue x

/-- The eighth bit of a byte is about to be captured at node `y` while its receive buffer is full (60_exceptions.md R223). -/
def Engine.overrunNext (r : Role) (e : Engine) : Bool :=
  e.ls == .readyForData && e.dir == peerDir r && e.rxIdx == 6 && e.rx.isFull

/-- What the two applications have had accepted and have received so far, by node (43_application_api.md R205). -/
structure Traffic where
  accepted : Role → List Byte
  received : Role → List Byte

/-- `f` with `v` put at the end of the list of node `x`. -/
def appendAt (f : Role → List Byte) (x : Role) (v : Byte) : Role → List Byte :=
  fun y => if y = x then f y ++ [v] else f y

/-- The traffic after operation `i` at node `x` has given response `rsp` (30_encoding.md R94). -/
def Traffic.after (h : Traffic) (x : Role) (i : Instr) (rsp : Response) : Traffic :=
  match i with
  | .sendByte b => if rsp.ok then { h with accepted := appendAt h.accepted x b } else h
  | .recvByte _ => if rsp.ok then { h with received := appendAt h.received x rsp.data } else h
  | .init _ => h
  | .available _ => h
  | .edgeReqFall _ => h
  | .edgeReqRise _ => h
  | .edgeDcFall _ => h
  | .edgeDcRise _ => h
  | .reserved47 _ => h
  | .reservedCF _ => h

/-- One step with the traffic written down; `none` when the step stops, or when it would overrun a receive buffer. -/
def stepTraffic (s : State) (h : Traffic) : Option (State × Traffic) :=
  match s.nextOperation with
  | (none, t) => some (t, h)
  | (some w, u) =>
    if (u.node u.active).engine.overrunNext u.active && decide (decode w = .edgeReqFall (operandField w)) then none
    else
      match exec (decode w) u with
      | .next t => some (t, h.after u.active (decode w) (t.node u.active).rsp)
      | .fault _ => none
      | .refused _ => none

/-- `k` steps with the traffic written down. -/
def runTraffic : Nat → State → Traffic → Option (State × Traffic)
  | 0, s, h => some (s, h)
  | k + 1, s, h =>
    match stepTraffic s h with
    | some (t, h') => runTraffic k t h'
    | none => none

/-- The number of bits a node still has to send: those left of the byte being sent and eight for every queued byte
(41_framer.md R146). -/
def Engine.bitsLeft (P : Params) (e : Engine) : Nat := (7 - e.txIdx.val) + 8 * e.tx.count P.capacity

/-- One bit from a sender's framer to a receiver's (41_framer.md R147). -/
def relayBit (P : Params) (r : Role) (p : Engine × Engine) : Engine × Engine :=
  ((p.1.nextBitToSend P r).1, p.2.newBitReceived P (p.1.nextBitToSend P r).2)

/-- `k` bits from a sender's framer to a receiver's, in order. -/
def relayBits (P : Params) (r : Role) : Nat → Engine × Engine → Engine × Engine
  | 0, p => p
  | k + 1, p => relayBits P r k (relayBit P r p)

/-- Successive `ENQUEUE`s of the bytes of a list, with the `ok` of each (40_circular_buffer.md R125). -/
def Buffer.enqueueAll (n : Nat) : Buffer → List Byte → Buffer × List Bool
  | b, [] => (b, [])
  | b, v :: vs =>
    ((Buffer.enqueueAll n (b.enqueue n v).buf vs).1, (b.enqueue n v).ok :: (Buffer.enqueueAll n (b.enqueue n v).buf vs).2)

/-! ### The transition table -/

/-- The edge event an operation handles, if it is an edge operation (60_exceptions.md R243). -/
def eventOf : Instr → Option EdgeEvent
  | .init _ => none
  | .sendByte _ => none
  | .recvByte _ => none
  | .available _ => none
  | .edgeReqFall _ => some ⟨.reqIn, .fall⟩
  | .edgeReqRise _ => some ⟨.reqIn, .rise⟩
  | .edgeDcFall _ => some ⟨.dcIn, .fall⟩
  | .edgeDcRise _ => some ⟨.dcIn, .rise⟩
  | .reserved47 _ => none
  | .reservedCF _ => none

/-- The transition table of 42_link_state_machine.md R165: the `ls` after an event, with `pending` the value of `tx_pending`, which
decides what follows a completion. Cells the table marks `-` keep `ls`. -/
def tableNext (r : Role) (pending : Bool) : LinkState → InLine → Polarity → LinkState
  | .idle, .reqIn, .fall => .requestConfirmed
  | .idle, .reqIn, .rise => .idle
  | .idle, .dcIn, _ => .idle
  | .requestSent, .reqIn, .fall => if r = .node2 then .requestConfirmed else .requestSent
  | .requestSent, .reqIn, .rise => .requestSent
  | .requestSent, .dcIn, .fall => .requestConfAckReceived
  | .requestSent, .dcIn, .rise => .requestSent
  | .requestConfAckReceived, .dcIn, .rise => .dataTransmission
  | .requestConfAckReceived, .dcIn, .fall => .requestConfAckReceived
  | .requestConfAckReceived, .reqIn, _ => .requestConfAckReceived
  | .dataTransmission, .dcIn, .fall => .dataTransConfAckReceived
  | .dataTransmission, .dcIn, .rise => .dataTransmission
  | .dataTransmission, .reqIn, _ => .dataTransmission
  | .dataTransConfAckReceived, .dcIn, .rise => if pending then .requestSent else .idle
  | .dataTransConfAckReceived, .dcIn, .fall => .dataTransConfAckReceived
  | .dataTransConfAckReceived, .reqIn, _ => .dataTransConfAckReceived
  | .requestConfirmed, .reqIn, .rise => .readyForData
  | .requestConfirmed, .reqIn, .fall => .requestConfirmed
  | .requestConfirmed, .dcIn, _ => .requestConfirmed
  | .readyForData, .reqIn, .fall => .dataTransConfirmed
  | .readyForData, .reqIn, .rise => .readyForData
  | .readyForData, .dcIn, _ => .readyForData
  | .dataTransConfirmed, .reqIn, .rise => if pending then .requestSent else .idle
  | .dataTransConfirmed, .reqIn, .fall => .dataTransConfirmed
  | .dataTransConfirmed, .dcIn, _ => .dataTransConfirmed

/-! ### What an operation answers -/

/-- Operation `i` at the active node of `s` completes: it answers a next state in which the active node is `n`, its peer is `p`, and
the rest of the state is as in `s`. As a state is its parameters, its two nodes, the active node and the schedule, this names the whole
next state: every register, every byte of the four arrays and every pending event that `n` and `p` do not change is unchanged. -/
def Completes (i : Instr) (s : State) (n p : Node) : Prop :=
  ∃ t, exec i s = .next t ∧ t.node s.active = n ∧ t.node (peerOf s.active) = p ∧ t.params = s.params ∧
    t.active = s.active ∧ t.schedule = s.schedule

/-- Both nodes before their first `INIT`, all four lines at the idle level (70_reset_and_hazards.md R260); every other field is
unspecified, so it is whatever `s` holds. -/
def State.beforeInit (s : State) : State :=
  { s with
    node1 := { s.node1 with initialised := false, pend := [], seenReq := .high, seenDc := .high }
    node2 := { s.node2 with initialised := false, pend := [], seenReq := .high, seenDc := .high } }

end Sys2Proof.Machine
end

