-- ==== Sys2Proof/Certificates/Slice0/Obligations.lean ====
section
/-! DEFINITION. The statements for the provers. In a statement about an operation, `s.active` is the node that executes it, `n` that node,
`e` its engine and `p` the other node; `Completes` says that the operation answers a next state and names the whole of it. `s.params`
(and `P`) are the parameters of R8 and R11: a statement about every state is a statement about every value of them (log entry 10). -/

open Sys2Proof Sys2Proof.Machine

/-! ### Encoding -/

/-- Words of 95_test_vectors.md section 4.3, which follow from the opcode map of R95, decode to the operation they stand for. -/
def Obligations.SpecWordsDecode : Prop :=
  decode 0x0FF#12 = .init 0xFF#8 ∧ decode 0x141#12 = .sendByte 0x41#8 ∧ decode 0x2AB#12 = .recvByte 0xAB#8 ∧
    decode 0x3FF#12 = .available 0xFF#8 ∧ decode 0x801#12 = .edgeReqFall 0x01#8 ∧ decode 0x900#12 = .edgeReqRise 0x00#8 ∧
    decode 0xA00#12 = .edgeDcFall 0x00#8 ∧ decode 0xB01#12 = .edgeDcRise 0x01#8 ∧ decode 0x5A5#12 = .reserved47 0x5A5#12 ∧
    decode 0xFFF#12 = .reservedCF 0xFFF#12

/-- Decoding the word of a well-formed instruction gives the instruction back: no operand bit is dropped (R90 to R95, R101). An
instruction keeps its ignored operand bits by the model's choice (log entry 23). -/
def Obligations.DecodeOfEncode : Prop := ∀ i : Instr, WellFormed i → decode (encode i) = i

/-- Every one of the 4096 words decodes to a well-formed instruction whose word it is (R90, R95). That the word
comes back rests on the model's choice that an instruction keeps its ignored operand bits (log entry 23). -/
def Obligations.EncodeOfDecode : Prop := ∀ w : OpWord, WellFormed (decode w) ∧ encode (decode w) = w

/-- R95: every word matches exactly one row of the opcode map, and it decodes to the operation of that row. -/
def Obligations.EveryWordMatchesExactlyOneRow : Prop :=
  ∀ w : OpWord, ∃ row ∈ opcodeMap, row.covers w = true ∧ row.mnemonic = mnemonic (decode w) ∧
    ∀ other ∈ opcodeMap, other.covers w = true → other = row

/-- R92, R93: the operands of `INIT`, `RECV_BYTE`, `AVAILABLE` and of the edge operations but `EDGE_REQ_FALL` have no effect, nor has the
content of a reserved word (R101); `EDGE_REQ_FALL` depends on bit 0 alone, and outside `ReadyForData` on no bit.
That reserved words run as no-ops is log entry 12. -/
def Obligations.IgnoredOperandBitsHaveNoEffect : Prop :=
  (∀ (v v' : Byte) (s : State),
    exec (.init v) s = exec (.init v') s ∧ exec (.recvByte v) s = exec (.recvByte v') s ∧
      exec (.available v) s = exec (.available v') s ∧ exec (.edgeReqRise v) s = exec (.edgeReqRise v') s ∧
      exec (.edgeDcFall v) s = exec (.edgeDcFall v') s ∧ exec (.edgeDcRise v) s = exec (.edgeDcRise v') s) ∧
    (∀ (w w' : OpWord) (s : State),
      exec (.reserved47 w) s = exec (.reserved47 w') s ∧ exec (.reservedCF w) s = exec (.reservedCF w') s) ∧
    (∀ (v v' : Byte) (s : State),
      v.getLsbD 0 = v'.getLsbD 0 ∨ (s.node s.active).engine.ls ≠ .readyForData →
        exec (.edgeReqFall v) s = exec (.edgeReqFall v') s)

/-! ### The step -/

/-- R79: a word presented at a node is decoded and executed there. `step` takes the action off the schedule and makes the node the active
one, and does nothing else around `exec`. The schedule and the active node are the model's own (log entries 1 to 3). -/
def Obligations.StepRunsThePresentedOperation : Prop :=
  ∀ (s : State) (x : Role) (w : OpWord) (rest : List Action) (i : Instr),
    s.schedule = .operation x w :: rest → decode w = i → WellFormed i →
      step s = exec i { s with schedule := rest, active := x }

/-- R75, R78: delivering to an initialised node takes the oldest event off its queue and executes the matching edge operation there, with
the live level of `DC_IN` in bit 0 of the operand; with no event, or before the first `INIT`, only the action is used up (the model's
choice, log entry 19). -/
def Obligations.DeliveryHandlesTheOldestEvent : Prop :=
  ∀ (s : State) (y : Role) (rest : List Action), s.schedule = .deliver y :: rest →
    (∀ (ev : EdgeEvent) (q : List EdgeEvent), (s.node y).initialised = true → (s.node y).pend = ev :: q →
      ∃ v : Byte, (v.getLsbD 0 = true ↔ s.lineRead y .dcIn = .high) ∧
        step s = exec (edgeInstr ev v)
          { (s.setNode y { s.node y with pend := q }) with schedule := rest, active := y }) ∧
    ((s.node y).initialised = false ∨ (s.node y).pend = [] → step s = .next { s with schedule := rest })

/-- R229 (1): an arbiter that sees a pending event and an application command serves the event first, and the command keeps waiting; with
no event pending the command runs (the schedule is the model's own, log entries 2 and 16). -/
def Obligations.ArbiterServesEventsFirst : Prop :=
  ∀ (s : State) (x : Role) (w : OpWord) (rest : List Action), s.schedule = .arbitrate x w :: rest →
    (s.eventReady x = true →
      step s = step { s with schedule := .deliver x :: s.schedule }) ∧
    (s.eventReady x = false → step s = exec (decode w) { s with schedule := rest, active := x })

/-- With nothing scheduled no operation runs, and a shim that loses, reorders or misreports an event (R272, R273) changes only the pending
queue of its node: entry `k` is lost; entries `k` and `k + 1` are exchanged; entry `k` takes the other polarity; and when the queue has no such
entry only the action is used up (these actions are the model's own form of the hazards, log entries 2 and 15). -/
def Obligations.StepsWithoutAnOperation : Prop :=
  (∀ s : State, s.schedule = [] → step s = .next s) ∧
    ∀ (s : State) (y : Role) (k : Nat) (rest : List Action) (q : List EdgeEvent), (s.node y).pend = q →
      (s.schedule = .lose y k :: rest →
        step s = .next { (s.setNode y { s.node y with pend := q.eraseIdx k }) with schedule := rest }) ∧
      (s.schedule = .overtake y k :: rest →
        (∀ ev next, q[k]? = some ev → q[k + 1]? = some next →
          step s = .next { (s.setNode y { s.node y with pend := (q.set k next).set (k + 1) ev }) with schedule := rest }) ∧
        (q[k + 1]? = none → step s = .next { s with schedule := rest })) ∧
      (s.schedule = .misreport y k :: rest →
        (∀ ev, q[k]? = some ev →
          step s = .next
            { (s.setNode y { s.node y with pend := q.set k ⟨ev.line, if ev.pol = .fall then .rise else .fall⟩ }) with
              schedule := rest }) ∧
        (q[k]? = none → step s = .next { s with schedule := rest }))

/-- R220: no operation faults, and at an initialised node every operation completes, the reserved words included (the no-op reading
of R101, log entry 12). -/
def Obligations.EveryOperationCompletes : Prop :=
  ∀ s : State, (∀ r : Fault, step s ≠ .fault r) ∧
    ∀ i : Instr, (s.node s.active).initialised = true → ∃ t, exec i s = .next t

/-- R260, U12: before a node's first `INIT` every other operation is refused, and `INIT` completes. That the model refuses there, where the
result is unspecified, is one of the two forms R260 offers (log entry 5). -/
def Obligations.OnlyInitBeforeTheFirstInit : Prop :=
  ∀ s : State, (s.node s.active).initialised = false →
    (∀ v, ∃ t, exec (.init v) s = .next t) ∧
      ∀ i, (∀ v, i ≠ .init v) → exec i s = .refused .beforeFirstInit

/-! ### The four commands -/

/-- R200: in every state `INIT` gives the node its reset values but for the two arrays, empties its pending queue, answers `(1, 0x00)`, and
drives both owned lines HIGH, which the peer's edge detector sees, `REQ_IN` first as the `LineWrite`s go. Where the platform cannot tell that
order it sees `DC_IN` first: the fallback of R229 (3), which does not name `INIT`; its use here is the model's deduction, and the constant
`tellsOrder` the model's form of it (log entry 16). -/
def Obligations.InitResult : Prop :=
  ∀ (s : State) (v : Byte) (n p : Node), s.node s.active = n → s.node (peerOf s.active) = p →
    Completes (.init v) s
      { n with
        engine :=
          { ls := .idle, dir := .noDirection, outReq := .high, outDc := .high,
            tx := { mem := n.engine.tx.mem, wr := 0, rd := none },
            rx := { mem := n.engine.rx.mem, wr := 0, rd := none },
            txIdx := 7, txByte := 0x00#8, rxIdx := 7, rxByte := 0x00#8 }
        initialised := true
        pend := []
        rsp := { ok := true, data := 0x00#8 } }
      (if s.params.tellsOrder then (p.observe s.params .reqIn .high).observe s.params .dcIn .high
        else (p.observe s.params .dcIn .high).observe s.params .reqIn .high)

/-- R221: a `SEND_BYTE` into a full transmit buffer answers `(0, 0x00)` and changes nothing. -/
def Obligations.SendByteToAFullBuffer : Prop :=
  ∀ (s : State) (b : Byte) (n : Node), s.node s.active = n → n.initialised = true →
    n.engine.tx.rd = some n.engine.tx.wr →
      Completes (.sendByte b) s { n with rsp := { ok := false, data := 0x00#8 } } (s.node (peerOf s.active))

/-- R201: a `SEND_BYTE` into a buffer that is not full stores the byte at the write index and advances it; into an empty buffer it also
sets the read index, and when no direction is active it then requests: `REQ_OUT` falls, `dir` becomes `MY_DIR`, `ls` becomes
`RequestSent`. Every other slot of the array, and all of the receive array, read as before. -/
def Obligations.SendByteStored : Prop :=
  ∀ (s : State) (b : Byte) (n p : Node) (e : Engine), s.node s.active = n → s.node (peerOf s.active) = p → n.engine = e →
    n.initialised = true → e.tx.rd ≠ some e.tx.wr →
      ∃ e' : Engine,
        e'.tx = { mem := e.tx.mem.write e.tx.wr b, wr := nextIndex s.params.capacity e.tx.wr,
                  rd := if e.tx.rd = none then some e.tx.wr else e.tx.rd } ∧
        e'.rx = e.rx ∧ e'.outDc = e.outDc ∧ e'.txIdx = e.txIdx ∧ e'.txByte = e.txByte ∧ e'.rxIdx = e.rxIdx ∧
        e'.rxByte = e.rxByte ∧
        (∀ j, e'.tx.mem.written j = if j = e.tx.wr then some b else e.tx.mem.written j) ∧
        (if e.tx.rd = none ∧ e.dir = .noDirection then
          e'.ls = .requestSent ∧ e'.dir = myDir s.active ∧ e'.outReq = .low ∧
            Completes (.sendByte b) s { n with engine := e', rsp := { ok := true, data := 0x00#8 } } (p.observe s.params .reqIn .low)
        else
          e'.ls = e.ls ∧ e'.dir = e.dir ∧ e'.outReq = e.outReq ∧
            Completes (.sendByte b) s { n with engine := e', rsp := { ok := true, data := 0x00#8 } } p)

/-- R202, R222: `RECV_BYTE` answers the oldest received byte and advances the read index, which becomes `EMPTY` when it reaches the write
index; from an empty buffer it answers `ok = 0` with the open byte `RECV_EMPTY_DATA` and changes nothing of the engine (the counter that
picks that byte is the model's own, log entry 8). -/
def Obligations.RecvByteResult : Prop :=
  ∀ (s : State) (v : Byte) (n : Node) (e : Engine), s.node s.active = n → n.engine = e → n.initialised = true →
    (∀ r, e.rx.rd = some r →
      Completes (.recvByte v) s
        { n with
          engine :=
            { e with
              rx :=
                { e.rx with
                  rd := if nextIndex s.params.capacity r = e.rx.wr then none else some (nextIndex s.params.capacity r) } }
          rsp := { ok := true, data := e.rx.mem.read (Config.rxStorageAtReset s.active) r } }
        (s.node (peerOf s.active))) ∧
    (e.rx.rd = none →
      Completes (.recvByte v) s
        { n with
          rsp := { ok := false, data := Config.recvEmptyData s.active n.emptyReads }
          emptyReads := n.emptyReads + 1 }
        (s.node (peerOf s.active)))

/-- R203: `AVAILABLE` answers whether the receive buffer is not empty, and writes no state. -/
def Obligations.AvailableResult : Prop :=
  ∀ (s : State) (v : Byte) (n : Node), s.node s.active = n → n.initialised = true →
    Completes (.available v) s
      { n with rsp := { ok := decide (n.engine.rx.rd ≠ none), data := 0x00#8 } } (s.node (peerOf s.active))

/-- R65: a second `AVAILABLE` answers what the first did and leaves the state as the first left it. -/
def Obligations.AvailableIsIdempotent : Prop :=
  ∀ (s t : State) (v w : Byte), exec (.available v) s = .next t → exec (.available w) t = .next t

/-- R101: a reserved word of either block changes no state, writes no line and answers `(0, 0x00)`. R101 also allows a model to refuse these
words and rests no claim on the no-op; the model takes the no-op (log entry 12). -/
def Obligations.ReservedWordsDoNothing : Prop :=
  ∀ (s : State) (w : OpWord) (n : Node), s.node s.active = n → n.initialised = true →
    Completes (.reserved47 w) s { n with rsp := { ok := false, data := 0x00#8 } } (s.node (peerOf s.active)) ∧
      Completes (.reservedCF w) s { n with rsp := { ok := false, data := 0x00#8 } } (s.node (peerOf s.active))

/-! ### The edge operations -/

/-- R166, transition T1: `EDGE_DC_FALL` in `RequestSent`.
The response port takes `(0, 0x00)` (R182, R94, log entry 6). -/
def Obligations.RequestConfirmedT1 : Prop :=
  ∀ (s : State) (v : Byte) (n p : Node) (e : Engine), s.node s.active = n → s.node (peerOf s.active) = p → n.engine = e →
    n.initialised = true → e.dir = myDir s.active → e.ls = .requestSent →
      Completes (.edgeDcFall v) s
        { n with engine := { e with ls := .requestConfAckReceived, outReq := .high }, rsp := ⟨false, 0x00#8⟩ }
        (p.observe s.params .reqIn .high)

/-- R167, transition T2: `EDGE_DC_RISE` in `RequestConfAckReceived` emits the bit that `NEXT_BIT_TO_SEND` gives, at the level that carries it
(R100: `BIT_LEVEL` carries a 1, the other level a 0), the data line before the strobe.
The response port takes `(0, 0x00)` (R183, R94, log entry 6). -/
def Obligations.EmitBitT2 : Prop :=
  ∀ (s : State) (v : Byte) (n p : Node) (e e' : Engine) (b : Bool), s.node s.active = n → s.node (peerOf s.active) = p →
    n.engine = e → n.initialised = true → e.dir = myDir s.active → e.ls = .requestConfAckReceived →
    e.nextBitToSend s.params s.active = (e', b) →
      Completes (.edgeDcRise v) s
        { n with
          engine :=
            { e' with
              ls := .dataTransmission
              outReq := .low
              outDc := if b then s.params.bitLevel else otherLevel s.params.bitLevel }
          rsp := ⟨false, 0x00#8⟩ }
        ((p.observe s.params .dcIn (if b then s.params.bitLevel else otherLevel s.params.bitLevel)).observe s.params .reqIn .low)

/-- R168, transition T3: `EDGE_DC_FALL` in `DataTransmission`.
The response port takes `(0, 0x00)` (R182, R94, log entry 6). -/
def Obligations.DataConfirmedT3 : Prop :=
  ∀ (s : State) (v : Byte) (n p : Node) (e : Engine), s.node s.active = n → s.node (peerOf s.active) = p → n.engine = e →
    n.initialised = true → e.dir = myDir s.active → e.ls = .dataTransmission →
      Completes (.edgeDcFall v) s
        { n with
          engine := { e with ls := .dataTransConfAckReceived, outReq := .high, outDc := .high }
          rsp := ⟨false, 0x00#8⟩ }
        ((p.observe s.params .dcIn .high).observe s.params .reqIn .high)

/-- R169, R175, R186, transition T4: `EDGE_DC_RISE` in `DataTransConfAckReceived` ends the transfer; with data pending the node requests
again in the same operation, without a visible `Idle`.
The response port takes `(0, 0x00)` (R183, R94, log entry 6). -/
def Obligations.SenderCompletesT4 : Prop :=
  ∀ (s : State) (v : Byte) (n p : Node) (e : Engine), s.node s.active = n → s.node (peerOf s.active) = p → n.engine = e →
    n.initialised = true → e.dir = myDir s.active → e.ls = .dataTransConfAckReceived →
      (e.txIdx = 7 ∧ e.tx.rd = none →
        Completes (.edgeDcRise v) s
          { n with engine := { e with ls := .idle, dir := .noDirection }, rsp := ⟨false, 0x00#8⟩ } p) ∧
      (¬ (e.txIdx = 7 ∧ e.tx.rd = none) →
        Completes (.edgeDcRise v) s
          { n with
            engine := { e with ls := .requestSent, dir := myDir s.active, outReq := .low }
            rsp := ⟨false, 0x00#8⟩ }
          (p.observe s.params .reqIn .low))

/-- R171, transition T5: `EDGE_REQ_FALL` in `Idle`.
The response port takes `(0, 0x00)` (R180, R94, log entry 6). -/
def Obligations.AcceptRequestT5 : Prop :=
  ∀ (s : State) (v : Byte) (n p : Node) (e : Engine), s.node s.active = n → s.node (peerOf s.active) = p → n.engine = e →
    n.initialised = true → e.dir = .noDirection → e.ls = .idle →
      Completes (.edgeReqFall v) s
        { n with
          engine := { e with ls := .requestConfirmed, dir := peerDir s.active, outDc := .low }
          rsp := ⟨false, 0x00#8⟩ }
        (p.observe s.params .dcIn .low)

/-- R170, transition T6: `EDGE_REQ_FALL` at Node 2 in `RequestSent`: it withdraws its request, confirms Node 1's, and keeps its transmit
data. Its two events go in the order of the `LineWrite`s, or `DC_IN` first where the platform cannot tell that order (R229 (3); the constant
`tellsOrder` is the model's form of it, log entry 16).
The response port takes `(0, 0x00)` (R180, R94, log entry 6). -/
def Obligations.YieldT6 : Prop :=
  ∀ (s : State) (v : Byte) (n p : Node) (e : Engine), s.active = .node2 → s.node2 = n → s.node1 = p → n.engine = e →
    n.initialised = true → e.dir = .node2ToNode1 → e.ls = .requestSent →
      Completes (.edgeReqFall v) s
        { n with
          engine := { e with ls := .requestConfirmed, dir := .node1ToNode2, outReq := .high, outDc := .low }
          rsp := ⟨false, 0x00#8⟩ }
        (if s.params.tellsOrder then (p.observe s.params .reqIn .high).observe s.params .dcIn .low
          else (p.observe s.params .dcIn .low).observe s.params .reqIn .high)

/-- R172, transition T7: `EDGE_REQ_RISE` in `RequestConfirmed`.
The response port takes `(0, 0x00)` (R181, R94, log entry 6). -/
def Obligations.ReadyForDataT7 : Prop :=
  ∀ (s : State) (v : Byte) (n p : Node) (e : Engine), s.node s.active = n → s.node (peerOf s.active) = p → n.engine = e →
    n.initialised = true → e.dir = peerDir s.active → e.ls = .requestConfirmed →
      Completes (.edgeReqRise v) s
        { n with engine := { e with ls := .readyForData, outDc := .high }, rsp := ⟨false, 0x00#8⟩ } (p.observe s.params .dcIn .high)

/-- R173, transition T8: `EDGE_REQ_FALL` in `ReadyForData` captures the bit that the level in operand bit 0 carries (R93, R100: a 1 when
it is `BIT_LEVEL`) and confirms.
The response port takes `(0, 0x00)` (R180, R94, log entry 6). -/
def Obligations.CaptureBitT8 : Prop :=
  ∀ (s : State) (v : Byte) (n p : Node) (e e' : Engine), s.node s.active = n → s.node (peerOf s.active) = p → n.engine = e →
    n.initialised = true → e.dir = peerDir s.active → e.ls = .readyForData →
    e.newBitReceived s.params (if s.params.bitLevel = .high then v.getLsbD 0 else !v.getLsbD 0) = e' →
      Completes (.edgeReqFall v) s
        { n with engine := { e' with ls := .dataTransConfirmed, outDc := .low }, rsp := ⟨false, 0x00#8⟩ } (p.observe s.params .dcIn .low)

/-- R174, R175, transition T9: `EDGE_REQ_RISE` in `DataTransConfirmed` releases the confirmation and ends the transfer; with data pending
the node then requests.
The response port takes `(0, 0x00)` (R181, R94, log entry 6). -/
def Obligations.ReceiverCompletesT9 : Prop :=
  ∀ (s : State) (v : Byte) (n p : Node) (e : Engine), s.node s.active = n → s.node (peerOf s.active) = p → n.engine = e →
    n.initialised = true → e.dir = peerDir s.active → e.ls = .dataTransConfirmed →
      (e.txIdx = 7 ∧ e.tx.rd = none →
        Completes (.edgeReqRise v) s
          { n with engine := { e with ls := .idle, dir := .noDirection, outDc := .high }, rsp := ⟨false, 0x00#8⟩ }
          (p.observe s.params .dcIn .high)) ∧
      (¬ (e.txIdx = 7 ∧ e.tx.rd = none) →
        Completes (.edgeReqRise v) s
          { n with
            engine := { e with ls := .requestSent, dir := myDir s.active, outDc := .high, outReq := .low }
            rsp := ⟨false, 0x00#8⟩ }
          ((p.observe s.params .dcIn .high).observe s.params .reqIn .low))

/-- R176 over the table of R165: an edge operation in a cell marked `-` changes nothing but the response port. -/
def Obligations.UnmatchedEdgesAreIgnored : Prop :=
  ∀ (s : State) (i : Instr) (ev : EdgeEvent) (n : Node), s.node s.active = n → n.initialised = true →
    EngineInv s.params s.active n.engine → eventOf i = some ev →
    tableNext s.active n.engine.txPending n.engine.ls ev.line ev.pol = n.engine.ls →
      Completes i s { n with rsp := ⟨false, 0x00#8⟩ } (s.node (peerOf s.active))

/-- R177: Node 1 holding `Node1ToNode2` ignores every edge on its `REQ_IN`, in every state. So the two events of Node 2's yield may be
handled in either order and give the same state (R229 (3)). -/
def Obligations.Node1IgnoresTheCollidingRequest : Prop :=
  ∀ (s : State) (v : Byte) (n : Node), s.active = .node1 → s.node1 = n → n.initialised = true →
    n.engine.dir = .node1ToNode2 →
      Completes (.edgeReqFall v) s { n with rsp := ⟨false, 0x00#8⟩ } s.node2 ∧
        Completes (.edgeReqRise v) s { n with rsp := ⟨false, 0x00#8⟩ } s.node2 ∧
        ∀ w : Byte, ∃ t u r,
          exec (.edgeReqRise v) s = .next t ∧ exec (.edgeDcFall w) t = .next r ∧
          exec (.edgeDcFall w) s = .next u ∧ exec (.edgeReqRise v) u = .next r

/-- R165: in every state with the invariants of R40 to R46, each edge operation moves `ls` as the transition table says. -/
def Obligations.EdgesFollowTheTransitionTable : Prop :=
  ∀ (s : State) (i : Instr) (ev : EdgeEvent), (s.node s.active).initialised = true →
    EngineInv s.params s.active (s.node s.active).engine → eventOf i = some ev →
      ∃ t, exec i s = .next t ∧
        (t.node s.active).engine.ls =
          tableNext s.active (s.node s.active).engine.txPending (s.node s.active).engine.ls ev.line ev.pol

/-- R184: a node that is not `Idle` keeps `ls` and `dir` under every operation but `INIT` and the events that the table lists for its
state. -/
def Obligations.WaitingNodeMovesOnlyOnItsEvent : Prop :=
  ∀ (s : State) (i : Instr), (s.node s.active).initialised = true → EngineInv s.params s.active (s.node s.active).engine →
    (s.node s.active).engine.ls ≠ .idle → (∀ v, i ≠ .init v) →
    (∀ ev, eventOf i = some ev →
      tableNext s.active (s.node s.active).engine.txPending (s.node s.active).engine.ls ev.line ev.pol =
        (s.node s.active).engine.ls) →
      ∃ t, exec i s = .next t ∧ (t.node s.active).engine.ls = (s.node s.active).engine.ls ∧
        (t.node s.active).engine.dir = (s.node s.active).engine.dir

/-! ### Lines and events -/

/-- R10, R66, R70, R71: which node drives which wire and reads which; what a node drives, its latch once it is initialised and HIGH before its
first `INIT`; and that a wire has the level its writer drives and a line read is the live level the peer drives. -/
def Obligations.LinesAndTheirWriters : Prop :=
  (outWire .node1 .reqOut = .a ∧ outWire .node2 .reqOut = .b ∧ outWire .node1 .dcOut = .c ∧ outWire .node2 .dcOut = .d) ∧
    (inWire .node1 .reqIn = .b ∧ inWire .node2 .reqIn = .a ∧ inWire .node1 .dcIn = .d ∧ inWire .node2 .dcIn = .c) ∧
    (∀ n : Node,
      (n.initialised = true → n.drives .reqOut = n.engine.outReq ∧ n.drives .dcOut = n.engine.outDc) ∧
      (n.initialised = false → ∀ l : OutLine, n.drives l = .high)) ∧
    ∀ (s : State) (x : Role),
      s.wireLevel (outWire x .reqOut) = (s.node x).drives .reqOut ∧ s.wireLevel (outWire x .dcOut) = (s.node x).drives .dcOut ∧
      s.lineRead x .reqIn = (s.node (peerOf x)).drives .reqOut ∧ s.lineRead x .dcIn = (s.node (peerOf x)).drives .dcOut

/-- R72, R73: after an operation, each line whose level it changed has made one event for the initialised peer, with the polarity of the
change, and a line whose level it did not change has made none; nothing else enters or leaves the peer's queue. R229 (3): two events of one
operation go in the order of its `LineWrite`s, which is `REQ_IN` first only in `INIT` and T6; where the platform cannot tell that order,
`DC_IN` goes first in those too; that this holds of `INIT` is the model's deduction, and the constant `tellsOrder` its form (log entry 16).
The premise on `PEND_DEPTH`: the queue has room for two events (what a full one does, `OnlyAFullQueueLosesAnEvent`, log entry 13). -/
def Obligations.EachLineChangeMakesOneEvent : Prop :=
  ∀ (s t : State) (i : Instr), Inv s → exec i s = .next t → (s.node (peerOf s.active)).initialised = true →
    s.params.fits ((s.node (peerOf s.active)).pend.length + 2) = true →
    ∃ evs, (t.node (peerOf s.active)).pend = (s.node (peerOf s.active)).pend ++ evs ∧
      (∀ l : OutLine,
        evs.filter (fun ev => ev.line == seenAs l) =
          if t.wireLevel (outWire s.active l) = s.wireLevel (outWire s.active l) then []
          else [⟨seenAs l, polarityTo (t.wireLevel (outWire s.active l))⟩]) ∧
      ∀ a b, evs = [a, b] →
        if s.params.tellsOrder = true ∧ ((∃ v, i = .init v) ∨ ∃ v, i = .edgeReqFall v) then a.line = .reqIn ∧ b.line = .dcIn
        else a.line = .dcIn ∧ b.line = .reqIn

/-- R72, R74, R228: a change of level on an input line of an initialised node makes one event, which enters the queue at its tail while
`PEND_DEPTH` (R11) leaves room; an event that finds the queue at its depth is lost and every waiting one stays, and the detector has then
seen the change all the same (the model's choice, log entry 13). A level that is no change does nothing. -/
def Obligations.OnlyAFullQueueLosesAnEvent : Prop :=
  ∀ (P : Params) (n : Node) (l : InLine) (v : Level), n.initialised = true →
    ((n.observe P l v).seen l = v) ∧
    (n.seen l = v → n.observe P l v = n) ∧
    (n.seen l ≠ v →
      ((P.pendDepth = none ∨ ∃ d, P.pendDepth = some d ∧ n.pend.length < d) →
        (n.observe P l v).pend = n.pend ++ [⟨l, polarityTo v⟩]) ∧
      (∀ d, P.pendDepth = some d → d ≤ n.pend.length → (n.observe P l v).pend = n.pend))

/-- R60, R67, R246, R262: an operation of one node changes nothing of the other but what its shim has seen and queued; it queues at most two
events, and none before that node's first `INIT`. -/
def Obligations.OperationLeavesThePeersEngine : Prop :=
  ∀ (s t : State) (i : Instr) (p q : Node), exec i s = .next t → s.node (peerOf s.active) = p → t.node (peerOf s.active) = q →
    q.engine = p.engine ∧ q.initialised = p.initialised ∧ q.rsp = p.rsp ∧ q.emptyReads = p.emptyReads ∧
      (p.initialised = false → q.pend = p.pend) ∧ ∃ evs, q.pend = p.pend ++ evs ∧ evs.length ≤ 2

/-- R37, R233: what the application commands other than `INIT` may touch of their own engine. -/
def Obligations.ApplicationCommandsTouchOnlyTheBuffers : Prop :=
  ∀ (s t : State) (v : Byte) (e e' : Engine), (s.node s.active).engine = e → (t.node s.active).engine = e' →
    (exec (.sendByte v) s = .next t →
      e'.outDc = e.outDc ∧ e'.rx = e.rx ∧ e'.txIdx = e.txIdx ∧ e'.txByte = e.txByte ∧ e'.rxIdx = e.rxIdx ∧
        e'.rxByte = e.rxByte ∧ (e.dir ≠ .noDirection → e'.ls = e.ls ∧ e'.dir = e.dir ∧ e'.outReq = e.outReq)) ∧
    (exec (.recvByte v) s = .next t → e' = { e with rx := { e.rx with rd := e'.rx.rd } }) ∧
    (exec (.available v) s = .next t → e' = e)

/-! ### Buffers -/

/-- R120: the wrapping successor of an index of a buffer of capacity `n`. -/
def Obligations.IndexSuccessorWraps : Prop :=
  ∀ n i : Nat, i < n → nextIndex n i = if i + 1 < n then i + 1 else 0

/-- R121, for every capacity. -/
def Obligations.EnqueueResult : Prop :=
  ∀ (n : Nat) (b : Buffer) (v : Byte),
    (b.rd = some b.wr → b.enqueue n v = { buf := b, ok := false, wasEmpty := false }) ∧
    (b.rd = none →
      b.enqueue n v =
        { buf := { mem := b.mem.write b.wr v, wr := nextIndex n b.wr, rd := some b.wr }, ok := true, wasEmpty := true }) ∧
    (∀ r, b.rd = some r → r ≠ b.wr →
      b.enqueue n v =
        { buf := { mem := b.mem.write b.wr v, wr := nextIndex n b.wr, rd := some r }, ok := true, wasEmpty := false })

/-- R122, for every capacity; an unwritten slot holds the open byte `f` gives it (R52). -/
def Obligations.DequeueResult : Prop :=
  ∀ (n : Nat) (f : Nat → Byte) (b : Buffer),
    (b.rd = none → b.dequeue n f = { buf := b, value := none }) ∧
    (∀ r, b.rd = some r →
      b.dequeue n f =
        { buf := { mem := b.mem, wr := b.wr, rd := if nextIndex n r = b.wr then none else some (nextIndex n r) }
          value := some ((b.mem.written r).getD (f r)) })

/-- R126, R127: through `contents`, the circular buffer of any capacity `n` is a list of at most `n` bytes: `ENQUEUE` appends when the
length is below `n`, `DEQUEUE` removes the head, `IS_NONEMPTY` tests for non-nil, and `count` is the length. The premise is R45: the
indices are in range, which both operations keep. -/
def Obligations.BufferRefinesAList : Prop :=
  ∀ (n : Nat) (f : Nat → Byte) (b : Buffer) (v : Byte), b.inRange n = true →
    (b.contents n f).length = b.count n ∧ b.count n ≤ n ∧
    (b.enqueue n v).ok = decide ((b.contents n f).length < n) ∧
    (b.enqueue n v).buf.contents n f = (if (b.contents n f).length < n then b.contents n f ++ [v] else b.contents n f) ∧
    (b.dequeue n f).value = (b.contents n f).head? ∧ (b.dequeue n f).buf.contents n f = (b.contents n f).tail ∧
    b.isNonempty = (!(b.contents n f).isEmpty) ∧
    (b.enqueue n v).buf.inRange n = true ∧ (b.dequeue n f).buf.inRange n = true

/-- R125: from an empty buffer of capacity `n`, exactly `n` successive `ENQUEUE`s succeed, and the next fails. -/
def Obligations.CapacityIsTheWholeArray : Prop :=
  ∀ (n : Nat) (b : Buffer) (vs : List Byte) (v : Byte), b.inRange n = true → b.rd = none → vs.length = n →
    (b.enqueueAll n vs).2 = List.replicate n true ∧ ((b.enqueueAll n vs).1.enqueue n v).ok = false

/-- R29: the 6-bit stored codes of the indices. This hardware's `SENTINEL` is 0x3F; and for every legal `N` and `SENTINEL` that 6 bits hold, an
index in range is stored as its own number and `EMPTY` as the `SENTINEL`, which is the code of no index in range. -/
def Obligations.StoredIndexCodes : Prop :=
  Config.hardware.sentinel = 0x3F ∧
    ∀ (P : Params) (b : Buffer), P.legal = true → P.sentinel ≤ 63 → b.inRange P.capacity = true →
      (writeIndexCode b.wr).toNat = b.wr ∧
      (∀ r, b.rd = some r → (readIndexCode P.sentinel b.rd).toNat = r) ∧
      (b.rd = none ↔ (readIndexCode P.sentinel b.rd).toNat = P.sentinel)

/-! ### Framer -/

/-- R141, R142: the next bit to send, with its three cases. -/
def Obligations.NextBitToSendResult : Prop :=
  ∀ (P : Params) (r : Role) (e : Engine),
    (e.txIdx = 7 → e.tx.rd = none → e.nextBitToSend P r = (e, false)) ∧
    (∀ i, e.txIdx = 7 → e.tx.rd = some i →
      e.nextBitToSend P r =
        ({ e with
            tx := { e.tx with rd := if nextIndex P.capacity i = e.tx.wr then none else some (nextIndex P.capacity i) }
            txByte := e.tx.mem.read (Config.txStorageAtReset r) i
            txIdx := 0 },
          (e.tx.mem.read (Config.txStorageAtReset r) i).getLsbD 0)) ∧
    (∀ k : Fin 8, k ≠ 0 → e.txIdx.val + 1 = k.val →
      e.nextBitToSend P r = ({ e with txIdx := k }, e.txByte.getLsbD k.val))

/-- R143, R144: a received bit lands at the next index above the bits before it; the eighth pushes the byte, after which the accumulator is
clear, or drops it when the receive buffer is full, and then the accumulator is clear when `RX_CLEAR_ON_DROP` is true and keeps the
dropped byte when it is false. -/
def Obligations.NewBitReceivedResult : Prop :=
  ∀ (P : Params) (e : Engine) (b : Bool) (k : Fin 8), (e.rxIdx.val + 1) % 8 = k.val →
    ∃ v : Byte, (∀ j, v.getLsbD j = (e.rxByte.getLsbD j || (decide (j = k.val) && b))) ∧
      (k ≠ 7 → e.newBitReceived P b = { e with rxIdx := k, rxByte := v }) ∧
      (k = 7 → e.rx.rd ≠ some e.rx.wr →
        e.newBitReceived P b = { e with rxIdx := 7, rx := (e.rx.enqueue P.capacity v).buf, rxByte := 0x00#8 }) ∧
      (k = 7 → e.rx.rd = some e.rx.wr →
        e.newBitReceived P b = { e with rxIdx := 7, rxByte := if P.rxClearOnDrop then 0x00#8 else v })

/-- R147, R148: eight bits from a sender with a byte `v` at the head of its queue to a receiver between bytes push exactly `v`, least
significant bit first, with one `DEQUEUE` at the sender. The accumulator is then clear, but for a full receive buffer with
`RX_CLEAR_ON_DROP` false, which keeps the dropped byte (R144). -/
def Obligations.ByteRoundTrip : Prop :=
  ∀ (P : Params) (r : Role) (snd rcv : Engine) (i : Nat) (v : Byte),
    snd.txIdx = 7 → snd.tx.rd = some i → snd.tx.mem.read (Config.txStorageAtReset r) i = v →
    rcv.rxIdx = 7 → rcv.rxByte = 0x00#8 →
      relayBits P r 8 (snd, rcv) =
        ({ snd with tx := (snd.tx.dequeue P.capacity (Config.txStorageAtReset r)).buf, txByte := v, txIdx := 7 },
          { rcv with
            rx := (rcv.rx.enqueue P.capacity v).buf
            rxByte := if rcv.rx.rd = some rcv.rx.wr ∧ P.rxClearOnDrop = false then v else 0x00#8 })

/-- R149: `NEXT_BIT_TO_SEND` reads and writes no receive field, `NEW_BIT_RECEIVED` no transmit field: with other values in those fields each
does the same and leaves them there. Neither reads or writes `ls`, `dir` or a latch. -/
def Obligations.FramerCursorsAreIndependent : Prop :=
  ∀ (P : Params) (r : Role) (e : Engine) (b : Bool) (ls : LinkState) (dir : Direction) (req dc : Level) (buf : Buffer) (idx : Fin 8)
    (v : Byte),
    ({ e with ls := ls, dir := dir, outReq := req, outDc := dc, rx := buf, rxIdx := idx, rxByte := v } : Engine).nextBitToSend P r =
        ({ (e.nextBitToSend P r).1 with
            ls := ls, dir := dir, outReq := req, outDc := dc, rx := buf, rxIdx := idx, rxByte := v },
          (e.nextBitToSend P r).2) ∧
      ({ e with ls := ls, dir := dir, outReq := req, outDc := dc, tx := buf, txIdx := idx, txByte := v } : Engine).newBitReceived P b =
        { e.newBitReceived P b with ls := ls, dir := dir, outReq := req, outDc := dc, tx := buf, txIdx := idx, txByte := v }

/-! ### Invariants of every step -/

/-- R40 to R46, R50 to R54, R260: the invariants hold right after reset, whatever the parameters, and before the first `INIT` of either node
whatever the engines then hold. That the reset state is the state after `INIT` and that the edge detectors follow the wires are the
model's (log entries 4 and 7), as is the range of the parameters (log entry 10). -/
def Obligations.ResetHasTheInvariants : Prop :=
  Inv State.reset ∧ (∀ P : Params, P.legal = true → Inv (State.resetWith P)) ∧
    ∀ s : State, s.params.legal = true →
      (∀ x, (s.node x).engine.tx.mem.wf s.params.capacity = true ∧ (s.node x).engine.rx.mem.wf s.params.capacity = true) →
      Inv s.beforeInit

/-- R8, R11: no step changes a parameter. That the parameters stand in the state is the model's own form (log entry 10). -/
def Obligations.StepsKeepTheParameters : Prop :=
  ∀ s t : State, step s = .next t → t.params = s.params

/-- R40 to R46: every step keeps the invariants, whatever operation words, events and shim errors the schedule holds and for all legal parameters.
R46 is kept where `RX_CLEAR_ON_DROP` is true, as on this hardware (R11, R144); the schedule may present reserved words (log entry 12). -/
def Obligations.EveryStepKeepsTheInvariants : Prop := ∀ s t : State, Inv s → step s = .next t → Inv t

/-- R43, R142: where the invariants hold, the empty pull is not taken: when a node is to emit a bit it has one. -/
def Obligations.EmptyPullIsUnreachable : Prop :=
  ∀ (P : Params) (r : Role) (e : Engine), EngineInv P r e → e.ls = .requestConfAckReceived → ¬ (e.txIdx = 7 ∧ e.tx.rd = none)

/-- R261, R50 to R54: the reset state of the model holds what the table of R261 lists, with the parameters of this hardware (R8, R11) and with any
others; the response port and the edge detectors hold what log entries 6 and 7 deduce. -/
def Obligations.ResetValues : Prop :=
  (State.reset = State.resetWith Config.hardware ∧ State.reset.params.capacity = 50) ∧
    ∀ (P : Params) (x : Role), ∃ n : Node, (State.resetWith P).node x = n ∧
      n.engine.ls = .idle ∧ n.engine.dir = .noDirection ∧ n.engine.tx.rd = none ∧ n.engine.rx.rd = none ∧
      n.engine.tx.wr = 0 ∧ n.engine.rx.wr = 0 ∧ n.engine.txIdx = 7 ∧ n.engine.rxIdx = 7 ∧
      n.engine.txByte = 0x00#8 ∧ n.engine.rxByte = 0x00#8 ∧ n.engine.outReq = .high ∧ n.engine.outDc = .high ∧
      n.pend = [] ∧ n.initialised = true ∧ n.seenReq = .high ∧ n.seenDc = .high ∧ n.rsp = ⟨true, 0x00#8⟩

/-! ### The link under an environment that keeps the rules -/

/-- R185: right after reset the link invariant holds, for this hardware and for every legal value of the parameters. -/
def Obligations.ResetHasTheLinkInvariant : Prop :=
  LinkInv State.reset ∧ ∀ P : Params, P.legal = true → LinkInv (State.resetWith P)

/-- R185: a step that a rule-keeping environment makes answers a next state and keeps the link invariant: the joint handshake state is one of the
27 listed (29 where the platform cannot tell the order of simultaneous events, R229 (3), log entry 16), and the two bit indices of each direction
agree; so do the accumulators where `RX_CLEAR_ON_DROP` is true. A rule-keeping
environment may present reserved words, which the model runs as no-ops (R101, log entry 12). -/
def Obligations.LawfulStepsKeepTheLinkInvariant : Prop :=
  ∀ s : State, LinkInv s → (∀ a ∈ s.schedule, lawful a = true) →
    ∃ t, step s = .next t ∧ LinkInv t ∧ ∀ a ∈ t.schedule, lawful a = true

/-- R185, R270: under the link invariant the link is never stalled, and a quiescent link has nothing left to send. -/
def Obligations.NoStallUnderTheLinkInvariant : Prop :=
  ∀ s : State, LinkInv s →
    s.stalled = false ∧ (s.quiescent = true → ∀ x, (s.node x).engine.ls = .idle ∧ (s.node x).engine.bitsLeft s.params = 0)

/-- R185, R282: handling events alone ends: from a link with `k` bits left to send, a rank of at most `12 k + 11` falls with every event handled. -/
def Obligations.HandlingEventsRunsOut : Prop :=
  ∃ rank : State → Nat, ∀ s : State, LinkInv s →
    rank s ≤ 12 * (s.node1.engine.bitsLeft s.params + s.node2.engine.bitsLeft s.params) + 11 ∧
      ∀ (y : Role) (rest : List Action) (t : State), s.schedule = .deliver y :: rest → s.eventReady y = true →
        step s = .next t → rank t < rank s

/-- R77, R144, R201, R202, R205: what one operation does to the byte stream from node `x` to the application of its peer, under the link
invariant, a rule-keeping environment, and accumulators that agree (the link invariant says so where `RX_CLEAR_ON_DROP` is true, as on this
hardware; with it false, R144 leaves the bits of a dropped byte to mix with the next): an accepted `SEND_BYTE` at `x` puts its byte at the
end, a successful `RECV_BYTE` at the peer takes the byte at the front, an overrun at the peer takes exactly the byte in flight, and every
other step leaves the stream as it is. -/
def Obligations.StepConservesTheByteStream : Prop :=
  ∀ (s t : State) (x : Role), LinkInv s → s.AccumulatorsAgree → (∀ a ∈ s.schedule, lawful a = true) → step s = .next t →
    (∀ u, s.nextOperation = (none, u) → t.stream x = s.stream x) ∧
    ∀ w u, s.nextOperation = (some w, u) →
      match decode w with
      | .sendByte b =>
        t.stream x = if u.active = x ∧ (t.node x).rsp.ok = true then s.stream x ++ [b] else s.stream x
      | .recvByte _ =>
        if u.active = peerOf x ∧ (t.node (peerOf x)).rsp.ok = true then
          s.stream x = (t.node (peerOf x)).rsp.data :: t.stream x
        else t.stream x = s.stream x
      | .edgeReqFall _ =>
        if u.active = peerOf x ∧ (u.node (peerOf x)).engine.overrunNext (peerOf x) = true then
          s.inFlight x = [(s.node x).engine.txByte] ∧ t.stream x = s.rxQueue (peerOf x) ++ s.txQueue x
        else t.stream x = s.stream x
      | _ => t.stream x = s.stream x

/-- R205: along every run in which the environment keeps the rules and no receive buffer overruns, the bytes received at each node are, in order, a
prefix of the bytes accepted at the other, and the rest is on the way. The run starts with accumulators that agree, as every state with the
link invariant does where `RX_CLEAR_ON_DROP` is true, and every reset state does. -/
def Obligations.EndToEndFifo : Prop :=
  ∀ (k : Nat) (s t : State) (h h' : Traffic), LinkInv s → s.AccumulatorsAgree → (∀ a ∈ s.schedule, lawful a = true) →
    (∀ x, h.accepted x = h.received (peerOf x) ++ s.stream x) → runTraffic k s h = some (t, h') →
      ∀ x, h'.accepted x = h'.received (peerOf x) ++ t.stream x

/-- R248 (the simulation's observation, here of every lawful link): a pending queue never holds more than three events. -/
def Obligations.AtMostThreeEventsPending : Prop := ∀ (s : State) (x : Role), LinkInv s → (s.node x).pend.length ≤ 3

/-- R264: the first `INIT` of either node after the other has requested completes and stalls the link. -/
def Obligations.InitAfterThePeersRequestStalls : Prop :=
  ∀ (s : State) (v : Byte) (n p : Node), Inv s → s.node s.active = n → s.node (peerOf s.active) = p →
    n.initialised = false → p.initialised = true → p.engine.ls = .requestSent → p.pend = [] →
      ∃ t, exec (.init v) s = .next t ∧ t.stalled = true

/-- R265: when both nodes are re-initialised with no operation of either between the two `INIT`s, from any state with the invariants, handling the
events that the second `INIT` made leaves a link with the link invariant. -/
def Obligations.ReinitialisingBothNodesRestoresTheLink : Prop :=
  ∀ (s : State) (x : Role), Inv s →
    s.schedule = [.operation x 0x000#12, .operation (peerOf x) 0x000#12, .deliver x, .deliver x] →
      ∃ t, Sys2Proof.core.run 4 s = .next t ∧ LinkInv t ∧ t.quiescent = true
end

