-- ==== Sys2Proof/Laws/State.lean ====
section
/-! SUPPORT. The small lemmas of the state and of its updates: one lemma per field per update, so that no proof unfolds a record
update. -/

namespace Sys2Proof.Machine

/-! ### Roles -/

@[simp] theorem peerOf_node1 : peerOf .node1 = .node2 := rfl

@[simp] theorem peerOf_node2 : peerOf .node2 = .node1 := rfl

@[simp] theorem peerOf_peerOf (x : Role) : peerOf (peerOf x) = x := by cases x <;> rfl

@[simp] theorem peerOf_ne (x : Role) : peerOf x ≠ x := by cases x <;> decide

@[simp] theorem ne_peerOf (x : Role) : x ≠ peerOf x := by cases x <;> decide

/-- Every role is `x` or its peer. -/
theorem eq_or_eq_peerOf (x y : Role) : y = x ∨ y = peerOf x := by cases x <;> cases y <;> decide

@[simp] theorem myDir_ne_noDirection (r : Role) : myDir r ≠ .noDirection := by cases r <;> decide

@[simp] theorem peerDir_ne_noDirection (r : Role) : peerDir r ≠ .noDirection := by cases r <;> decide

@[simp] theorem peerDir_ne_myDir (r : Role) : peerDir r ≠ myDir r := by cases r <;> decide

@[simp] theorem myDir_ne_peerDir (r : Role) : myDir r ≠ peerDir r := by cases r <;> decide

@[simp] theorem myDir_peerOf (r : Role) : myDir (peerOf r) = peerDir r := by cases r <;> rfl

@[simp] theorem peerDir_peerOf (r : Role) : peerDir (peerOf r) = myDir r := by cases r <;> rfl

@[simp] theorem wireWriter_inWire (x : Role) (l : InLine) : wireWriter (inWire x l) = peerOf x := by
  cases x <;> cases l <;> rfl

@[simp] theorem wireWriter_outWire (x : Role) (l : OutLine) : wireWriter (outWire x l) = x := by
  cases x <;> cases l <;> rfl

@[simp] theorem wirePort_outWire (x : Role) (l : OutLine) : wirePort (outWire x l) = l := by
  cases x <;> cases l <;> rfl

/-- A wire is its writer's output and the other node's input (20_memory.md R66). -/
theorem inWire_seenAs (x : Role) (l : OutLine) : inWire (peerOf x) (seenAs l) = outWire x l := by
  cases x <;> cases l <;> rfl

@[simp] theorem seenAs_reqOut : seenAs .reqOut = .reqIn := rfl

@[simp] theorem seenAs_dcOut : seenAs .dcOut = .dcIn := rfl

/-! ### Nodes of the state -/

@[simp] theorem node_node1 (s : State) : s.node .node1 = s.node1 := rfl

@[simp] theorem node_node2 (s : State) : s.node .node2 = s.node2 := rfl

@[simp] theorem node_setNode_self (s : State) (x : Role) (n : Node) : (s.setNode x n).node x = n := by
  cases x <;> rfl

@[simp] theorem node_setNode_peer (s : State) (x : Role) (n : Node) :
    (s.setNode x n).node (peerOf x) = s.node (peerOf x) := by
  cases x <;> rfl

@[simp] theorem node_setNode_peerOf (s : State) (x : Role) (n : Node) : (s.setNode (peerOf x) n).node x = s.node x := by
  cases x <;> rfl

@[simp] theorem setNode_active (s : State) (x : Role) (n : Node) : (s.setNode x n).active = s.active := by
  cases x <;> rfl

@[simp] theorem setNode_schedule (s : State) (x : Role) (n : Node) : (s.setNode x n).schedule = s.schedule := by
  cases x <;> rfl

@[simp] theorem node_withActive (s : State) (a x : Role) : ({ s with active := a } : State).node x = s.node x := by
  cases x <;> rfl

@[simp] theorem node_withSchedule (s : State) (q : List Action) (x : Role) :
    ({ s with schedule := q } : State).node x = s.node x := by
  cases x <;> rfl

@[simp] theorem setNode_params (s : State) (x : Role) (n : Node) : (s.setNode x n).params = s.params := by
  cases x <;> rfl

@[simp] theorem resetWith_params (P : Params) : (State.resetWith P).params = P := rfl

@[simp] theorem node_resetWith (P : Params) (x : Role) : (State.resetWith P).node x = Node.reset := by cases x <;> rfl

@[simp] theorem node_reset (x : Role) : State.reset.node x = Node.reset := by cases x <;> rfl

@[simp] theorem reset_params : State.reset.params = Config.hardware := rfl

/-- A state is its parameters, its two nodes, its active node and its schedule. -/
theorem state_ext (s t : State) (hp : s.params = t.params) (h : ∀ x, s.node x = t.node x) (ha : s.active = t.active)
    (hs : s.schedule = t.schedule) : s = t := by
  have h1 := h .node1
  have h2 := h .node2
  cases s
  cases t
  simp_all

/-! ### The end of an operation -/

@[simp] theorem commit_active (s : State) (n : Node) (ws : List LineWrite) : (s.commit n ws).active = s.active := by
  simp [State.commit]

@[simp] theorem commit_params (s : State) (n : Node) (ws : List LineWrite) : (s.commit n ws).params = s.params := by
  simp [State.commit]

@[simp] theorem commit_schedule (s : State) (n : Node) (ws : List LineWrite) : (s.commit n ws).schedule = s.schedule := by
  simp [State.commit]

@[simp] theorem commit_node_active (s : State) (n : Node) (ws : List LineWrite) : (s.commit n ws).node s.active = n := by
  simp [State.commit]

@[simp] theorem commit_node_peer (s : State) (n : Node) (ws : List LineWrite) :
    (s.commit n ws).node (peerOf s.active) = (s.node (peerOf s.active)).observeAll s.params ws := by
  simp [State.commit]

@[simp] theorem observeEach_nil (P : Params) (n : Node) : n.observeEach P [] = n := rfl

@[simp] theorem observeEach_cons (P : Params) (n : Node) (w : LineWrite) (ws : List LineWrite) :
    n.observeEach P (w :: ws) = (n.observe P (seenAs w.line) w.level).observeEach P ws := rfl

@[simp] theorem arrivalOrder_nil (P : Params) : arrivalOrder P [] = [] := by simp [arrivalOrder]

@[simp] theorem arrivalOrder_one (P : Params) (w : LineWrite) : arrivalOrder P [w] = [w] := by
  obtain ⟨l, v⟩ := w
  cases l <;> simp [arrivalOrder]

@[simp] theorem observeAll_nil (P : Params) (n : Node) : n.observeAll P [] = n := by simp [Node.observeAll]

@[simp] theorem observeAll_one (P : Params) (n : Node) (w : LineWrite) :
    n.observeAll P [w] = n.observe P (seenAs w.line) w.level := by
  simp [Node.observeAll]

/-- The data line written before the request line: either order of 60_exceptions.md R229 (3) is this one (T2, T3, T9). -/
@[simp] theorem observeAll_dc_req (P : Params) (n : Node) (u v : Level) :
    n.observeAll P [⟨.dcOut, u⟩, ⟨.reqOut, v⟩] = (n.observe P .dcIn u).observe P .reqIn v := by
  simp [Node.observeAll, arrivalOrder, seenAs]

/-- The request line written before the data line: the two orders of R229 (3) differ (T6, `INIT`). -/
@[simp] theorem observeAll_req_dc (P : Params) (n : Node) (u v : Level) :
    n.observeAll P [⟨.reqOut, u⟩, ⟨.dcOut, v⟩] =
      if P.tellsOrder then (n.observe P .reqIn u).observe P .dcIn v else (n.observe P .dcIn v).observe P .reqIn u := by
  cases h : P.tellsOrder <;> simp [Node.observeAll, arrivalOrder, seenAs, h]

/-! ### An operation under way -/

@[simp] theorem start_engine (e : Engine) : (Work.start e).engine = e := rfl

@[simp] theorem start_writes (e : Engine) : (Work.start e).writes = [] := rfl

@[simp] theorem setLs_ls (x : LinkState) (k : Work) : (k.setLs x).engine.ls = x := rfl

@[simp] theorem setLs_dir (x : LinkState) (k : Work) : (k.setLs x).engine.dir = k.engine.dir := rfl

@[simp] theorem setLs_outReq (x : LinkState) (k : Work) : (k.setLs x).engine.outReq = k.engine.outReq := rfl

@[simp] theorem setLs_outDc (x : LinkState) (k : Work) : (k.setLs x).engine.outDc = k.engine.outDc := rfl

@[simp] theorem setLs_tx (x : LinkState) (k : Work) : (k.setLs x).engine.tx = k.engine.tx := rfl

@[simp] theorem setLs_rx (x : LinkState) (k : Work) : (k.setLs x).engine.rx = k.engine.rx := rfl

@[simp] theorem setLs_txIdx (x : LinkState) (k : Work) : (k.setLs x).engine.txIdx = k.engine.txIdx := rfl

@[simp] theorem setLs_txByte (x : LinkState) (k : Work) : (k.setLs x).engine.txByte = k.engine.txByte := rfl

@[simp] theorem setLs_rxIdx (x : LinkState) (k : Work) : (k.setLs x).engine.rxIdx = k.engine.rxIdx := rfl

@[simp] theorem setLs_rxByte (x : LinkState) (k : Work) : (k.setLs x).engine.rxByte = k.engine.rxByte := rfl

@[simp] theorem setLs_writes (x : LinkState) (k : Work) : (k.setLs x).writes = k.writes := rfl

@[simp] theorem setDir_ls (d : Direction) (k : Work) : (k.setDir d).engine.ls = k.engine.ls := rfl

@[simp] theorem setDir_dir (d : Direction) (k : Work) : (k.setDir d).engine.dir = d := rfl

@[simp] theorem setDir_outReq (d : Direction) (k : Work) : (k.setDir d).engine.outReq = k.engine.outReq := rfl

@[simp] theorem setDir_outDc (d : Direction) (k : Work) : (k.setDir d).engine.outDc = k.engine.outDc := rfl

@[simp] theorem setDir_tx (d : Direction) (k : Work) : (k.setDir d).engine.tx = k.engine.tx := rfl

@[simp] theorem setDir_rx (d : Direction) (k : Work) : (k.setDir d).engine.rx = k.engine.rx := rfl

@[simp] theorem setDir_txIdx (d : Direction) (k : Work) : (k.setDir d).engine.txIdx = k.engine.txIdx := rfl

@[simp] theorem setDir_txByte (d : Direction) (k : Work) : (k.setDir d).engine.txByte = k.engine.txByte := rfl

@[simp] theorem setDir_rxIdx (d : Direction) (k : Work) : (k.setDir d).engine.rxIdx = k.engine.rxIdx := rfl

@[simp] theorem setDir_rxByte (d : Direction) (k : Work) : (k.setDir d).engine.rxByte = k.engine.rxByte := rfl

@[simp] theorem setDir_writes (d : Direction) (k : Work) : (k.setDir d).writes = k.writes := rfl

@[simp] theorem lineWrite_ls (l : OutLine) (v : Level) (k : Work) :
    (k.lineWrite l v).engine.ls = k.engine.ls := by
  cases l <;> rfl

@[simp] theorem lineWrite_dir (l : OutLine) (v : Level) (k : Work) :
    (k.lineWrite l v).engine.dir = k.engine.dir := by
  cases l <;> rfl

@[simp] theorem lineWrite_req_outReq (v : Level) (k : Work) : (k.lineWrite .reqOut v).engine.outReq = v := rfl

@[simp] theorem lineWrite_dc_outReq (v : Level) (k : Work) :
    (k.lineWrite .dcOut v).engine.outReq = k.engine.outReq := rfl

@[simp] theorem lineWrite_dc_outDc (v : Level) (k : Work) : (k.lineWrite .dcOut v).engine.outDc = v := rfl

@[simp] theorem lineWrite_req_outDc (v : Level) (k : Work) :
    (k.lineWrite .reqOut v).engine.outDc = k.engine.outDc := rfl

@[simp] theorem lineWrite_tx (l : OutLine) (v : Level) (k : Work) :
    (k.lineWrite l v).engine.tx = k.engine.tx := by
  cases l <;> rfl

@[simp] theorem lineWrite_rx (l : OutLine) (v : Level) (k : Work) :
    (k.lineWrite l v).engine.rx = k.engine.rx := by
  cases l <;> rfl

@[simp] theorem lineWrite_txIdx (l : OutLine) (v : Level) (k : Work) :
    (k.lineWrite l v).engine.txIdx = k.engine.txIdx := by
  cases l <;> rfl

@[simp] theorem lineWrite_txByte (l : OutLine) (v : Level) (k : Work) :
    (k.lineWrite l v).engine.txByte = k.engine.txByte := by
  cases l <;> rfl

@[simp] theorem lineWrite_rxIdx (l : OutLine) (v : Level) (k : Work) :
    (k.lineWrite l v).engine.rxIdx = k.engine.rxIdx := by
  cases l <;> rfl

@[simp] theorem lineWrite_rxByte (l : OutLine) (v : Level) (k : Work) :
    (k.lineWrite l v).engine.rxByte = k.engine.rxByte := by
  cases l <;> rfl

@[simp] theorem lineWrite_writes (l : OutLine) (v : Level) (k : Work) :
    (k.lineWrite l v).writes = k.writes ++ [⟨l, v⟩] := rfl

@[simp] theorem lineWrite_txPending (l : OutLine) (v : Level) (k : Work) :
    (k.lineWrite l v).engine.txPending = k.engine.txPending := by
  cases l <;> rfl

/-! ### The parameters -/

@[simp] theorem hardware_capacity : Config.hardware.capacity = 50 := rfl

@[simp] theorem hardware_bitLevel : Config.hardware.bitLevel = .high := rfl

@[simp] theorem hardware_rxClearOnDrop : Config.hardware.rxClearOnDrop = true := rfl

@[simp] theorem hardware_sentinel : Config.hardware.sentinel = 0x3F := rfl

@[simp] theorem hardware_pendDepth : Config.hardware.pendDepth = none := rfl

theorem hardware_legal : Config.hardware.legal = true := by decide

@[simp] theorem fits_of_unbounded (P : Params) (k : Nat) (h : P.pendDepth = none) : P.fits k = true := by
  simp [Params.fits, h]

/-- A shorter queue fits as well. -/
theorem fits_mono (P : Params) (j k : Nat) (hjk : j ≤ k) (h : P.fits k = true) : P.fits j = true := by
  unfold Params.fits at h ⊢
  split at h
  · rfl
  · simp only [decide_eq_true_eq] at h ⊢
    omega

/-- What a legal choice of parameters gives. -/
theorem legal_iff (P : Params) :
    P.legal = true ↔ 1 ≤ P.capacity ∧ P.capacity ≤ P.sentinel ∧ P.fits 3 = true := by
  simp [Params.legal, and_assoc]

/-! ### The edge detector -/

@[simp] theorem setSeen_engine (n : Node) (l : InLine) (v : Level) : (n.setSeen l v).engine = n.engine := by
  cases l <;> rfl

@[simp] theorem setSeen_initialised (n : Node) (l : InLine) (v : Level) : (n.setSeen l v).initialised = n.initialised := by
  cases l <;> rfl

@[simp] theorem setSeen_pend (n : Node) (l : InLine) (v : Level) : (n.setSeen l v).pend = n.pend := by
  cases l <;> rfl

@[simp] theorem setSeen_rsp (n : Node) (l : InLine) (v : Level) : (n.setSeen l v).rsp = n.rsp := by
  cases l <;> rfl

@[simp] theorem setSeen_emptyReads (n : Node) (l : InLine) (v : Level) : (n.setSeen l v).emptyReads = n.emptyReads := by
  cases l <;> rfl

@[simp] theorem setSeen_seen_self (n : Node) (l : InLine) (v : Level) : (n.setSeen l v).seen l = v := by
  cases l <;> rfl

/-- Seeing one line leaves what was seen of the other. -/
theorem setSeen_seen_other (n : Node) (l m : InLine) (v : Level) (h : m ≠ l) : (n.setSeen l v).seen m = n.seen m := by
  cases l <;> cases m <;> first | rfl | exact absurd rfl h

@[simp] theorem observe_engine (P : Params) (n : Node) (l : InLine) (v : Level) : (n.observe P l v).engine = n.engine := by
  unfold Node.observe
  split
  · rfl
  · split <;> simp

@[simp] theorem observeEach_engine (P : Params) (n : Node) (ws : List LineWrite) : (n.observeEach P ws).engine = n.engine := by
  induction ws generalizing n with
  | nil => rfl
  | cons w ws ih => simp [ih]

@[simp] theorem observeAll_engine (P : Params) (n : Node) (ws : List LineWrite) : (n.observeAll P ws).engine = n.engine :=
  observeEach_engine _ _ _

@[simp] theorem observe_initialised (P : Params) (n : Node) (l : InLine) (v : Level) : (n.observe P l v).initialised = n.initialised := by
  unfold Node.observe
  split
  · rfl
  · split <;> simp

@[simp] theorem observeEach_initialised (P : Params) (n : Node) (ws : List LineWrite) : (n.observeEach P ws).initialised = n.initialised := by
  induction ws generalizing n with
  | nil => rfl
  | cons w ws ih => simp [ih]

@[simp] theorem observeAll_initialised (P : Params) (n : Node) (ws : List LineWrite) : (n.observeAll P ws).initialised = n.initialised :=
  observeEach_initialised _ _ _

@[simp] theorem observe_rsp (P : Params) (n : Node) (l : InLine) (v : Level) : (n.observe P l v).rsp = n.rsp := by
  unfold Node.observe
  split
  · rfl
  · split <;> simp

@[simp] theorem observeEach_rsp (P : Params) (n : Node) (ws : List LineWrite) : (n.observeEach P ws).rsp = n.rsp := by
  induction ws generalizing n with
  | nil => rfl
  | cons w ws ih => simp [ih]

@[simp] theorem observeAll_rsp (P : Params) (n : Node) (ws : List LineWrite) : (n.observeAll P ws).rsp = n.rsp :=
  observeEach_rsp _ _ _

@[simp] theorem observe_emptyReads (P : Params) (n : Node) (l : InLine) (v : Level) : (n.observe P l v).emptyReads = n.emptyReads := by
  unfold Node.observe
  split
  · rfl
  · split <;> simp

@[simp] theorem observeEach_emptyReads (P : Params) (n : Node) (ws : List LineWrite) : (n.observeEach P ws).emptyReads = n.emptyReads := by
  induction ws generalizing n with
  | nil => rfl
  | cons w ws ih => simp [ih]

@[simp] theorem observeAll_emptyReads (P : Params) (n : Node) (ws : List LineWrite) : (n.observeAll P ws).emptyReads = n.emptyReads :=
  observeEach_emptyReads _ _ _

end Sys2Proof.Machine
end

