-- ==== Sys2Proof/Laws/Memory.lean ====
section
/-! SUPPORT. The laws of a buffer array: a read after a write, and the canonical form kept by every write. -/

namespace Sys2Proof.Machine

@[simp] theorem written_nil (i : Nat) : Memory.written [] i = none := rfl

/-- A slot reads what was last written to it, and a write leaves every other slot alone. -/
theorem written_write (m : Memory) (i j : Nat) (v : Byte) :
    Memory.written (Memory.write m i v) j = if j = i then some v else Memory.written m j := by
  induction m with
  | nil => simp [Memory.write, Memory.written, eq_comm]
  | cons c rest ih =>
    obtain ⟨a, u⟩ := c
    simp only [Memory.write]
    split
    · simp only [Memory.written, eq_comm]
    · split
      · rename_i hia
        subst hia
        by_cases h : j = i
        · simp [Memory.written, h]
        · have h' : ¬ i = j := fun e => h e.symm
          simp [Memory.written, h, h']
      · simp only [Memory.written, ih]
        by_cases ha : a = j
        · have hj : ¬ j = i := by
            intro e
            omega
          simp [ha, hj]
        · simp [ha]

@[simp] theorem read_write_self (f : Nat → Byte) (m : Memory) (i : Nat) (v : Byte) :
    Memory.read f (Memory.write m i v) i = v := by
  simp [Memory.read, written_write]

/-- A write leaves what every other slot reads as. -/
theorem read_write_other (f : Nat → Byte) (m : Memory) (i j : Nat) (v : Byte) (h : j ≠ i) :
    Memory.read f (Memory.write m i v) j = Memory.read f m j := by
  simp [Memory.read, written_write, h]

/-- A lower bound of a canonical array may be lowered. -/
theorem risesFrom_mono {lo lo' : Nat} {m : Memory} (h : lo' ≤ lo) (hm : Memory.risesFrom lo m = true) :
    Memory.risesFrom lo' m = true := by
  cases m with
  | nil => rfl
  | cons c rest =>
    obtain ⟨a, u⟩ := c
    simp only [Memory.risesFrom, Bool.and_eq_true, decide_eq_true_eq] at hm ⊢
    exact ⟨by omega, hm.2⟩

/-- A write keeps the indices strictly rising. -/
theorem risesFrom_write (m : Memory) (lo i : Nat) (v : Byte) (hi : lo ≤ i) (hm : Memory.risesFrom lo m = true) :
    Memory.risesFrom lo (Memory.write m i v) = true := by
  induction m generalizing lo with
  | nil => simp [Memory.write, Memory.risesFrom, hi]
  | cons c rest ih =>
    obtain ⟨a, u⟩ := c
    simp only [Memory.risesFrom, Bool.and_eq_true, decide_eq_true_eq] at hm
    simp only [Memory.write]
    split
    · simp only [Memory.risesFrom, Bool.and_eq_true, decide_eq_true_eq]
      exact ⟨hi, by omega, hm.2⟩
    · split
      · rename_i hia
        subst hia
        simp only [Memory.risesFrom, Bool.and_eq_true, decide_eq_true_eq]
        exact ⟨hi, hm.2⟩
      · simp only [Memory.risesFrom, Bool.and_eq_true, decide_eq_true_eq]
        exact ⟨hm.1, ih (a + 1) (by omega) hm.2⟩

/-- A write below the capacity keeps every index below it. -/
theorem all_lt_write (m : Memory) (n i : Nat) (v : Byte) (hi : i < n) (hm : m.all (fun c => decide (c.1 < n)) = true) :
    (Memory.write m i v).all (fun c => decide (c.1 < n)) = true := by
  induction m with
  | nil => simp [Memory.write, hi]
  | cons c rest ih =>
    obtain ⟨a, u⟩ := c
    simp only [List.all_cons, Bool.and_eq_true, decide_eq_true_eq] at hm
    simp only [Memory.write]
    split
    · simp only [List.all_cons, Bool.and_eq_true, decide_eq_true_eq]
      exact ⟨hi, hm.1, hm.2⟩
    · split
      · simp only [List.all_cons, Bool.and_eq_true, decide_eq_true_eq]
        exact ⟨hi, hm.2⟩
      · simp only [List.all_cons, Bool.and_eq_true, decide_eq_true_eq]
        exact ⟨hm.1, ih hm.2⟩

@[simp] theorem wf_nil (n : Nat) : Memory.wf n [] = true := rfl

/-- Every write of a slot of the array keeps the canonical form. -/
theorem wf_write (m : Memory) (n i : Nat) (v : Byte) (hi : i < n) (hm : Memory.wf n m = true) :
    Memory.wf n (Memory.write m i v) = true := by
  simp only [Memory.wf, Bool.and_eq_true] at hm ⊢
  exact ⟨risesFrom_write m 0 i v (Nat.zero_le i) hm.1, all_lt_write m n i v hi hm.2⟩

/-- Both arrays of both nodes have the canonical form at reset, at any capacity. -/
theorem wf_reset (P : Params) (x : Role) :
    Memory.wf P.capacity ((State.resetWith P).node x).engine.tx.mem = true ∧
      Memory.wf P.capacity ((State.resetWith P).node x).engine.rx.mem = true := by
  cases x <;> exact ⟨rfl, rfl⟩

end Sys2Proof.Machine
end

