-- ==== Sys2Proof/Laws/Buffer.lean ====
section
/-! SUPPORT. What `ENQUEUE` and `DEQUEUE` can do (40_circular_buffer.md R120 to R123), for every capacity `n`. -/

namespace Sys2Proof.Machine

/-- The successor of an index below the capacity: the next index, or 0 at the end (R120). -/
theorem nextIndex_of_lt (n i : Nat) (h : i < n) : nextIndex n i = if i + 1 < n then i + 1 else 0 := by
  unfold nextIndex
  split
  · rename_i h'
    exact Nat.mod_eq_of_lt h'
  · have e : i + 1 = n := by omega
    rw [e, Nat.mod_self]

/-- The successor lies below the capacity. -/
theorem nextIndex_lt (n i : Nat) (h : 0 < n) : nextIndex n i < n := Nat.mod_lt _ h

theorem isFull_iff (b : Buffer) : b.isFull = true ↔ b.rd = some b.wr := by
  simp [Buffer.isFull]

theorem isEmpty_iff (b : Buffer) : b.isEmpty = true ↔ b.rd = none := by
  simp [Buffer.isEmpty]

theorem isNonempty_iff (b : Buffer) : b.isNonempty = true ↔ b.rd ≠ none := by
  simp [Buffer.isNonempty, Option.isSome_iff_ne_none]

/-- Both indices of a buffer are below its capacity. -/
theorem inRange_iff (n : Nat) (b : Buffer) : b.inRange n = true ↔ b.wr < n ∧ ∀ r, b.rd = some r → r < n := by
  cases h : b.rd <;> simp [Buffer.inRange, h]

/-- A full buffer refuses a byte and is unchanged. -/
theorem enqueue_full (n : Nat) (b : Buffer) (v : Byte) (h : b.isFull = true) :
    b.enqueue n v = { buf := b, ok := false, wasEmpty := false } := by
  simp [Buffer.enqueue, h]

/-- A buffer that is not full stores the byte in the slot of its write index. -/
theorem enqueue_notFull (n : Nat) (b : Buffer) (v : Byte) (h : b.isFull = false) :
    b.enqueue n v =
      { buf := { mem := b.mem.write b.wr v, wr := nextIndex n b.wr, rd := if b.isEmpty then some b.wr else b.rd }
        ok := true
        wasEmpty := b.isEmpty } := by
  simp [Buffer.enqueue, h]

@[simp] theorem enqueue_ok (n : Nat) (b : Buffer) (v : Byte) : (b.enqueue n v).ok = !b.isFull := by
  cases h : b.isFull
  · simp [enqueue_notFull, h]
  · simp [enqueue_full, h]

/-- A failed `DEQUEUE` changes nothing. -/
theorem dequeue_empty (n : Nat) (f : Nat → Byte) (b : Buffer) (h : b.rd = none) :
    b.dequeue n f = { buf := b, value := none } := by
  simp [Buffer.dequeue, h]

/-- A successful `DEQUEUE` answers the oldest byte and advances the read index. -/
theorem dequeue_some (n : Nat) (f : Nat → Byte) (b : Buffer) (r : Nat) (h : b.rd = some r) :
    b.dequeue n f =
      { buf := { b with rd := if nextIndex n r = b.wr then none else some (nextIndex n r) }
        value := some (b.mem.read f r) } := by
  simp [Buffer.dequeue, h]

@[simp] theorem dequeue_mem (n : Nat) (f : Nat → Byte) (b : Buffer) : (b.dequeue n f).buf.mem = b.mem := by
  cases h : b.rd with
  | none => rw [dequeue_empty n f b h]
  | some r => rw [dequeue_some n f b r h]

@[simp] theorem dequeue_wr (n : Nat) (f : Nat → Byte) (b : Buffer) : (b.dequeue n f).buf.wr = b.wr := by
  cases h : b.rd with
  | none => rw [dequeue_empty n f b h]
  | some r => rw [dequeue_some n f b r h]

/-- `ENQUEUE` keeps both indices below the capacity. -/
theorem enqueue_inRange (n : Nat) (b : Buffer) (v : Byte) (h : b.inRange n = true) : (b.enqueue n v).buf.inRange n = true := by
  rw [inRange_iff] at h ⊢
  cases hf : b.isFull
  · rw [enqueue_notFull n b v hf]
    refine ⟨nextIndex_lt n b.wr (by omega), fun r hr => ?_⟩
    simp only at hr
    split at hr
    · simp only [Option.some.injEq] at hr
      omega
    · exact h.2 r hr
  · rw [enqueue_full n b v hf]
    exact h

/-- `DEQUEUE` keeps both indices below the capacity. -/
theorem dequeue_inRange (n : Nat) (f : Nat → Byte) (b : Buffer) (h : b.inRange n = true) :
    (b.dequeue n f).buf.inRange n = true := by
  rw [inRange_iff] at h ⊢
  cases hr : b.rd with
  | none =>
    rw [dequeue_empty n f b hr]
    exact h
  | some r =>
    rw [dequeue_some n f b r hr]
    refine ⟨h.1, fun q hq => ?_⟩
    simp only at hq
    split at hq
    · cases hq
    · cases hq
      exact nextIndex_lt n r (by omega)

/-- `ENQUEUE` keeps the canonical form of the array. -/
theorem enqueue_wf (n : Nat) (b : Buffer) (v : Byte) (hb : b.inRange n = true) (h : b.mem.wf n = true) :
    (b.enqueue n v).buf.mem.wf n = true := by
  cases hf : b.isFull
  · rw [enqueue_notFull n b v hf]
    exact wf_write b.mem n b.wr v ((inRange_iff n b).1 hb).1 h
  · rw [enqueue_full n b v hf]
    exact h

/-- `DEQUEUE` keeps the canonical form of the array. -/
theorem dequeue_wf (n : Nat) (f : Nat → Byte) (b : Buffer) (h : b.mem.wf n = true) : (b.dequeue n f).buf.mem.wf n = true := by
  simpa using h

@[simp] theorem count_empty (n : Nat) (b : Buffer) (h : b.rd = none) : b.count n = 0 := by
  simp [Buffer.count, h]

/-- A non-empty buffer holds at least one byte. -/
theorem count_pos (n : Nat) (b : Buffer) (r : Nat) (hb : b.inRange n = true) (h : b.rd = some r) : 0 < b.count n := by
  rw [inRange_iff] at hb
  have hr := hb.2 r h
  have hw := hb.1
  simp only [Buffer.count, h]
  split
  · omega
  · rename_i hne
    rcases Nat.lt_or_ge b.wr r with hlt | hge
    · rw [Nat.mod_eq_of_lt (by omega)]
      omega
    · have e : b.wr + (n - r) = (b.wr - r) + n := by omega
      rw [e, Nat.add_mod_right, Nat.mod_eq_of_lt (by omega)]
      omega

/-- A buffer holds at most `N` bytes. -/
theorem count_le (n : Nat) (b : Buffer) (hb : b.inRange n = true) : b.count n ≤ n := by
  have hw := ((inRange_iff n b).1 hb).1
  unfold Buffer.count
  split
  · exact Nat.zero_le n
  · split
    · exact Nat.le_refl n
    · exact Nat.le_of_lt (Nat.mod_lt _ (by omega))

end Sys2Proof.Machine
end

