-- ==== Sys2Proof/Laws/Framer.lean ====
section
/-! SUPPORT. What the two framer operations can do (41_framer.md R141 to R144). -/

namespace Sys2Proof.Machine

/-- Everything `NEXT_BIT_TO_SEND` can do: the empty pull, a new byte, or the next bit of the present byte. -/
theorem nextBitToSend_cases (P : Params) (r : Role) (e : Engine) :
    (e.txIdx = 7 ∧ e.tx.rd = none ∧ e.nextBitToSend P r = (e, false)) ∨
    (∃ i, e.txIdx = 7 ∧ e.tx.rd = some i ∧
      e.nextBitToSend P r =
        ({ e with
            tx := { e.tx with rd := if nextIndex P.capacity i = e.tx.wr then none else some (nextIndex P.capacity i) }
            txByte := e.tx.mem.read (Config.txStorageAtReset r) i
            txIdx := 0 },
          (e.tx.mem.read (Config.txStorageAtReset r) i).getLsbD 0)) ∨
    (e.txIdx ≠ 7 ∧
      e.nextBitToSend P r = ({ e with txIdx := e.txIdx + 1 }, e.txByte.getLsbD (e.txIdx + 1).val)) := by
  by_cases h7 : e.txIdx = 7
  · cases hr : e.tx.rd with
    | none => exact .inl ⟨h7, rfl, by simp [Engine.nextBitToSend, h7, dequeue_empty _ _ _ hr]⟩
    | some i => exact .inr (.inl ⟨i, h7, rfl, by simp [Engine.nextBitToSend, h7, dequeue_some _ _ _ i hr]⟩)
  · exact .inr (.inr ⟨h7, by simp [Engine.nextBitToSend, h7]⟩)

/-- Everything `NEW_BIT_RECEIVED` can do: a bit inside a byte, a byte pushed, a byte dropped. -/
theorem newBitReceived_cases (P : Params) (bit : Bool) (e : Engine) :
    (e.rxIdx ≠ 6 ∧
      e.newBitReceived P bit =
        { e with rxIdx := e.rxIdx + 1, rxByte := insertBit e.rxByte bit (e.rxIdx + 1) }) ∨
    (e.rxIdx = 6 ∧ e.rx.isFull = false ∧
      e.newBitReceived P bit =
        { e with
          rxIdx := 7
          rx := (e.rx.enqueue P.capacity (insertBit e.rxByte bit 7)).buf
          rxByte := 0x00#8 }) ∨
    (e.rxIdx = 6 ∧ e.rx.isFull = true ∧
      e.newBitReceived P bit =
        { e with rxIdx := 7, rxByte := if P.rxClearOnDrop then 0x00#8 else insertBit e.rxByte bit 7 }) := by
  have key : e.rxIdx + 1 = 7 ↔ e.rxIdx = 6 := by
    generalize e.rxIdx = i
    revert i
    decide
  by_cases h6 : e.rxIdx = 6
  · cases hf : e.rx.isFull
    · exact .inr (.inl ⟨h6, rfl, by simp [Engine.newBitReceived, h6, hf]⟩)
    · exact .inr (.inr ⟨h6, rfl, by simp [Engine.newBitReceived, h6, enqueue_full _ _ _ hf]⟩)
  · exact .inl ⟨h6, by simp [Engine.newBitReceived, key, h6]⟩

/-- The bits of a byte after one bit is inserted. -/
theorem insertBit_getLsbD (v : Byte) (bit : Bool) (i : Fin 8) (j : Nat) :
    (insertBit v bit i).getLsbD j = (v.getLsbD j || (decide (j = i.val) && bit)) := by
  have hi := i.isLt
  simp only [insertBit, BitVec.getLsbD_or, BitVec.getLsbD_shiftLeft, BitVec.getLsbD_setWidth, BitVec.getLsbD_ofBool]
  by_cases hj : j = i.val
  · subst hj
    simp [hi]
  · rcases Nat.lt_or_ge j i.val with h | h
    · simp [hj, h]
    · have h0 : j - i.val ≠ 0 := by omega
      simp [hj, h0]

end Sys2Proof.Machine
end

