-- ==== Sys2Proof/Laws/LinkStateMachine.lean ====
section
/-! SUPPORT. What initiation, completion and `HANDLE_EDGE` can do (42_link_state_machine.md R163, R164, R175). -/

namespace Sys2Proof.Machine

/-- With no direction active, `INITIATE_SEND` requests, at either role. -/
theorem initiateSend_noDirection (r : Role) (k : Work) (h : k.engine.dir = .noDirection) :
    initiateSend r k = ((k.lineWrite .reqOut .low).setDir (myDir r)).setLs .requestSent := by
  simp [initiateSend, h]

/-- Everything `COMPLETE` can do: stop in `Idle`, or request again at once. -/
theorem complete_cases (r : Role) (k : Work) :
    (k.engine.txPending = false ∧ complete r k = (k.setLs .idle).setDir .noDirection) ∨
    (k.engine.txPending = true ∧
      complete r k = ((k.lineWrite .reqOut .low).setDir (myDir r)).setLs .requestSent) := by
  cases h : k.engine.txPending
  · exact .inl ⟨rfl, by simp [complete, h]⟩
  · refine .inr ⟨rfl, ?_⟩
    simp only [complete, h, if_true]
    rw [initiateSend_noDirection r _ rfl]
    rfl

/-- Everything `HANDLE_EDGE` can do: one of the nine transitions under its condition, or nothing (R164, R176). -/
theorem handleEdge_cases (P : Params) (r : Role) (line : InLine) (pol : Polarity) (dc : Level) (k : Work) :
    (line = .dcIn ∧ pol = .fall ∧ k.engine.dir = myDir r ∧ k.engine.ls = .requestSent ∧
      handleEdge P r line pol dc k = transitionT1 k) ∨
    (line = .dcIn ∧ pol = .rise ∧ k.engine.dir = myDir r ∧ k.engine.ls = .requestConfAckReceived ∧
      handleEdge P r line pol dc k = transitionT2 P r k) ∨
    (line = .dcIn ∧ pol = .fall ∧ k.engine.dir = myDir r ∧ k.engine.ls = .dataTransmission ∧
      handleEdge P r line pol dc k = transitionT3 k) ∨
    (line = .dcIn ∧ pol = .rise ∧ k.engine.dir = myDir r ∧ k.engine.ls = .dataTransConfAckReceived ∧
      handleEdge P r line pol dc k = transitionT4 r k) ∨
    (line = .reqIn ∧ pol = .fall ∧ k.engine.dir = .noDirection ∧ k.engine.ls = .idle ∧
      handleEdge P r line pol dc k = transitionT5 r k) ∨
    (line = .reqIn ∧ pol = .fall ∧ r = .node2 ∧ k.engine.dir = myDir r ∧ k.engine.ls = .requestSent ∧
      handleEdge P r line pol dc k = transitionT6 r k) ∨
    (line = .reqIn ∧ pol = .rise ∧ k.engine.dir = peerDir r ∧ k.engine.ls = .requestConfirmed ∧
      handleEdge P r line pol dc k = transitionT7 k) ∨
    (line = .reqIn ∧ pol = .fall ∧ k.engine.dir = peerDir r ∧ k.engine.ls = .readyForData ∧
      handleEdge P r line pol dc k = transitionT8 P dc k) ∨
    (line = .reqIn ∧ pol = .rise ∧ k.engine.dir = peerDir r ∧ k.engine.ls = .dataTransConfirmed ∧
      handleEdge P r line pol dc k = transitionT9 r k) ∨
    handleEdge P r line pol dc k = k := by
  cases line <;> cases pol <;> simp only [handleEdge]
  all_goals (repeat' split)
  all_goals simp_all

end Sys2Proof.Machine
end

