-- ==== Sys2Proof/Laws/Exec.lean ====
section
/-! SUPPORT. What a node drives, and what the edge detector, one operation, the schedule and one step can do. -/

namespace Sys2Proof.Machine

/-! ### Lines -/

/-- What a node drives (20_memory.md R70): its latch once it is initialised. -/
theorem drives_of_initialised (n : Node) (l : OutLine) (h : n.initialised = true) : n.drives l = n.engine.latch l := by
  simp [Node.drives, h]

/-- What a node drives before its first `INIT` (R70): the idle level. -/
theorem drives_of_uninitialised (n : Node) (l : OutLine) (h : n.initialised = false) : n.drives l = .high := by
  simp [Node.drives, h]

/-! ### The edge detector (20_memory.md R72 to R74) -/

/-- Everything the edge detector can do with a level it samples. -/
theorem observe_cases (P : Params) (n : Node) (l : InLine) (v : Level) :
    (n.seen l = v ∧ n.observe P l v = n) ∨
    (n.seen l ≠ v ∧ n.initialised = true ∧ P.fits (n.pend.length + 1) = true ∧
      n.observe P l v = { n.setSeen l v with pend := n.pend ++ [⟨l, polarityTo v⟩] }) ∨
    (n.seen l ≠ v ∧ (n.initialised = false ∨ P.fits (n.pend.length + 1) = false) ∧ n.observe P l v = n.setSeen l v) := by
  by_cases hs : n.seen l = v
  · exact .inl ⟨hs, by simp [Node.observe, hs]⟩
  · cases hi : n.initialised
    · exact .inr (.inr ⟨hs, .inl rfl, by simp [Node.observe, hs, hi]⟩)
    · cases hf : P.fits (n.pend.length + 1)
      · exact .inr (.inr ⟨hs, .inr rfl, by simp [Node.observe, hs, hf]⟩)
      · exact .inr (.inl ⟨hs, rfl, rfl, by simp [Node.observe, hs, hi, hf]⟩)

/-- The edge detector keeps the queue within its depth. -/
theorem observe_fits (P : Params) (n : Node) (l : InLine) (v : Level) (h : P.fits n.pend.length = true) :
    P.fits (n.observe P l v).pend.length = true := by
  rcases observe_cases P n l v with ⟨_, e⟩ | ⟨_, _, hf, e⟩ | ⟨_, _, e⟩
  · rw [e]
    exact h
  · rw [e]
    simpa using hf
  · rw [e]
    simpa using h

/-- After a sample the detector has seen the sampled level. -/
@[simp] theorem observe_seen_self (P : Params) (n : Node) (l : InLine) (v : Level) : (n.observe P l v).seen l = v := by
  rcases observe_cases P n l v with ⟨h, e⟩ | ⟨_, _, _, e⟩ | ⟨_, _, e⟩
  · rw [e, h]
  · rw [e]
    cases l <;> rfl
  · rw [e]
    exact setSeen_seen_self n l v

/-- A sample of one line leaves what was seen of the other. -/
theorem observe_seen_other (P : Params) (n : Node) (l m : InLine) (v : Level) (h : m ≠ l) : (n.observe P l v).seen m = n.seen m := by
  rcases observe_cases P n l v with ⟨_, e⟩ | ⟨_, _, _, e⟩ | ⟨_, _, e⟩
  · rw [e]
  · rw [e]
    exact setSeen_seen_other n l m v h
  · rw [e]
    exact setSeen_seen_other n l m v h

/-! ### One operation -/

/-- An operation behind the initialisation check answers a next state exactly at an initialised node. -/
theorem whenInitialised_next (s t u : State) :
    s.whenInitialised t = .next u ↔ (s.node s.active).initialised = true ∧ t = u := by
  cases h : (s.node s.active).initialised <;> simp [State.whenInitialised, h]

@[simp] theorem whenInitialised_of_initialised (s t : State) (h : (s.node s.active).initialised = true) :
    s.whenInitialised t = .next t := by
  simp [State.whenInitialised, h]

/-- Everything an edge operation can answer. -/
theorem handleEdge_next (s t : State) (line : InLine) (pol : Polarity) (operand : Byte) :
    s.handleEdge line pol operand = .next t ↔
      (s.node s.active).initialised = true ∧
        s.finish (handleEdge s.params s.active line pol (levelOperand operand) (Work.start (s.node s.active).engine))
          edgeResponse = t :=
  whenInitialised_next _ _ _

/-- An operation, if it answers a next state, replaces the active node, shows its line writes to the peer's shim, and touches nothing
else. -/
theorem exec_commits (i : Instr) (s t : State) (h : exec i s = .next t) : ∃ n ws, t = s.commit n ws := by
  cases i <;>
    simp only [exec, execInit, execSendByte, execRecvByte, execAvailable, execEdgeReqFall, execEdgeReqRise, execEdgeDcFall,
      execEdgeDcRise, execReserved47, execReservedCF, State.noOperation, State.handleEdge, whenInitialised_next,
      Host.Outcome.next.injEq] at h
  case init => exact ⟨_, _, h.symm⟩
  case recvByte => exact ⟨_, _, h.2.symm⟩
  all_goals exact ⟨_, _, h.2.symm⟩

/-! ### The schedule -/

/-- Everything the event entry can do (60_exceptions.md R230). -/
theorem takeEvent_cases (s : State) (y : Role) :
    (∃ e rest, (s.node y).initialised = true ∧ (s.node y).pend = e :: rest ∧
      s.takeEvent y =
        (some (edgeWord e (s.lineRead y .dcIn)),
          { s.setNode y { s.node y with pend := rest } with active := y })) ∨
    (((s.node y).initialised = false ∨ (s.node y).pend = []) ∧ s.takeEvent y = (none, s)) := by
  cases hi : (s.node y).initialised
  · exact .inr ⟨.inl rfl, by simp [State.takeEvent, hi]⟩
  · cases hp : (s.node y).pend with
    | nil => exact .inr ⟨.inr rfl, by simp [State.takeEvent, hi, hp]⟩
    | cons e rest => exact .inl ⟨e, rest, rfl, rfl, by simp [State.takeEvent, hi, hp]⟩

/-- A step runs the operation the schedule gives. -/
theorem step_of_operation (s u : State) (w : OpWord) (h : s.nextOperation = (some w, u)) : step s = exec (decode w) u := by
  simp [step, h]

/-- A step with no operation only takes the action. -/
theorem step_of_none (s u : State) (h : s.nextOperation = (none, u)) : step s = .next u := by
  simp [step, h]

/-- Everything the schedule gives keeps the parameters. -/
theorem nextOperation_params (s : State) : s.nextOperation.2.params = s.params := by
  have ht : ∀ (s : State) (y : Role), (s.takeEvent y).2.params = s.params := by
    intro s y
    rcases takeEvent_cases s y with ⟨_, _, _, _, e⟩ | ⟨_, e⟩ <;> simp [e]
  unfold State.nextOperation
  split
  · rfl
  · rfl
  · exact ht _ _
  · split
    · exact ht _ _
    · rfl
  all_goals simp [State.changePend]

/-- Everything a step that answers a next state has done. -/
theorem step_cases (s t : State) (h : step s = .next t) :
    s.nextOperation = (none, t) ∨ ∃ w u, s.nextOperation = (some w, u) ∧ exec (decode w) u = .next t := by
  rcases hn : s.nextOperation with ⟨_ | w, u⟩
  · rw [step_of_none s u hn] at h
    cases h
    exact .inl rfl
  · exact .inr ⟨w, u, rfl, by rw [← step_of_operation s u w hn, h]⟩

end Sys2Proof.Machine
end

