-- ==== Sys2Proof/Laws/PerInstr.lean ====
section
/-! SUPPORT. A statement about every instruction as syntax, one lemma per constructor: the row of the opcode map
(30_encoding.md R95) with the instruction's mnemonic covers the word the encoder writes for it. -/

namespace Sys2Proof.Laws.RowCovers

open Sys2Proof

/-- The opcode map has a row with the mnemonic of `i` that covers `encode i`, for a well-formed `i`. -/
def Statement (i : Instr) : Prop :=
  WellFormed i → ∃ row ∈ opcodeMap, row.mnemonic = mnemonic i ∧ row.covers (encode i) = true

/-- The opcode bits of a packed word are the opcode. -/
theorem packWord_and_opcodeMask (op : BitVec 4) (v : Byte) : packWord op v &&& 0xF00#12 = op ++ 0#8 := by
  have hm : (0xF00#12 : OpWord) = 0xF#4 ++ 0x00#8 := by decide
  have hop : op &&& 0xF#4 = op := BitVec.and_allOnes
  unfold packWord
  rw [hm, BitVec.and_append, hop, BitVec.and_zero]

/-- A row whose value is an opcode and whose mask is the opcode field covers every packed word with that opcode. -/
theorem covers_packWord (name : String) (op : BitVec 4) (v : Byte) :
    (OpcodeRow.mk name (op ++ 0#8) 0xF00#12).covers (packWord op v) = true := by
  simp [OpcodeRow.covers, packWord_and_opcodeMask]

theorem init (v : Byte) : Statement (.init v) :=
  fun _ => ⟨⟨"INIT", 0x000#12, 0xF00#12⟩, by decide, rfl, covers_packWord "INIT" 0x0#4 v⟩

theorem sendByte (v : Byte) : Statement (.sendByte v) :=
  fun _ => ⟨⟨"SEND_BYTE", 0x100#12, 0xF00#12⟩, by decide, rfl, covers_packWord "SEND_BYTE" 0x1#4 v⟩

theorem recvByte (v : Byte) : Statement (.recvByte v) :=
  fun _ => ⟨⟨"RECV_BYTE", 0x200#12, 0xF00#12⟩, by decide, rfl, covers_packWord "RECV_BYTE" 0x2#4 v⟩

theorem available (v : Byte) : Statement (.available v) :=
  fun _ => ⟨⟨"AVAILABLE", 0x300#12, 0xF00#12⟩, by decide, rfl, covers_packWord "AVAILABLE" 0x3#4 v⟩

theorem edgeReqFall (v : Byte) : Statement (.edgeReqFall v) :=
  fun _ => ⟨⟨"EDGE_REQ_FALL", 0x800#12, 0xF00#12⟩, by decide, rfl, covers_packWord "EDGE_REQ_FALL" 0x8#4 v⟩

theorem edgeReqRise (v : Byte) : Statement (.edgeReqRise v) :=
  fun _ => ⟨⟨"EDGE_REQ_RISE", 0x900#12, 0xF00#12⟩, by decide, rfl, covers_packWord "EDGE_REQ_RISE" 0x9#4 v⟩

theorem edgeDcFall (v : Byte) : Statement (.edgeDcFall v) :=
  fun _ => ⟨⟨"EDGE_DC_FALL", 0xA00#12, 0xF00#12⟩, by decide, rfl, covers_packWord "EDGE_DC_FALL" 0xA#4 v⟩

theorem edgeDcRise (v : Byte) : Statement (.edgeDcRise v) :=
  fun _ => ⟨⟨"EDGE_DC_RISE", 0xB00#12, 0xF00#12⟩, by decide, rfl, covers_packWord "EDGE_DC_RISE" 0xB#4 v⟩

theorem reserved47 (w : OpWord) : Statement (.reserved47 w) :=
  fun h => ⟨⟨"RESERVED_4_7", 0x400#12, 0xC00#12⟩, by decide, rfl, h⟩

theorem reservedCF (w : OpWord) : Statement (.reservedCF w) :=
  fun h => ⟨⟨"RESERVED_C_F", 0xC00#12, 0xC00#12⟩, by decide, rfl, h⟩

end Sys2Proof.Laws.RowCovers
end

