-- ==== Sys2Proof/Laws/Safety.lean ====
section
/-! SUPPORT. What the invariants do not depend on. -/

namespace Sys2Proof.Machine

/-- The schedule is no part of the invariants. -/
theorem inv_withSchedule (s : State) (q : List Action) (h : Inv s) : Inv { s with schedule := q } where
  params := h.params
  tx_canonical x := by simpa using h.tx_canonical x
  rx_canonical x := by simpa using h.rx_canonical x
  engines x hx := by simpa using h.engines x (by simpa using hx)
  detectors x l := by simpa [State.lineRead, State.wireLevel] using h.detectors x l
  silent x hx := by simpa using h.silent x (by simpa using hx)
  depth x := by simpa using h.depth x

/-- The schedule is no part of the link invariant. -/
theorem linkInv_withSchedule (s : State) (q : List Action) (h : LinkInv s) : LinkInv { s with schedule := q } where
  inv := inv_withSchedule s q h.inv
  initialised x := by simpa using h.initialised x
  phase := h.phase
  indices x := by simpa using h.indices x
  accumulators hc x := by simpa using h.accumulators hc x

end Sys2Proof.Machine
end

