-- ==== Sys2Proof/Laws/Schedule.lean ====
section
/-! SUPPORT. What a shim that breaks its requirements does to a pending queue (70_reset_and_hazards.md R272, R273), in terms of entries of the
list. -/

namespace Sys2Proof.Machine

/-- Losing entry `k` erases it. -/
theorem loseAt_eq_eraseIdx (k : Nat) (q : List EdgeEvent) : loseAt k q = q.eraseIdx k := by
  induction k generalizing q with
  | zero => cases q <;> rfl
  | succ k ih => cases q <;> simp [loseAt, ih]

/-- Overtaking exchanges entries `k` and `k + 1`. -/
theorem overtakeAt_eq_set (k : Nat) (q : List EdgeEvent) (ev next : EdgeEvent) (h : q[k]? = some ev) (h' : q[k + 1]? = some next) :
    overtakeAt k q = (q.set k next).set (k + 1) ev := by
  induction k generalizing q with
  | zero =>
    match q, h, h' with
    | _ :: _ :: _, h, h' =>
      simp only [List.getElem?_cons_zero, List.getElem?_cons_succ, Option.some.injEq] at h h'
      subst h h'
      rfl
  | succ k ih =>
    cases q with
    | nil => simp at h
    | cons x rest =>
      simp only [List.getElem?_cons_succ] at h h'
      simp [overtakeAt, ih rest h h']

/-- The last entry, and one beyond the queue, cannot be overtaken. -/
theorem overtakeAt_of_none (k : Nat) (q : List EdgeEvent) (h : q[k + 1]? = none) : overtakeAt k q = q := by
  induction k generalizing q with
  | zero =>
    match q, h with
    | [], _ => rfl
    | [_], _ => rfl
    | _ :: _ :: _, h => simp at h
  | succ k ih =>
    cases q with
    | nil => rfl
    | cons x rest =>
      simp only [List.getElem?_cons_succ] at h
      simp [overtakeAt, ih rest h]

/-- Misreporting gives entry `k` the other polarity and keeps its line. -/
theorem misreportAt_eq_set (k : Nat) (q : List EdgeEvent) (ev : EdgeEvent) (h : q[k]? = some ev) :
    misreportAt k q = q.set k ⟨ev.line, if ev.pol = .fall then .rise else .fall⟩ := by
  induction k generalizing q with
  | zero =>
    match q, h with
    | ⟨l, p⟩ :: _, h =>
      simp only [List.getElem?_cons_zero, Option.some.injEq] at h
      subst h
      cases p <;> rfl
  | succ k ih =>
    cases q with
    | nil => simp at h
    | cons x rest =>
      simp only [List.getElem?_cons_succ] at h
      simp [misreportAt, ih rest h]

/-- Beyond the queue nothing is misreported. -/
theorem misreportAt_of_none (k : Nat) (q : List EdgeEvent) (h : q[k]? = none) : misreportAt k q = q := by
  induction k generalizing q with
  | zero =>
    match q, h with
    | [], _ => rfl
    | _ :: _, h => simp at h
  | succ k ih =>
    cases q with
    | nil => rfl
    | cons x rest =>
      simp only [List.getElem?_cons_succ] at h
      simp [misreportAt, ih rest h]

end Sys2Proof.Machine
end

