-- ==== Sys2Proof/Machine/Trace.lean ====
section
/-! DEFINITION. What traces and test vectors are written in, none of it state: the trace text and the pseudo-operations of
30_encoding.md R104 and R105, the port view of R106, and the named conditions of 60_exceptions.md R221 to R226. The step uses
nothing of this file. -/

namespace Sys2Proof.Machine

/-- The name of a node in a trace (R104). -/
def nodeText : Role → String
  | .node1 => "N1"
  | .node2 => "N2"

/-- One line of a trace, without a comment (R104). -/
def traceLine (x : Role) (i : Instr) : Option String := (traceText i).map fun t => nodeText x ++ ": " ++ t

/-- The letter of a wire (R98). -/
def wireText : Wire → String
  | .a => "A"
  | .b => "B"
  | .c => "C"
  | .d => "D"

/-- The abbreviation of a wire change (R104): `Av` for a fall of A, `A^` for a rise. -/
def wireChangeText (w : Wire) : Polarity → String
  | .fall => wireText w ++ "v"
  | .rise => wireText w ++ "^"

/-- An edge event of node `x` named by its wire letter (R104). -/
def wireEdgeText (x : Role) (e : EdgeEvent) : String :=
  nodeText x ++ ": edge " ++ wireText (inWire x e.line) ++ (match e.pol with | .fall => " fall" | .rise => " rise")

/-- The pseudo-operation `send [b0, b1, ...]` at node `x` (R105). -/
def sendAll (x : Role) (bs : List Byte) : List Action := bs.map fun b => .operation x (encode (.sendByte b))

/-- The next delivery of the pseudo-operation `drain` (R105) in the order the traces of 95_test_vectors.md section 5 show, Node 1's
pending event first; none when both queues are empty. -/
def drainNext (s : State) : Option Action :=
  if s.eventReady .node1 then some (.deliver .node1)
  else if s.eventReady .node2 then some (.deliver .node2)
  else none

/-- The next operation of the pseudo-operation `recv*` at node `x` (R105): `recv` as long as the last one answered `ok = 1`. -/
def recvAllNext (s : State) (x : Role) : Option Action :=
  if (s.node x).rsp.ok then some (.operation x (encode (.recvByte 0x00#8))) else none

/-- The output ports of a node (R106). -/
structure Ports where
  opReady : Bool
  rspOk : Bool
  rspData : Byte
  lineReqOut : Level
  lineDcOut : Level
deriving DecidableEq, Repr

/-- The output ports of node `x`: `op_ready` is always 1, the response ports hold the response of the node's last operation, the line
ports are the lines (R106). -/
def State.ports (s : State) (x : Role) : Ports :=
  { opReady := true
    rspOk := (s.node x).rsp.ok
    rspData := (s.node x).rsp.data
    lineReqOut := (s.node x).drives .reqOut
    lineDcOut := (s.node x).drives .dcOut }

/-- The named conditions of R226; they are stored nowhere in the engine. -/
inductive Condition where
  /-- E1, R221. -/
  | bufferFull
  /-- E2, R222. -/
  | bufferEmpty
  /-- E3, R223. -/
  | receiveOverrun
  /-- E4, R224: a condition of the link (`State.stalled` of Safety), raised by no operation. -/
  | protocolStall
  /-- E5, R225. -/
  | emptyPull
deriving DecidableEq, Repr

/-- The identifier of a condition (R226). -/
def Condition.number : Condition → Nat
  | .bufferFull => 1
  | .bufferEmpty => 2
  | .receiveOverrun => 3
  | .protocolStall => 4
  | .emptyPull => 5

/-- The condition that operation `i` meets at a node with role `r` and engine `e` (R221 to R223, R225). -/
def conditionOf (r : Role) (e : Engine) : Instr → Option Condition
  | .init _ => none
  | .sendByte _ => if e.tx.isFull then some .bufferFull else none
  | .recvByte _ => if e.rx.isEmpty then some .bufferEmpty else none
  | .available _ => none
  | .edgeReqFall _ =>
    if e.dir = peerDir r ∧ e.ls = .readyForData ∧ e.rxIdx = 6 ∧ e.rx.isFull then some .receiveOverrun else none
  | .edgeReqRise _ => none
  | .edgeDcFall _ => none
  | .edgeDcRise _ =>
    if e.dir = myDir r ∧ e.ls = .requestConfAckReceived ∧ e.txIdx = 7 ∧ e.tx.isEmpty then some .emptyPull else none
  | .reserved47 _ => none
  | .reservedCF _ => none

end Sys2Proof.Machine
end

