-- ==== Sys2Proof/Tests/Slice0.lean ====
section
/-! SUPPORT. Tests on fixed values, each from the vector of 95_test_vectors.md or the rule its comment names, then for every statement
that has hypotheses a concrete state and operands that meet them together. -/

namespace Sys2Proof.Tests

open Sys2Proof Sys2Proof.Machine

/-! ### Helpers -/

/-- What `f` reads of a next state. -/
def seen {α : Type} (o : Host.Outcome State Fault Refusal) (f : State → α) : Option α :=
  match o with
  | .next t => some (f t)
  | .fault _ => none
  | .refused _ => none

/-- The link after reset with the engines of its nodes changed, node `x` active. -/
def linkWith (x : Role) (f1 f2 : Engine → Engine) : State :=
  { State.reset with
    node1 := { Node.reset with engine := f1 Engine.reset }
    node2 := { Node.reset with engine := f2 Engine.reset }
    active := x }

/-- `linkWith` with Node 1 active and Node 2 as after reset. -/
def node1With (f : Engine → Engine) : State := linkWith .node1 f id

/-- `linkWith` with Node 2 active and Node 1 as after reset. -/
def node2With (f : Engine → Engine) : State := linkWith .node2 id f

/-- A transmit queue that holds one byte. -/
def txOne (v : Byte) : Buffer := { mem := [(0, v)], wr := 1, rd := some 0 }

/-- A full buffer whose slots all hold 0 (its array is written out by fifty writes). -/
def fullBuffer : Buffer :=
  { mem := (List.range 50).map fun i => (i, 0x00#8), wr := 0, rd := some 0 }

/-! ### Well-formedness: each check refuses an ill-formed term -/

/-- R101: opcode 8 is not in the block 4 to 7. -/
theorem test_wellFormed_refuses_reserved47_outside_its_block : wellFormed (.reserved47 0x800#12) = false := by decide

/-- R101: opcode 4 is not in the block 0xC to 0xF. -/
theorem test_wellFormed_refuses_reservedCF_outside_its_block : wellFormed (.reservedCF 0x400#12) = false := by decide

theorem test_wellFormed_accepts_reserved_words :
    wellFormed (.reserved47 0x7FF#12) = true ∧ wellFormed (.reservedCF 0xC00#12) = true := by decide

/-! ### Decoding: words written from the encoding patterns of R95 and section 4.3 -/

/-- Pattern 0000xxxxxxxx. -/
theorem test_decode_init : decode 0b0000_0000_0000#12 = .init 0x00#8 := by decide

/-- Pattern 0001dddddddd. -/
theorem test_decode_sendByte : decode 0b0001_1010_0101#12 = .sendByte 0xA5#8 := by decide

/-- Pattern 0010xxxxxxxx. -/
theorem test_decode_recvByte : decode 0b0010_1010_1011#12 = .recvByte 0xAB#8 := by decide

/-- Pattern 0011xxxxxxxx. -/
theorem test_decode_available : decode 0b0011_1111_1111#12 = .available 0xFF#8 := by decide

/-- Pattern 1000xxxxxxxl. -/
theorem test_decode_edgeReqFall : decode 0b1000_1111_1110#12 = .edgeReqFall 0xFE#8 := by decide

/-- Pattern 1001xxxxxxxl. -/
theorem test_decode_edgeReqRise : decode 0b1001_0000_0001#12 = .edgeReqRise 0x01#8 := by decide

/-- Pattern 1010xxxxxxxl. -/
theorem test_decode_edgeDcFall : decode 0b1010_0000_0000#12 = .edgeDcFall 0x00#8 := by decide

/-- Pattern 1011xxxxxxxl. -/
theorem test_decode_edgeDcRise : decode 0b1011_0000_0001#12 = .edgeDcRise 0x01#8 := by decide

/-- Pattern 01xxxxxxxxxx. -/
theorem test_decode_reserved47 : decode 0b0101_1010_0101#12 = .reserved47 0x5A5#12 := by decide

/-- Pattern 11xxxxxxxxxx. -/
theorem test_decode_reservedCF : decode 0b1111_1111_1111#12 = .reservedCF 0xFFF#12 := by decide

/-- R90: there is no thirteenth bit. -/
theorem test_decode_rejects_a_longer_number :
    decodeNumber 0x1000 = .error .longerThanTwelveBits ∧ decodeTableWord 16 0x1000 = none := by
  exact ⟨rfl, rfl⟩

theorem test_decodeTableWord_send : decodeTableWord 16 0x141 = some (.sendByte 0x41#8) := by decide

/-- R104: ignored operand bits are written as zero, the level in bit 0. -/
theorem test_edgeWord : edgeWord ⟨.reqIn, .fall⟩ .high = 0x801#12 ∧ edgeWord ⟨.dcIn, .rise⟩ .low = 0xB00#12 := by decide

/-- R104. -/
theorem test_traceText_send : traceText (.sendByte 0x41#8) = some "send 0x41" := by decide

/-- R104: the fall of Node 1's `REQ_IN` is a fall of B. -/
theorem test_wireEdgeText : wireEdgeText .node1 ⟨.reqIn, .fall⟩ = "N1: edge B fall" := by decide

/-- R221: condition E1. -/
theorem test_condition_bufferFull :
    conditionOf .node1 { Engine.reset with tx := fullBuffer } (.sendByte 0xAA#8) = some .bufferFull := by decide

/-- R29, R96, R97: stored codes. -/
theorem test_codes :
    LinkState.code .dataTransConfAckReceived = 7#3 ∧ Direction.code .node2ToNode1 = 2#2 ∧
      readIndexCode Config.hardware.sentinel none = 0x3F#6 ∧ readIndexCode Config.hardware.sentinel (some 49) = 0x31#6 := by decide

/-! ### The buffers and the framer -/

/-- V-B7: `ENQUEUE(0x7E)` with `wr = 49` wraps the write index. -/
theorem test_enqueue_wraps :
    ((Buffer.enqueue 50 { mem := [(47, 1#8), (48, 2#8)], wr := 49, rd := some 47 } 0x7E#8).buf.wr = 0) := by decide

/-- V-B8: the last byte leaves; the read index wraps to the write index and becomes `EMPTY`. -/
theorem test_dequeue_last_wraps :
    ((Buffer.dequeue 50 (fun _ => 0#8) { mem := [(49, 7#8)], wr := 0, rd := some 49 }).buf.rd = none) := by decide

/-- V-B14: `count` wraps. -/
theorem test_count_wraps : (Buffer.count 50 { mem := [], wr := 3, rd := some 48 }) = 5 := by decide

/-- V-F4: mid-byte. -/
theorem test_nextBit_mid_byte :
    ((Engine.nextBitToSend Config.hardware .node1 { Engine.reset with txIdx := 3, txByte := 0xA5#8 }).2 = false) := by decide

/-- V-F8: the eighth bit pushes 0xFF. -/
theorem test_newBit_completes :
    ((Engine.newBitReceived Config.hardware true { Engine.reset with rxIdx := 6, rxByte := 0x7F#8 }).rx.mem = [(0, 0xFF#8)]) := by decide

/-- V-F9: on overrun the accumulator is 0xAA with `RX_CLEAR_ON_DROP = false` and 0x00 with `true`. -/
theorem test_newBit_overrun :
    let e : Engine := { Engine.reset with rxIdx := 6, rxByte := 0x2A#8, rx := fullBuffer }
    (e.newBitReceived { Config.hardware with rxClearOnDrop := false } true).rxByte = 0xAA#8 ∧
      (e.newBitReceived Config.hardware true).rxByte = 0x00#8 := by
  decide

/-! ### One step of each operation -/

/-- V-A1: `INIT` at Node 2 in mid-transfer releases D: Node 1 is told of its rise. -/
theorem test_init_releases_the_line :
    seen
      (exec (.init 0x00#8)
        { node2With (fun e => { e with ls := .dataTransConfirmed, dir := .node1ToNode2, outDc := .low, rxIdx := 5, rxByte := 0x2B#8 }) with
          node1 := { Node.reset with seenDc := .low } })
      (fun t => (t.node2.engine.ls, t.node2.engine.rxIdx, t.node1.pend)) = some (.idle, 7, [⟨.dcIn, .rise⟩]) := by decide

/-- V-A2: `N1: send 0x41` after reset. -/
theorem test_send_initiates :
    seen (exec (.sendByte 0x41#8) State.reset)
      (fun t => (t.node1.engine.tx, t.node1.engine.ls, t.node1.engine.outReq, t.node2.pend)) =
      some (txOne 0x41#8, .requestSent, .low, [⟨.reqIn, .fall⟩]) := by decide

/-- V-A6: the last byte is part-sent; the byte is stored, no initiation. -/
theorem test_send_while_busy :
    seen
      (exec (.sendByte 0x77#8)
        (node1With fun e => { e with ls := .dataTransmission, dir := .node1ToNode2, txIdx := 3, tx := { mem := [], wr := 1, rd := none } }))
      (fun t => (t.node1.engine.tx.rd, t.node1.engine.ls, t.node2.pend)) = some (some 1, .dataTransmission, []) := by decide

/-- V-A7, first `recv`. -/
theorem test_recv_oldest :
    seen
      (exec (.recvByte 0x00#8)
        (node2With fun e => { e with rx := { mem := [(0, 0x41#8), (1, 0x42#8)], wr := 2, rd := some 0 } }))
      (fun t => (t.node2.rsp, t.node2.engine.rx.rd)) = some (⟨true, 0x41#8⟩, some 1) := by decide

/-- V-A7, third `recv`: condition E2, no state change. -/
theorem test_recv_empty :
    seen (exec (.recvByte 0x00#8) (node2With fun e => { e with rx := { mem := [(0, 0x41#8)], wr := 2, rd := none } }))
      (fun t => (t.node2.rsp.ok, t.node2.engine.rx.rd, t.node2.engine.rx.wr)) = some (false, none, 2) := by decide

/-- V-A8 and V-A9. -/
theorem test_available :
    seen (exec (.available 0x00#8) State.reset) (fun t => t.node1.rsp.ok) = some false ∧
      seen (exec (.available 0xFF#8) (node1With fun e => { e with rx := txOne 0x00#8 })) (fun t => t.node1.rsp.ok) = some true := by
  decide

/-- V-S3: Node 2 yields; B rises, then D falls. -/
theorem test_edgeReqFall_yields :
    seen
      (exec (.edgeReqFall 0x01#8)
        { node2With (fun e => { e with ls := .requestSent, dir := .node2ToNode1, outReq := .low, tx := txOne 0xF0#8 }) with
          node1 := { Node.reset with seenReq := .low } })
      (fun t => (t.node2.engine.ls, t.node2.engine.dir, t.node2.engine.tx.rd, t.node1.pend)) =
      some (.requestConfirmed, .node1ToNode2, some 0, [⟨.reqIn, .rise⟩, ⟨.dcIn, .fall⟩]) := by decide

/-- R229 (3): the yield of V-S3 on a platform that cannot tell the order of its two events: the fall of D goes first. -/
theorem test_edgeReqFall_yields_order_unknown :
    seen
      (exec (.edgeReqFall 0x01#8)
        { node2With (fun e => { e with ls := .requestSent, dir := .node2ToNode1, outReq := .low, tx := txOne 0xF0#8 }) with
          node1 := { Node.reset with seenReq := .low }
          params := { Config.hardware with tellsOrder := false } })
      (fun t => t.node1.pend) = some [⟨.dcIn, .fall⟩, ⟨.reqIn, .rise⟩] := by decide

/-- V-S11 and V-S12: the bit captured is operand bit 0. -/
theorem test_edgeReqFall_captures :
    seen (exec (.edgeReqFall 0x01#8) (node2With fun e => { e with ls := .readyForData, dir := .node1ToNode2 }))
        (fun t => (t.node2.engine.rxIdx, t.node2.engine.rxByte)) = some (0, 0x01#8) ∧
      seen (exec (.edgeReqFall 0x00#8) (node2With fun e => { e with ls := .readyForData, dir := .node1ToNode2 }))
        (fun t => (t.node2.engine.rxIdx, t.node2.engine.rxByte)) = some (0, 0x00#8) := by decide

/-- V-S14: T9 with continuation; D rises, then B falls. -/
theorem test_edgeReqRise_continues :
    seen
      (exec (.edgeReqRise 0x01#8)
        { node2With (fun e => { e with ls := .dataTransConfirmed, dir := .node1ToNode2, outDc := .low, tx := txOne 0xF0#8 }) with
          node1 := { Node.reset with seenDc := .low } })
      (fun t => (t.node2.engine.ls, t.node2.engine.dir, t.node1.pend)) =
      some (.requestSent, .node2ToNode1, [⟨.dcIn, .rise⟩, ⟨.reqIn, .fall⟩]) := by decide

/-- V-S21: wrong polarity, ignored. -/
theorem test_edgeReqRise_ignored_when_idle :
    seen (exec (.edgeReqRise 0x01#8) State.reset) (fun t => (t.node1.engine, t.node2)) = some (Engine.reset, Node.reset) := by
  decide

/-- V-S4. -/
theorem test_edgeDcFall_T1 :
    seen
      (exec (.edgeDcFall 0x00#8)
        { node1With (fun e => { e with ls := .requestSent, dir := .node1ToNode2, outReq := .low, tx := txOne 0x41#8 }) with
          node2 := { Node.reset with seenReq := .low } })
      (fun t => (t.node1.engine.ls, t.node1.engine.outReq, t.node2.pend)) =
      some (.requestConfAckReceived, .high, [⟨.reqIn, .rise⟩]) := by decide

/-- V-S7: C rises, then A rises. -/
theorem test_edgeDcFall_T3 :
    seen
      (exec (.edgeDcFall 0x00#8)
        { node1With (fun e => { e with ls := .dataTransmission, dir := .node1ToNode2, outReq := .low, outDc := .low }) with
          node2 := { Node.reset with seenReq := .low, seenDc := .low } })
      (fun t => (t.node1.engine.ls, t.node2.pend)) =
      some (.dataTransConfAckReceived, [⟨.dcIn, .rise⟩, ⟨.reqIn, .rise⟩]) := by decide

/-- V-S5: bit 1, C unchanged. -/
theorem test_edgeDcRise_T2_pulls :
    seen
      (exec (.edgeDcRise 0x01#8)
        (node1With fun e => { e with ls := .requestConfAckReceived, dir := .node1ToNode2, tx := txOne 0x41#8 }))
      (fun t => (t.node1.engine.txIdx, t.node1.engine.txByte, t.node1.engine.tx.rd, t.node2.pend)) =
      some (0, 0x41#8, none, [⟨.reqIn, .fall⟩]) := by decide

/-- V-S6: bit 0, C falls, then A falls. -/
theorem test_edgeDcRise_T2_mid_byte :
    seen
      (exec (.edgeDcRise 0x01#8)
        (node1With fun e => { e with ls := .requestConfAckReceived, dir := .node1ToNode2, txIdx := 0, txByte := 0x41#8 }))
      (fun t => (t.node1.engine.txIdx, t.node1.engine.outDc, t.node2.pend)) =
      some (1, .low, [⟨.dcIn, .fall⟩, ⟨.reqIn, .fall⟩]) := by decide

/-- R100, R167: with `BIT_LEVEL = LOW` a 0 bit is HIGH, so the edge of V-S6 leaves C where it is. -/
theorem test_edgeDcRise_T2_bitLevel_low :
    seen
      (exec (.edgeDcRise 0x01#8)
        { node1With (fun e => { e with ls := .requestConfAckReceived, dir := .node1ToNode2, txIdx := 0, txByte := 0x41#8 }) with
          params := { Config.hardware with bitLevel := .low } })
      (fun t => (t.node1.engine.txIdx, t.node1.engine.outDc, t.node2.pend)) = some (1, .high, [⟨.reqIn, .fall⟩]) := by decide

/-- R100, R173: with `BIT_LEVEL = LOW` the HIGH level of V-S11 carries a 0. -/
theorem test_edgeReqFall_captures_bitLevel_low :
    seen
      (exec (.edgeReqFall 0x01#8)
        { node2With (fun e => { e with ls := .readyForData, dir := .node1ToNode2 }) with
          params := { Config.hardware with bitLevel := .low } })
      (fun t => (t.node2.engine.rxIdx, t.node2.engine.rxByte)) = some (0, 0x00#8) := by decide

/-- R8, R125: with `N = 1` the second byte finds the transmit buffer full. -/
theorem test_send_capacity_one :
    seen
      (exec (.sendByte 0x42#8)
        { node1With (fun e =>
            { e with ls := .requestSent, dir := .node1ToNode2, outReq := .low, tx := { mem := [(0, 0x41#8)], wr := 0, rd := some 0 } }) with
          params := { Config.hardware with capacity := 1 } })
      (fun t => (t.node1.rsp, t.node1.engine.tx.mem)) = some (⟨false, 0x00#8⟩, [(0, 0x41#8)]) := by decide

/-- R11, R228: with `PEND_DEPTH = 3` a fourth event is lost and the waiting three stay (log entry 13). -/
theorem test_pendDepth_three :
    (Node.observe { Config.hardware with pendDepth := some 3 }
      { Node.reset with pend := [⟨.dcIn, .rise⟩, ⟨.reqIn, .rise⟩, ⟨.dcIn, .fall⟩], seenDc := .low } .dcIn .high).pend =
      [⟨.dcIn, .rise⟩, ⟨.reqIn, .rise⟩, ⟨.dcIn, .fall⟩] := by decide

/-- V-S22. -/
theorem test_reserved_words :
    seen (exec (.reserved47 0x7FF#12) State.reset) (fun t => (t.node1.rsp, t.node1.engine)) = some (⟨false, 0x00#8⟩, Engine.reset) ∧
      seen (exec (.reservedCF 0xC00#12) State.reset) (fun t => (t.node1.rsp, t.node1.engine)) =
        some (⟨false, 0x00#8⟩, Engine.reset) := by decide

/-- R260: before `INIT` a `send` is refused. -/
theorem test_send_refused_before_init : seen (exec (.sendByte 0x41#8) State.reset.beforeInit) (fun _ => ()) = none := by decide

/-- P1, operation 1: the step delivers the fall of A, with C high, to Node 2. -/
theorem test_step_delivers :
    seen
      (step
        { State.reset with
          node1 := { Node.reset with engine := { Engine.reset with ls := .requestSent, dir := .node1ToNode2, outReq := .low } }
          node2 := { Node.reset with pend := [⟨.reqIn, .fall⟩], seenReq := .low }
          schedule := [.deliver .node2] })
      (fun t => (t.node2.engine.ls, t.node2.pend, t.node1.pend)) = some (.requestConfirmed, [], [⟨.dcIn, .fall⟩]) := by decide

/-- The word presented by `withFetchWord` is the next operation. -/
theorem test_withFetchWord_runs :
    seen (step (State.reset.withFetchWord 16 0x141)) (fun t => t.node1.engine.tx) = some (txOne 0x41#8) := by decide

/-- R229 (1): the event goes first and the command waits. -/
theorem test_arbiter_event_first :
    seen
      (step { State.reset with node1 := { Node.reset with pend := [⟨.reqIn, .fall⟩] }, schedule := [.arbitrate .node1 0x141#12] })
      (fun t => (t.node1.engine.ls, t.schedule)) = some (.requestConfirmed, [.arbitrate .node1 0x141#12]) := by decide

/-- R272: an overtaking event. -/
theorem test_overtake :
    seen
      (step
        { State.reset with
          node1 := { Node.reset with pend := [⟨.dcIn, .rise⟩, ⟨.reqIn, .fall⟩] }
          schedule := [.overtake .node1 0] })
      (fun t => t.node1.pend) = some [⟨.reqIn, .fall⟩, ⟨.dcIn, .rise⟩] := by decide

end Sys2Proof.Tests
end

