-- ==== Sys2Proof/Tests/Witnesses.lean ====
section
/-! SUPPORT. For every statement of Certificates/Slice0/Obligations.lean that has hypotheses: a concrete state and operands that meet all of
them together, one per clause where a statement has several. -/

namespace Sys2Proof.Tests

open Sys2Proof Sys2Proof.Machine

/-! ### States -/

/-- Node 1 has just executed `send 0x41` after reset (V-A2); the fall of A is pending at Node 2. -/
def afterSend : State :=
  { State.reset with
    node1 :=
      { Node.reset with
        engine := { Engine.reset with ls := .requestSent, dir := .node1ToNode2, outReq := .low, tx := txOne 0x41#8 } }
    node2 := { Node.reset with seenReq := .low, pend := [⟨.reqIn, .fall⟩] } }

/-- `afterSend` with the delivery to Node 2 scheduled. -/
def afterSendDelivering : State := { afterSend with schedule := [.deliver .node2] }

/-- Node 1 is to emit bit 0 of a byte: `RequestConfAckReceived` with a byte queued. -/
def emitting : Engine := { Engine.reset with ls := .requestConfAckReceived, dir := .node1ToNode2, tx := txOne 0x41#8 }

/-- The array of one written slot is canonical and its one unread slot written. -/
theorem txOne_occupiedWritten (v : Byte) : (txOne v).OccupiedWritten 50 := by
  intro r hr k hk
  have hc : (txOne v).count 50 = 1 := by decide +revert
  have hr0 : r = 0 := by simpa [txOne, eq_comm] using hr
  subst hr0
  have hk0 : k = 0 := by omega
  subst hk0
  rfl

theorem resetBuffer_occupiedWritten (n : Nat) : Engine.reset.rx.OccupiedWritten n := by
  intro r hr
  exact absurd hr (by simp [Engine.reset, Buffer.reset])

/-- The engine of Node 1 in `afterSend` has the invariants. -/
theorem afterSend_engineInv1 : EngineInv Config.hardware .node1 afterSend.node1.engine where
  idle_iff := by decide
  sender_dir := by decide
  receiver_dir := by decide
  idle_not_pending := by decide
  request_pending := by decide
  req_level := by decide
  dc_level := by decide
  tx_range := by decide
  rx_range := by decide
  tx_written := txOne_occupiedWritten _
  rx_written := resetBuffer_occupiedWritten _
  rx_boundary := by decide
  rx_partial := by decide

/-- The engine of a node after reset has the invariants, at either role. -/
theorem reset_engineInv (r : Role) : EngineInv Config.hardware r Engine.reset where
  idle_iff := by decide
  sender_dir := by cases r <;> decide
  receiver_dir := by cases r <;> decide
  idle_not_pending := by decide
  request_pending := by decide
  req_level := by decide
  dc_level := by decide
  tx_range := by decide
  rx_range := by decide
  tx_written := resetBuffer_occupiedWritten _
  rx_written := resetBuffer_occupiedWritten _
  rx_boundary := by decide
  rx_partial := by decide

theorem afterSend_inv : Inv afterSend where
  params := by decide
  tx_canonical x := by cases x <;> decide
  rx_canonical x := by cases x <;> decide
  engines x _ := by
    cases x
    · exact afterSend_engineInv1
    · exact reset_engineInv .node2
  detectors x l := by cases x <;> cases l <;> decide
  silent x h := by cases x <;> exact absurd h (by decide)
  depth x := by cases x <;> decide

theorem afterSend_linkInv : LinkInv afterSend where
  inv := afterSend_inv
  initialised x := by cases x <;> decide
  phase := by decide
  indices x := by cases x <;> rfl
  accumulators _ x := by cases x <;> exact { boundary := by decide, bits := by decide }

theorem afterSendDelivering_linkInv : LinkInv afterSendDelivering := linkInv_withSchedule afterSend _ afterSend_linkInv

theorem emitting_engineInv : EngineInv Config.hardware .node1 emitting where
  idle_iff := by decide
  sender_dir := by decide
  receiver_dir := by decide
  idle_not_pending := by decide
  request_pending := by decide
  req_level := by decide
  dc_level := by decide
  tx_range := by decide
  rx_range := by decide
  tx_written := txOne_occupiedWritten _
  rx_written := resetBuffer_occupiedWritten _
  rx_boundary := by decide
  rx_partial := by decide

/-! ### Encoding and the step -/

theorem witness_DecodeOfEncode : WellFormed (.reserved47 0x400#12) ∧ WellFormed (.reservedCF 0xFFF#12) := by decide

theorem witness_IgnoredOperandBitsHaveNoEffect :
    (0xFE#8).getLsbD 0 = (0x00#8).getLsbD 0 ∧ (State.reset.node State.reset.active).engine.ls ≠ .readyForData := by decide

theorem witness_StepRunsThePresentedOperation :
    (State.reset.withFetchWord 16 0x141).schedule = .operation .node1 0x141#12 :: [] ∧
      decode 0x141#12 = .sendByte 0x41#8 ∧ WellFormed (.sendByte 0x41#8) := by decide

theorem witness_DeliveryHandlesTheOldestEvent_event :
    afterSendDelivering.schedule = .deliver .node2 :: [] ∧ (afterSendDelivering.node .node2).initialised = true ∧
      (afterSendDelivering.node .node2).pend = ⟨.reqIn, .fall⟩ :: [] := by decide

theorem witness_DeliveryHandlesTheOldestEvent_nothing :
    ({ State.reset.beforeInit with schedule := [.deliver .node1] } : State).schedule = .deliver .node1 :: [] ∧
      (State.reset.beforeInit.node .node1).initialised = false ∧ (State.reset.node .node1).pend = [] := by decide

theorem witness_ArbiterServesEventsFirst :
    ({ afterSend with schedule := [.arbitrate .node2 0x300#12] } : State).schedule = .arbitrate .node2 0x300#12 :: [] ∧
      ({ afterSend with schedule := [.arbitrate .node2 0x300#12] } : State).eventReady .node2 = true ∧
      ({ State.reset with schedule := [.arbitrate .node2 0x300#12] } : State).eventReady .node2 = false := by decide

/-- Two events pending at Node 1, in an order that overtaking changes (R272). -/
def twoPending (a : Action) : State :=
  { State.reset with node1 := { Node.reset with pend := [⟨.dcIn, .rise⟩, ⟨.reqIn, .fall⟩] }, schedule := [a] }

/-- Every clause: an entry lost, two entries exchanged, the last entry that none can overtake, each polarity misreported, an entry beyond the
queue, and nothing scheduled. -/
theorem witness_StepsWithoutAnOperation :
    State.reset.schedule = [] ∧
      ((twoPending (.lose .node1 0)).schedule = .lose .node1 0 :: [] ∧
        ((twoPending (.lose .node1 0)).node .node1).pend = [⟨.dcIn, .rise⟩, ⟨.reqIn, .fall⟩]) ∧
      ((twoPending (.overtake .node1 0)).schedule = .overtake .node1 0 :: [] ∧
        ((twoPending (.overtake .node1 0)).node .node1).pend[0]? = some ⟨.dcIn, .rise⟩ ∧
        ((twoPending (.overtake .node1 0)).node .node1).pend[0 + 1]? = some ⟨.reqIn, .fall⟩) ∧
      ((twoPending (.overtake .node1 1)).schedule = .overtake .node1 1 :: [] ∧
        ((twoPending (.overtake .node1 1)).node .node1).pend[1 + 1]? = none) ∧
      ((twoPending (.misreport .node1 0)).schedule = .misreport .node1 0 :: [] ∧
        ((twoPending (.misreport .node1 0)).node .node1).pend[0]? = some ⟨.dcIn, .rise⟩) ∧
      ((twoPending (.misreport .node1 1)).schedule = .misreport .node1 1 :: [] ∧
        ((twoPending (.misreport .node1 1)).node .node1).pend[1]? = some ⟨.reqIn, .fall⟩) ∧
      ((twoPending (.misreport .node1 2)).schedule = .misreport .node1 2 :: [] ∧
        ((twoPending (.misreport .node1 2)).node .node1).pend[2]? = none) := by decide

theorem witness_EveryOperationCompletes : (State.reset.node State.reset.active).initialised = true := by decide

theorem witness_OnlyInitBeforeTheFirstInit :
    (State.reset.beforeInit.node State.reset.beforeInit.active).initialised = false ∧
      ∀ v, Instr.available 0x00#8 ≠ .init v := by
  refine ⟨by decide, fun v h => ?_⟩
  cases h

/-! ### Commands -/

theorem witness_SendByteToAFullBuffer :
    (node1With fun e => { e with tx := fullBuffer }).node1.initialised = true ∧
      (node1With fun e => { e with tx := fullBuffer }).node1.engine.tx.rd =
        some (node1With fun e => { e with tx := fullBuffer }).node1.engine.tx.wr := by decide

/-- The two branches: an idle node with an empty buffer, and a node with a byte queued. -/
theorem witness_SendByteStored :
    State.reset.node1.initialised = true ∧ State.reset.node1.engine.tx.rd ≠ some State.reset.node1.engine.tx.wr ∧
      State.reset.node1.engine.tx.rd = none ∧ State.reset.node1.engine.dir = .noDirection ∧
      afterSend.node1.initialised = true ∧ afterSend.node1.engine.tx.rd ≠ some afterSend.node1.engine.tx.wr ∧
      afterSend.node1.engine.tx.rd ≠ none := by decide

theorem witness_RecvByteResult :
    (node1With fun e => { e with rx := txOne 0x41#8 }).node1.initialised = true ∧
      (node1With fun e => { e with rx := txOne 0x41#8 }).node1.engine.rx.rd = some 0 ∧
      State.reset.node1.initialised = true ∧ State.reset.node1.engine.rx.rd = none := by decide

theorem witness_AvailableResult : State.reset.node1.initialised = true := by decide

theorem witness_AvailableIsIdempotent : ∃ t, exec (.available 0x00#8) State.reset = .next t := ⟨_, rfl⟩

theorem witness_ReservedWordsDoNothing : afterSend.node1.initialised = true := by decide

/-! ### Edge operations -/

theorem witness_RequestConfirmedT1 :
    afterSend.node1.initialised = true ∧ afterSend.node1.engine.dir = myDir .node1 ∧
      afterSend.node1.engine.ls = .requestSent := by decide

theorem witness_EmitBitT2 :
    (node1With fun _ => emitting).node1.initialised = true ∧ emitting.dir = myDir .node1 ∧
      emitting.ls = .requestConfAckReceived ∧ emitting.nextBitToSend Config.hardware .node1 = (
        { emitting with tx := { mem := [(0, 0x41#8)], wr := 1, rd := none }, txByte := 0x41#8, txIdx := 0 }, true) := by decide

theorem witness_DataConfirmedT3 :
    (node1With fun e => { e with ls := .dataTransmission, dir := .node1ToNode2 }).node1.initialised = true ∧
      (node1With fun e => { e with ls := .dataTransmission, dir := .node1ToNode2 }).node1.engine.dir = myDir .node1 ∧
      (node1With fun e => { e with ls := .dataTransmission, dir := .node1ToNode2 }).node1.engine.ls = .dataTransmission := by
  decide

/-- Both clauses: nothing pending, and a byte part-sent. -/
theorem witness_SenderCompletesT4 :
    let e : Engine := { Engine.reset with ls := .dataTransConfAckReceived, dir := .node1ToNode2 }
    (node1With fun _ => e).node1.initialised = true ∧ e.dir = myDir .node1 ∧ e.ls = .dataTransConfAckReceived ∧
      (e.txIdx = 7 ∧ e.tx.rd = none) ∧ ¬ (({ e with txIdx := 6 } : Engine).txIdx = 7 ∧ e.tx.rd = none) := by decide

theorem witness_AcceptRequestT5 :
    afterSend.node2.initialised = true ∧ afterSend.node2.engine.dir = .noDirection ∧ afterSend.node2.engine.ls = .idle := by decide

theorem witness_YieldT6 :
    let s := node2With fun e => { e with ls := .requestSent, dir := .node2ToNode1, outReq := .low, tx := txOne 0xF0#8 }
    s.active = .node2 ∧ s.node2.initialised = true ∧ s.node2.engine.dir = .node2ToNode1 ∧ s.node2.engine.ls = .requestSent := by
  decide

theorem witness_ReadyForDataT7 :
    let s := node2With fun e => { e with ls := .requestConfirmed, dir := .node1ToNode2, outDc := .low }
    s.node2.initialised = true ∧ s.node2.engine.dir = peerDir .node2 ∧ s.node2.engine.ls = .requestConfirmed := by decide

theorem witness_CaptureBitT8 :
    let e : Engine := { Engine.reset with ls := .readyForData, dir := .node1ToNode2 }
    (node2With fun _ => e).node2.initialised = true ∧ e.dir = peerDir .node2 ∧ e.ls = .readyForData ∧
      e.newBitReceived Config.hardware (if Config.hardware.bitLevel = .high then (0x01#8).getLsbD 0 else !(0x01#8).getLsbD 0) =
        { e with rxIdx := 0, rxByte := 0x01#8 } := by decide

/-- Both clauses: nothing pending, and a byte queued. -/
theorem witness_ReceiverCompletesT9 :
    let e : Engine := { Engine.reset with ls := .dataTransConfirmed, dir := .node1ToNode2, outDc := .low }
    (node2With fun _ => e).node2.initialised = true ∧ e.dir = peerDir .node2 ∧ e.ls = .dataTransConfirmed ∧
      (e.txIdx = 7 ∧ e.tx.rd = none) ∧ ¬ (e.txIdx = 7 ∧ ({ e with tx := txOne 0xF0#8 } : Engine).tx.rd = none) := by decide

theorem witness_UnmatchedEdgesAreIgnored :
    afterSend.node1.initialised = true ∧ EngineInv afterSend.params afterSend.active afterSend.node1.engine ∧
      eventOf (.edgeReqFall 0x01#8) = some ⟨.reqIn, .fall⟩ ∧
      tableNext .node1 afterSend.node1.engine.txPending afterSend.node1.engine.ls .reqIn .fall = afterSend.node1.engine.ls :=
  ⟨by decide, afterSend_engineInv1, by decide, by decide⟩

theorem witness_Node1IgnoresTheCollidingRequest :
    afterSend.active = .node1 ∧ afterSend.node1.initialised = true ∧ afterSend.node1.engine.dir = .node1ToNode2 := by decide

theorem witness_EdgesFollowTheTransitionTable :
    (afterSend.node afterSend.active).initialised = true ∧ EngineInv afterSend.params afterSend.active (afterSend.node afterSend.active).engine ∧
      eventOf (.edgeDcFall 0x00#8) = some ⟨.dcIn, .fall⟩ :=
  ⟨by decide, afterSend_engineInv1, by decide⟩

theorem witness_WaitingNodeMovesOnlyOnItsEvent :
    (afterSend.node afterSend.active).initialised = true ∧ EngineInv afterSend.params afterSend.active (afterSend.node afterSend.active).engine ∧
      (afterSend.node afterSend.active).engine.ls ≠ .idle ∧ (∀ v, Instr.edgeDcRise 0x00#8 ≠ .init v) ∧
      ∀ ev, eventOf (.edgeDcRise 0x00#8) = some ev →
        tableNext afterSend.active (afterSend.node afterSend.active).engine.txPending
            (afterSend.node afterSend.active).engine.ls ev.line ev.pol =
          (afterSend.node afterSend.active).engine.ls := by
  refine ⟨by decide, afterSend_engineInv1, by decide, fun v h => ?_, fun ev h => ?_⟩
  · cases h
  · cases h
    decide

/-! ### Lines and events -/

/-- A node on either side of its first `INIT`. -/
theorem witness_LinesAndTheirWriters :
    afterSend.node1.initialised = true ∧ State.reset.beforeInit.node1.initialised = false := by decide

theorem witness_EachLineChangeMakesOneEvent :
    Inv afterSend ∧ (∃ t, exec (.edgeDcFall 0x00#8) afterSend = .next t) ∧
      (afterSend.node (peerOf afterSend.active)).initialised = true ∧
      afterSend.params.fits ((afterSend.node (peerOf afterSend.active)).pend.length + 2) = true :=
  ⟨afterSend_inv, ⟨_, rfl⟩, by decide, by decide⟩

/-- Every clause: a level that is no change, a change with no depth, with room, and at the depth. -/
theorem witness_OnlyAFullQueueLosesAnEvent :
    let n : Node := { Node.reset with pend := [⟨.dcIn, .rise⟩, ⟨.reqIn, .rise⟩, ⟨.dcIn, .fall⟩] }
    n.initialised = true ∧ n.seen .reqIn = .high ∧ n.seen .reqIn ≠ .low ∧ Config.hardware.pendDepth = none ∧
      n.pend.length < 4 ∧ 3 ≤ n.pend.length := by decide

/-- Both nodes have requested and Node 2 is about to yield (R170), on a platform that tells the order of its two events or does not. -/
def colliding (tells : Bool) : State :=
  { State.resetWith { Config.hardware with tellsOrder := tells } with
    node1 :=
      { Node.reset with
        engine := { Engine.reset with ls := .requestSent, dir := .node1ToNode2, outReq := .low, tx := txOne 0x41#8 }
        seenReq := .low
        pend := [⟨.reqIn, .fall⟩] }
    node2 :=
      { Node.reset with
        engine := { Engine.reset with ls := .requestSent, dir := .node2ToNode1, outReq := .low, tx := txOne 0xF0#8 }
        seenReq := .low }
    active := .node2 }

theorem colliding_inv (tells : Bool) : Inv (colliding tells) where
  params := by decide +revert
  tx_canonical x := by cases x <;> decide +revert
  rx_canonical x := by cases x <;> decide +revert
  engines x _ := by
    cases x <;>
      exact
        { idle_iff := by decide +revert
          sender_dir := by decide +revert
          receiver_dir := by decide +revert
          idle_not_pending := by decide +revert
          request_pending := by decide +revert
          req_level := by decide +revert
          dc_level := by decide +revert
          tx_range := by decide +revert
          rx_range := by decide +revert
          tx_written := txOne_occupiedWritten _
          rx_written := resetBuffer_occupiedWritten _
          rx_boundary := by decide +revert
          rx_partial := by decide +revert }
  detectors x l := by cases x <;> cases l <;> decide +revert
  silent x h := by cases x <;> exact absurd h (by decide +revert)
  depth x := by cases x <;> decide +revert

/-- Two events of one operation, in each order of R229 (3). -/
theorem witness_EachLineChangeMakesOneEvent_two :
    (∀ tells, Inv (colliding tells)) ∧
      (∃ t, exec (.edgeReqFall 0x01#8) (colliding true) = .next t ∧
        t.node1.pend = [⟨.reqIn, .fall⟩] ++ [⟨.reqIn, .rise⟩, ⟨.dcIn, .fall⟩]) ∧
      (∃ t, exec (.edgeReqFall 0x01#8) (colliding false) = .next t ∧
        t.node1.pend = [⟨.reqIn, .fall⟩] ++ [⟨.dcIn, .fall⟩, ⟨.reqIn, .rise⟩]) :=
  ⟨colliding_inv, ⟨_, rfl, by decide⟩, ⟨_, rfl, by decide⟩⟩

theorem witness_OperationLeavesThePeersEngine :
    (∃ t, exec (.sendByte 0x41#8) State.reset = .next t) ∧
      (∃ t, exec (.init 0x00#8) State.reset.beforeInit = .next t) ∧
      (State.reset.beforeInit.node (peerOf State.reset.beforeInit.active)).initialised = false :=
  ⟨⟨_, rfl⟩, ⟨_, rfl⟩, by decide⟩

theorem witness_ApplicationCommandsTouchOnlyTheBuffers :
    (∃ t, exec (.sendByte 0x42#8) afterSend = .next t) ∧ (afterSend.node afterSend.active).engine.dir ≠ .noDirection ∧
      (∃ t, exec (.recvByte 0x00#8) afterSend = .next t) ∧ ∃ t, exec (.available 0x00#8) afterSend = .next t :=
  ⟨⟨_, rfl⟩, by decide, ⟨_, rfl⟩, ⟨_, rfl⟩⟩

/-! ### Buffers and framer -/

/-- Both ends of the range. -/
theorem witness_IndexSuccessorWraps : 0 < 50 ∧ 0 + 1 < 50 ∧ 49 < 50 ∧ ¬ (49 + 1 < 50) := by decide

/-- The three clauses: full, empty, neither. -/
theorem witness_EnqueueResult :
    fullBuffer.rd = some fullBuffer.wr ∧ Engine.reset.tx.rd = none ∧ (txOne 0x41#8).rd = some 0 ∧ 0 ≠ (txOne 0x41#8).wr := by
  decide

theorem witness_DequeueResult : Engine.reset.tx.rd = none ∧ (txOne 0x41#8).rd = some 0 := by decide

/-- A full buffer, an empty one and one at the end of the array. -/
theorem witness_BufferRefinesAList :
    fullBuffer.inRange 50 = true ∧ Engine.reset.tx.inRange 50 = true ∧ (Buffer.mk [(49, 0x41#8)] 0 (some 49)).inRange 50 = true := by
  decide

theorem witness_CapacityIsTheWholeArray :
    (Buffer.mk [] 1 none).inRange 2 = true ∧ (Buffer.mk [] 1 none).rd = none ∧ [0x11#8, 0x22#8].length = 2 := by decide

/-- Both ends of the range, and `EMPTY`, with a `SENTINEL` at each end of its own range. -/
theorem witness_StoredIndexCodes :
    Config.hardware.legal = true ∧ Config.hardware.sentinel ≤ 63 ∧
      ({ Config.hardware with capacity := 1, sentinel := 1 } : Params).legal = true ∧
      (txOne 0x41#8).inRange Config.hardware.capacity = true ∧ (txOne 0x41#8).rd = some 0 ∧
      (Buffer.mk [(49, 0x41#8)] 49 (some 49)).inRange Config.hardware.capacity = true ∧
      Engine.reset.tx.inRange Config.hardware.capacity = true ∧ Engine.reset.tx.inRange 1 = true ∧ Engine.reset.tx.rd = none := by
  decide

/-- The three clauses, the last at both ends of its range. -/
theorem witness_NextBitToSendResult :
    (Engine.reset.txIdx = 7 ∧ Engine.reset.tx.rd = none) ∧ (emitting.txIdx = 7 ∧ emitting.tx.rd = some 0) ∧
      ((1 : Fin 8) ≠ 0 ∧ ({ emitting with txIdx := 0 } : Engine).txIdx.val + 1 = (1 : Fin 8).val) ∧
      ((7 : Fin 8) ≠ 0 ∧ ({ emitting with txIdx := 6 } : Engine).txIdx.val + 1 = (7 : Fin 8).val) := by decide

/-- The three clauses: a first bit, an eighth bit with room, an eighth bit on a full buffer. -/
theorem witness_NewBitReceivedResult :
    ((Engine.reset.rxIdx.val + 1) % 8 = (0 : Fin 8).val ∧ (0 : Fin 8) ≠ 7) ∧
      ((({ Engine.reset with rxIdx := 6 } : Engine).rxIdx.val + 1) % 8 = (7 : Fin 8).val ∧
        Engine.reset.rx.rd ≠ some Engine.reset.rx.wr) ∧ fullBuffer.rd = some fullBuffer.wr := by decide

theorem witness_ByteRoundTrip :
    emitting.txIdx = 7 ∧ emitting.tx.rd = some 0 ∧
      emitting.tx.mem.read (Config.txStorageAtReset .node1) 0 = 0x41#8 ∧
      Engine.reset.rxIdx = 7 ∧ Engine.reset.rxByte = 0x00#8 :=
  ⟨by decide, by decide, rfl, by decide, by decide⟩

/-! ### Invariants -/

/-- Parameters at the ends of their ranges: one byte of capacity, the least sentinel and depth, the other level. -/
def smallest : Params := { capacity := 1, bitLevel := .low, rxClearOnDrop := false, sentinel := 1, pendDepth := some 3, tellsOrder := false }

theorem witness_ResetHasTheInvariants :
    smallest.legal = true ∧ afterSend.params.legal = true ∧
      ∀ x, (afterSend.node x).engine.tx.mem.wf afterSend.params.capacity = true ∧
        (afterSend.node x).engine.rx.mem.wf afterSend.params.capacity = true :=
  ⟨by decide, by decide, fun x => by cases x <;> decide⟩

theorem witness_ResetHasTheLinkInvariant : smallest.legal = true ∧ Config.hardware.legal = true := by decide

theorem witness_StepsKeepTheParameters :
    ∃ t, step { State.resetWith smallest with schedule := [.operation .node1 0x141#12] } = .next t ∧
      t.node1.engine.tx = { mem := [(0, 0x41#8)], wr := 0, rd := some 0 } := ⟨_, rfl, rfl⟩

theorem witness_EveryStepKeepsTheInvariants : Inv afterSendDelivering ∧ ∃ t, step afterSendDelivering = .next t :=
  ⟨afterSendDelivering_linkInv.inv, ⟨_, rfl⟩⟩

theorem witness_EmptyPullIsUnreachable : EngineInv Config.hardware .node1 emitting ∧ emitting.ls = .requestConfAckReceived :=
  ⟨emitting_engineInv, rfl⟩

theorem witness_LawfulStepsKeepTheLinkInvariant :
    LinkInv afterSendDelivering ∧ ∀ a ∈ afterSendDelivering.schedule, lawful a = true :=
  ⟨afterSendDelivering_linkInv, by decide⟩

theorem witness_NoStallUnderTheLinkInvariant : LinkInv afterSend := afterSend_linkInv

theorem witness_HandlingEventsRunsOut :
    LinkInv afterSendDelivering ∧ afterSendDelivering.schedule = .deliver .node2 :: [] ∧
      afterSendDelivering.eventReady .node2 = true ∧ ∃ t, step afterSendDelivering = .next t :=
  ⟨afterSendDelivering_linkInv, rfl, by decide, ⟨_, rfl⟩⟩

/-- An edge operation that overruns nothing. -/
theorem witness_StepConservesTheByteStream :
    LinkInv afterSendDelivering ∧ afterSendDelivering.AccumulatorsAgree ∧ (∀ a ∈ afterSendDelivering.schedule, lawful a = true) ∧
      (∃ t, step afterSendDelivering = .next t) ∧
      ∃ w u, afterSendDelivering.nextOperation = (some w, u) ∧ decode w = .edgeReqFall 0x01#8 ∧
        (u.node u.active).engine.overrunNext u.active = false :=
  ⟨afterSendDelivering_linkInv, afterSendDelivering_linkInv.accumulators rfl, by decide, ⟨_, rfl⟩, ⟨_, _, rfl, by decide, by decide⟩⟩

/-- A step with no operation. -/
theorem witness_StepConservesTheByteStream_nothing :
    LinkInv afterSend ∧ afterSend.AccumulatorsAgree ∧ (∀ a ∈ afterSend.schedule, lawful a = true) ∧ step afterSend = .next afterSend ∧
      afterSend.nextOperation = (none, afterSend) :=
  ⟨afterSend_linkInv, afterSend_linkInv.accumulators rfl, by decide, rfl, rfl⟩

/-- `afterSend` with Node 1 about to send a second byte. -/
def sendingAgain : State := { afterSend with schedule := [.operation .node1 0x142#12] }

/-- An accepted `SEND_BYTE`. -/
theorem witness_StepConservesTheByteStream_send :
    LinkInv sendingAgain ∧ sendingAgain.AccumulatorsAgree ∧ (∀ a ∈ sendingAgain.schedule, lawful a = true) ∧
      (∃ t, step sendingAgain = .next t ∧ (t.node .node1).rsp.ok = true) ∧
      ∃ w u, sendingAgain.nextOperation = (some w, u) ∧ decode w = .sendByte 0x42#8 ∧ u.active = .node1 :=
  ⟨linkInv_withSchedule afterSend _ afterSend_linkInv, (linkInv_withSchedule afterSend _ afterSend_linkInv).accumulators rfl, by decide,
    ⟨_, rfl, by decide⟩, ⟨_, _, rfl, by decide, by decide⟩⟩

/-- A link at rest with one received byte waiting at Node 2. -/
def byteWaiting : State := node2With fun e => { e with rx := txOne 0x41#8 }

/-- `byteWaiting` with Node 2 about to receive. -/
def receiving : State := { byteWaiting with schedule := [.operation .node2 0x200#12] }

theorem byteWaiting_linkInv : LinkInv byteWaiting where
  inv :=
    { params := by decide
      tx_canonical := fun x => by cases x <;> decide
      rx_canonical := fun x => by cases x <;> decide
      engines := fun x _ => by
        cases x
        · exact reset_engineInv .node1
        · exact { reset_engineInv .node2 with rx_written := txOne_occupiedWritten _ }
      detectors := fun x l => by cases x <;> cases l <;> decide
      silent := fun x h => by cases x <;> exact absurd h (by decide)
      depth := fun x => by cases x <;> decide }
  initialised x := by cases x <;> decide
  phase := by decide
  indices x := by cases x <;> rfl
  accumulators _ x := by cases x <;> exact { boundary := by decide, bits := by decide }

/-- A successful `RECV_BYTE`. -/
theorem witness_StepConservesTheByteStream_recv :
    LinkInv receiving ∧ receiving.AccumulatorsAgree ∧ (∀ a ∈ receiving.schedule, lawful a = true) ∧
      (∃ t, step receiving = .next t ∧ (t.node (peerOf .node1)).rsp.ok = true) ∧
      ∃ w u, receiving.nextOperation = (some w, u) ∧ decode w = .recvByte 0x00#8 ∧ u.active = peerOf .node1 :=
  ⟨linkInv_withSchedule byteWaiting _ byteWaiting_linkInv, (linkInv_withSchedule byteWaiting _ byteWaiting_linkInv).accumulators rfl, by decide,
    ⟨_, rfl, by decide⟩, ⟨_, _, rfl, by decide, by decide⟩⟩

/-- Bit 7 of 0xAA is on the wire and the receive buffer of Node 2 is full (condition E3, V-F9): the strobe is pending. -/
def overrunning : State :=
  { State.reset with
    node1 :=
      { Node.reset with
        engine :=
          { Engine.reset with ls := .dataTransmission, dir := .node1ToNode2, outReq := .low, txIdx := 7, txByte := 0xAA#8 } }
    node2 :=
      { Node.reset with
        engine :=
          { Engine.reset with ls := .readyForData, dir := .node1ToNode2, rxIdx := 6, rxByte := 0x2A#8, rx := fullBuffer }
        seenReq := .low
        pend := [⟨.reqIn, .fall⟩] } }

/-- `overrunning` with the delivery of the strobe scheduled. -/
def overrunningDelivering : State := { overrunning with schedule := [.deliver .node2] }

theorem fullBuffer_occupiedWritten : fullBuffer.OccupiedWritten 50 := by
  have h0 : ∀ k, k < 50 → (fullBuffer.mem.written (unreadSlot 50 0 k)).isSome = true := by decide
  intro r hr k hk
  have hr0 : r = 0 := by simpa [fullBuffer, eq_comm] using hr
  subst hr0
  exact h0 k hk

theorem overrunning_linkInv : LinkInv overrunning where
  inv :=
    { params := by decide
      tx_canonical := fun x => by cases x <;> decide
      rx_canonical := fun x => by cases x <;> decide
      engines := fun x _ => by
        cases x
        · exact
            { idle_iff := by decide
              sender_dir := by decide
              receiver_dir := by decide
              idle_not_pending := by decide
              request_pending := by decide
              req_level := by decide
              dc_level := by decide
              tx_range := by decide
              rx_range := by decide
              tx_written := resetBuffer_occupiedWritten _
              rx_written := resetBuffer_occupiedWritten _
              rx_boundary := by decide
              rx_partial := by decide }
        · exact
            { idle_iff := by decide
              sender_dir := by decide
              receiver_dir := by decide
              idle_not_pending := by decide
              request_pending := by decide
              req_level := by decide
              dc_level := by decide
              tx_range := by decide
              rx_range := by decide
              tx_written := resetBuffer_occupiedWritten _
              rx_written := fullBuffer_occupiedWritten
              rx_boundary := by decide
              rx_partial := by decide }
      detectors := fun x l => by cases x <;> cases l <;> decide
      silent := fun x h => by cases x <;> exact absurd h (by decide)
      depth := fun x => by cases x <;> decide }
  initialised x := by cases x <;> decide
  phase := by decide
  indices x := by cases x <;> rfl
  accumulators _ x := by cases x <;> exact { boundary := by decide, bits := by decide }

/-- An overrun: the eighth bit is captured at `rx_idx = 6` with the receive buffer full. -/
theorem witness_StepConservesTheByteStream_overrun :
    LinkInv overrunningDelivering ∧ overrunningDelivering.AccumulatorsAgree ∧ (∀ a ∈ overrunningDelivering.schedule, lawful a = true) ∧
      (∃ t, step overrunningDelivering = .next t) ∧
      ∃ w u, overrunningDelivering.nextOperation = (some w, u) ∧ decode w = .edgeReqFall 0x01#8 ∧ u.active = peerOf .node1 ∧
        (u.node (peerOf .node1)).engine.overrunNext (peerOf .node1) = true :=
  ⟨linkInv_withSchedule overrunning _ overrunning_linkInv, (linkInv_withSchedule overrunning _ overrunning_linkInv).accumulators rfl, by decide,
    ⟨_, rfl⟩, ⟨_, _, rfl, by decide, by decide, by decide⟩⟩

theorem witness_EndToEndFifo :
    LinkInv afterSendDelivering ∧ afterSendDelivering.AccumulatorsAgree ∧ (∀ a ∈ afterSendDelivering.schedule, lawful a = true) ∧
      (∃ r, runTraffic 1 afterSendDelivering ⟨afterSendDelivering.stream, fun _ => []⟩ = some r) ∧
      ∀ x, (Traffic.mk afterSendDelivering.stream fun _ => []).accepted x =
        (Traffic.mk afterSendDelivering.stream fun _ => []).received (peerOf x) ++ afterSendDelivering.stream x :=
  ⟨afterSendDelivering_linkInv, afterSendDelivering_linkInv.accumulators rfl, by decide, ⟨_, rfl⟩, fun _ => rfl⟩

theorem witness_AtMostThreeEventsPending : LinkInv afterSend := afterSend_linkInv

/-- Node 1 has requested while Node 2 had not executed `INIT` (the worked case of R264). -/
def requestBeforePeersInit : State :=
  { afterSend with node2 := { Node.reset with initialised := false, seenReq := .low }, active := .node2 }

/-- The other way round: Node 2 has requested while Node 1 had not executed `INIT`. -/
def requestBeforeNode1sInit : State :=
  { State.reset with
    node1 := { Node.reset with initialised := false, seenReq := .low }
    node2 :=
      { Node.reset with
        engine := { Engine.reset with ls := .requestSent, dir := .node2ToNode1, outReq := .low, tx := txOne 0x41#8 } } }

theorem requestBeforePeersInit_inv : Inv requestBeforePeersInit where
  params := by decide
  tx_canonical x := by cases x <;> decide
  rx_canonical x := by cases x <;> decide
  engines x h := by
    cases x
    · exact afterSend_engineInv1
    · exact absurd h (by decide)
  detectors x l := by cases x <;> cases l <;> decide
  silent x h := by
    cases x
    · exact absurd h (by decide)
    · rfl
  depth x := by cases x <;> decide

theorem requestBeforeNode1sInit_inv : Inv requestBeforeNode1sInit where
  params := by decide
  tx_canonical x := by cases x <;> decide
  rx_canonical x := by cases x <;> decide
  engines x h := by
    cases x
    · exact absurd h (by decide)
    · exact
        { idle_iff := by decide
          sender_dir := by decide
          receiver_dir := by decide
          idle_not_pending := by decide
          request_pending := by decide
          req_level := by decide
          dc_level := by decide
          tx_range := by decide
          rx_range := by decide
          tx_written := txOne_occupiedWritten _
          rx_written := resetBuffer_occupiedWritten _
          rx_boundary := by decide
          rx_partial := by decide }
  detectors x l := by cases x <;> cases l <;> decide
  silent x h := by
    cases x
    · rfl
    · exact absurd h (by decide)
  depth x := by cases x <;> decide

theorem witness_InitAfterThePeersRequestStalls_node2 :
    Inv requestBeforePeersInit ∧ requestBeforePeersInit.active = .node2 ∧ requestBeforePeersInit.node2.initialised = false ∧
      requestBeforePeersInit.node1.initialised = true ∧ requestBeforePeersInit.node1.engine.ls = .requestSent ∧
      requestBeforePeersInit.node1.pend = [] :=
  ⟨requestBeforePeersInit_inv, by decide, by decide, by decide, by decide, by decide⟩

theorem witness_InitAfterThePeersRequestStalls_node1 :
    Inv requestBeforeNode1sInit ∧ requestBeforeNode1sInit.active = .node1 ∧ requestBeforeNode1sInit.node1.initialised = false ∧
      requestBeforeNode1sInit.node2.initialised = true ∧ requestBeforeNode1sInit.node2.engine.ls = .requestSent ∧
      requestBeforeNode1sInit.node2.pend = [] :=
  ⟨requestBeforeNode1sInit_inv, by decide, by decide, by decide, by decide, by decide⟩

/-- `afterSend` with both nodes about to be re-initialised. -/
def reinitialising : State :=
  { afterSend with schedule := [.operation .node1 0x000#12, .operation .node2 0x000#12, .deliver .node1, .deliver .node1] }

theorem witness_ReinitialisingBothNodesRestoresTheLink :
    Inv reinitialising ∧
      reinitialising.schedule =
        [.operation .node1 0x000#12, .operation (peerOf .node1) 0x000#12, .deliver .node1, .deliver .node1] :=
  ⟨inv_withSchedule afterSend _ afterSend_inv, rfl⟩

end Sys2Proof.Tests
end

section
/-! The wires of the link as they are driven and read (00_scope.md R10, 20_memory.md R66, R70, R71), and the parameters as constants of
every step (00_scope.md R8, R11). -/

namespace Sys2Proof.Machine

/-! ### Wires -/

/-- The level of an output wire is what its writer drives (R66, R70). -/
@[simp] theorem wireLevel_outWire (s : State) (x : Role) (l : OutLine) :
    s.wireLevel (outWire x l) = (s.node x).drives l := by
  simp [State.wireLevel]

/-- A node's input wire is its peer's output wire (R10): `inWire_seenAs` from the reader's side. -/
theorem inWire_eq_outWire_peerOf (x : Role) (l : OutLine) : inWire x (seenAs l) = outWire (peerOf x) l := by
  rw [← inWire_seenAs (peerOf x) l, peerOf_peerOf]

/-- A line read is the live level the peer drives (R71). -/
theorem lineRead_seenAs (s : State) (x : Role) (l : OutLine) :
    s.lineRead x (seenAs l) = (s.node (peerOf x)).drives l := by
  rw [State.lineRead, inWire_eq_outWire_peerOf, wireLevel_outWire]

/-- Settles O32: the wire map is a table, what a node drives turns on its first `INIT`, and every wire has one writer, whose level it
carries. -/
theorem linesAndTheirWriters : Obligations.LinesAndTheirWriters := by
  refine ⟨⟨rfl, rfl, rfl, rfl⟩, ⟨rfl, rfl, rfl, rfl⟩, fun n => ⟨fun h => ?_, fun h l => ?_⟩, fun s x => ?_⟩
  · exact ⟨drives_of_initialised n .reqOut h, drives_of_initialised n .dcOut h⟩
  · exact drives_of_uninitialised n l h
  · exact ⟨wireLevel_outWire s x .reqOut, wireLevel_outWire s x .dcOut, lineRead_seenAs s x .reqOut, lineRead_seenAs s x .dcOut⟩

/-! ### Parameters -/

/-- No operation changes a parameter: its only effect on the state is a commit. -/
theorem exec_params (i : Instr) (s t : State) (h : exec i s = .next t) : t.params = s.params := by
  obtain ⟨n, ws, rfl⟩ := exec_commits i s t h
  exact commit_params s n ws

/-- Settles O48: a step is what the schedule gives, which keeps the parameters, then at most one operation, which keeps them too. -/
theorem stepsKeepTheParameters : Obligations.StepsKeepTheParameters := by
  intro s t h
  have hsched := nextOperation_params s
  rcases step_cases s t h with hnone | ⟨w, u, hsome, hexec⟩
  · rwa [hnone] at hsched
  · rw [hsome] at hsched
    exact (exec_params (decode w) u t hexec).trans hsched

end Sys2Proof.Machine
end

section
/-! How full a buffer is before and after `ENQUEUE` and `DEQUEUE`, and that both keep every unread slot written (10_state.md R28, R45, R52). -/

namespace Sys2Proof.Machine

/-! ### Counts and slots -/

/-- `count` without the modulus: the distance from the read index to the write index, going round when it must (R26). -/
theorem count_of_some (n : Nat) (b : Buffer) (r : Nat) (hb : b.inRange n = true) (h : b.rd = some r) :
    b.count n = if b.wr ≤ r then b.wr + n - r else b.wr - r := by
  obtain ⟨hw, hrd⟩ := (inRange_iff n b).1 hb
  have hr := hrd r h
  simp only [Buffer.count, h]
  rcases Nat.lt_trichotomy b.wr r with hlt | heq | hgt
  · rw [if_neg (by omega), if_pos (by omega), Nat.mod_eq_of_lt (by omega)]
    omega
  · rw [if_pos heq, if_pos (by omega)]
    omega
  · have e : b.wr + (n - r) = (b.wr - r) + n := by omega
    rw [if_neg (by omega), if_neg (by omega), e, Nat.add_mod_right, Nat.mod_eq_of_lt (by omega)]

/-- `unreadSlot` without the modulus. -/
theorem unreadSlot_of_le (n r k : Nat) (hr : r < n) (hk : k ≤ n) :
    unreadSlot n r k = if r + k < n then r + k else r + k - n := by
  unfold unreadSlot
  split
  · exact Nat.mod_eq_of_lt ‹_›
  · rw [Nat.mod_eq_sub_mod (by omega), Nat.mod_eq_of_lt (by omega)]

/-- The slot after the unread ones is the next free one (R27, R28). -/
theorem unreadSlot_count (n : Nat) (b : Buffer) (r : Nat) (hb : b.inRange n = true) (h : b.rd = some r) :
    unreadSlot n r (b.count n) = b.wr := by
  obtain ⟨hw, hrd⟩ := (inRange_iff n b).1 hb
  have hr := hrd r h
  rw [unreadSlot_of_le n r _ hr (count_le n b hb), count_of_some n b r hb h]
  split <;> split <;> omega

/-- Counting from the next slot is counting one further. -/
theorem unreadSlot_nextIndex (n r k : Nat) : unreadSlot n (nextIndex n r) k = unreadSlot n r (k + 1) := by
  simp only [unreadSlot, nextIndex, Nat.mod_add_mod]
  congr 1
  omega

/-- `ENQUEUE` into an empty buffer leaves one unread byte, in the slot of the write index. -/
theorem enqueue_empty_rd_count (n : Nat) (b : Buffer) (v : Byte) (hb : b.inRange n = true) (h : b.rd = none) :
    (b.enqueue n v).buf.rd = some b.wr ∧ (b.enqueue n v).buf.count n = 1 := by
  have hw := ((inRange_iff n b).1 hb).1
  have hrd : (b.enqueue n v).buf.rd = some b.wr := by simp [Buffer.enqueue, Buffer.isFull, Buffer.isEmpty, h]
  have hwr : (b.enqueue n v).buf.wr = nextIndex n b.wr := by simp [Buffer.enqueue, Buffer.isFull, h]
  refine ⟨hrd, ?_⟩
  rw [count_of_some n _ b.wr (enqueue_inRange n b v hb) hrd, hwr, nextIndex_of_lt n b.wr hw]
  split <;> split <;> omega

/-- `ENQUEUE` into a buffer with unread bytes and room adds one at the end. -/
theorem enqueue_some_rd_count (n : Nat) (b : Buffer) (v : Byte) (r : Nat) (hb : b.inRange n = true) (h : b.rd = some r)
    (hr : r ≠ b.wr) : (b.enqueue n v).buf.rd = some r ∧ (b.enqueue n v).buf.count n = b.count n + 1 := by
  obtain ⟨hw, hlt⟩ := (inRange_iff n b).1 hb
  have hrn := hlt r h
  have hrd : (b.enqueue n v).buf.rd = some r := by simp [Buffer.enqueue, Buffer.isFull, Buffer.isEmpty, h, hr]
  have hwr : (b.enqueue n v).buf.wr = nextIndex n b.wr := by simp [Buffer.enqueue, Buffer.isFull, h, hr]
  refine ⟨hrd, ?_⟩
  rw [count_of_some n _ r (enqueue_inRange n b v hb) hrd, hwr, nextIndex_of_lt n b.wr hw, count_of_some n b r hb h]
  split <;> split <;> split <;> omega

/-- `DEQUEUE` that leaves unread bytes leaves one fewer. -/
theorem dequeue_rd_count (n : Nat) (f : Nat → Byte) (b : Buffer) (r : Nat) (hb : b.inRange n = true) (h : b.rd = some r)
    (hne : nextIndex n r ≠ b.wr) :
    (b.dequeue n f).buf.rd = some (nextIndex n r) ∧ (b.dequeue n f).buf.count n + 1 = b.count n := by
  obtain ⟨hw, hlt⟩ := (inRange_iff n b).1 hb
  have hrn := hlt r h
  have hrd : (b.dequeue n f).buf.rd = some (nextIndex n r) := by simp [dequeue_some n f b r h, hne]
  refine ⟨hrd, ?_⟩
  rw [count_of_some n _ _ (dequeue_inRange n f b hb) hrd, dequeue_wr, count_of_some n b r hb h]
  rw [nextIndex_of_lt n r hrn] at hne ⊢
  split at hne <;> split <;> split <;> split <;> omega

/-! ### Sound buffers -/

/-- What every operation keeps of one buffer of capacity `n`: both indices in range, every unread slot written, the array canonical. -/
structure SoundBuffer (n : Nat) (b : Buffer) : Prop where
  range : b.inRange n = true
  written : b.OccupiedWritten n
  canonical : b.mem.wf n = true

/-- An empty buffer has no unread slot: `INIT` may keep any canonical array (R52). -/
theorem soundBuffer_empty (n : Nat) (m : Memory) (hn : 1 ≤ n) (hm : m.wf n = true) :
    SoundBuffer n { mem := m, wr := 0, rd := none } where
  range := (inRange_iff n _).2 ⟨hn, nofun⟩
  written := nofun
  canonical := hm

/-- A slot that was written stays written, and the slot of the write index becomes so. -/
theorem written_enqueue (n : Nat) (b : Buffer) (v : Byte) (hf : b.isFull = false) (i : Nat)
    (hi : i = b.wr ∨ (b.mem.written i).isSome = true) : ((b.enqueue n v).buf.mem.written i).isSome = true := by
  rw [enqueue_notFull n b v hf]
  simp only [written_write]
  split
  · rfl
  · exact hi.resolve_left ‹_›

/-- `ENQUEUE` writes the only slot that becomes unread. -/
theorem enqueue_occupiedWritten (n : Nat) (b : Buffer) (v : Byte) (hb : b.inRange n = true) (h : b.OccupiedWritten n) :
    (b.enqueue n v).buf.OccupiedWritten n := by
  cases hf : b.isFull with
  | true => rwa [enqueue_full n b v hf]
  | false =>
    intro r' hr' k hk
    apply written_enqueue n b v hf
    cases hrd : b.rd with
    | none =>
      obtain ⟨hrd', hcount⟩ := enqueue_empty_rd_count n b v hb hrd
      obtain rfl : b.wr = r' := by simpa [hrd'] using hr'
      obtain rfl : k = 0 := by omega
      exact .inl (Nat.mod_eq_of_lt ((inRange_iff n b).1 hb).1)
    | some r =>
      have hne : r ≠ b.wr := by rintro rfl; simp [Buffer.isFull, hrd] at hf
      obtain ⟨hrd', hcount⟩ := enqueue_some_rd_count n b v r hb hrd hne
      obtain rfl : r = r' := by simpa [hrd'] using hr'
      rcases Nat.lt_or_ge k (b.count n) with hold | hnew
      · exact .inr (h r hrd k hold)
      · obtain rfl : k = b.count n := by omega
        exact .inl (unreadSlot_count n b r hb hrd)

/-- `DEQUEUE` makes no slot unread. -/
theorem dequeue_occupiedWritten (n : Nat) (f : Nat → Byte) (b : Buffer) (hb : b.inRange n = true) (h : b.OccupiedWritten n) :
    (b.dequeue n f).buf.OccupiedWritten n := by
  intro r' hr' k hk
  cases hrd : b.rd with
  | none => simp [dequeue_empty n f b hrd, hrd] at hr'
  | some r =>
    by_cases hlast : nextIndex n r = b.wr
    · simp [dequeue_some n f b r hrd, hlast] at hr'
    · obtain ⟨hrd', hcount⟩ := dequeue_rd_count n f b r hb hrd hlast
      obtain rfl : nextIndex n r = r' := by simpa [hrd'] using hr'
      rw [dequeue_mem, unreadSlot_nextIndex]
      exact h r hrd (k + 1) (by omega)

theorem SoundBuffer.enqueue {n : Nat} {b : Buffer} (h : SoundBuffer n b) (v : Byte) : SoundBuffer n (b.enqueue n v).buf where
  range := enqueue_inRange n b v h.range
  written := enqueue_occupiedWritten n b v h.range h.written
  canonical := enqueue_wf n b v h.range h.canonical

theorem SoundBuffer.dequeue {n : Nat} {b : Buffer} (h : SoundBuffer n b) (f : Nat → Byte) : SoundBuffer n (b.dequeue n f).buf where
  range := dequeue_inRange n f b h.range
  written := dequeue_occupiedWritten n f b h.range h.written
  canonical := dequeue_wf n f b h.canonical

end Sys2Proof.Machine
end

section
/-! The invariants of one engine, R40 to R46 of 10_state.md, taken apart into the handshake (R40 to R44) and the storage (R45, R46), each with
what keeps it. -/

namespace Sys2Proof.Machine

/-! ### The two halves of the engine's invariants -/

/-- The direction that belongs to a handshake phase (R40, R41). -/
def dirIn (r : Role) : LinkState → Direction
  | .idle => .noDirection
  | .requestSent => myDir r
  | .requestConfAckReceived => myDir r
  | .dataTransmission => myDir r
  | .dataTransConfAckReceived => myDir r
  | .requestConfirmed => peerDir r
  | .readyForData => peerDir r
  | .dataTransConfirmed => peerDir r

/-- R40 and R41 together say that the phase decides the direction. -/
theorem dir_eq_dirIn_iff (r : Role) (ls : LinkState) (d : Direction) :
    d = dirIn r ls ↔ (ls = .idle ↔ d = .noDirection) ∧ (ls.sending = true → d = myDir r) ∧ (ls.receiving = true → d = peerDir r) := by
  constructor
  · rintro rfl
    cases ls <;> simp [dirIn, LinkState.sending, LinkState.receiving]
  · rintro ⟨hidle, hsend, hreceive⟩
    cases ls
    case idle => exact hidle.1 rfl
    case requestConfirmed | readyForData | dataTransConfirmed => exact hreceive rfl
    all_goals exact hsend rfl

/-- R40 to R44: what the phase decides. -/
structure HandshakeInv (P : Params) (r : Role) (e : Engine) : Prop where
  dir : e.dir = dirIn r e.ls
  idle_not_pending : e.ls = .idle → e.txPending = false
  request_pending : e.ls = .requestSent ∨ e.ls = .requestConfAckReceived → e.txPending = true
  req_level : e.outReq = reqLevelIn e.ls
  dc_level : e.outDc = dcLevelIn P e

/-- R46: no bit of the accumulator `v` above index `i`, and none at all between bytes. -/
structure AccumulatorClear (i : Fin 8) (v : Byte) : Prop where
  boundary : i = 7 → v = 0x00#8
  inside : i ≠ 7 → ∀ j : Fin 8, i < j → v.getLsbD j.val = false

/-- R45, R46 and the canonical form of the arrays. -/
structure StorageInv (P : Params) (e : Engine) : Prop where
  tx : SoundBuffer P.capacity e.tx
  rx : SoundBuffer P.capacity e.rx
  accumulator : P.rxClearOnDrop = true → AccumulatorClear e.rxIdx e.rxByte

/-- What every operation keeps of one engine. -/
structure SoundEngine (P : Params) (r : Role) (e : Engine) : Prop where
  handshake : HandshakeInv P r e
  storage : StorageInv P e

/-- The two halves are the engine's invariants and the canonical form of its arrays. -/
theorem soundEngine_iff (P : Params) (r : Role) (e : Engine) :
    SoundEngine P r e ↔ EngineInv P r e ∧ e.tx.mem.wf P.capacity = true ∧ e.rx.mem.wf P.capacity = true := by
  constructor
  · rintro ⟨hh, hs⟩
    obtain ⟨hidle, hsend, hreceive⟩ := (dir_eq_dirIn_iff r e.ls e.dir).1 hh.dir
    exact ⟨{ idle_iff := hidle
             sender_dir := hsend
             receiver_dir := hreceive
             idle_not_pending := hh.idle_not_pending
             request_pending := hh.request_pending
             req_level := hh.req_level
             dc_level := hh.dc_level
             tx_range := hs.tx.range
             rx_range := hs.rx.range
             tx_written := hs.tx.written
             rx_written := hs.rx.written
             rx_boundary := fun hc => (hs.accumulator hc).boundary
             rx_partial := fun hc => (hs.accumulator hc).inside }, hs.tx.canonical, hs.rx.canonical⟩
  · rintro ⟨h, htx, hrx⟩
    exact { handshake :=
              { dir := (dir_eq_dirIn_iff r e.ls e.dir).2 ⟨h.idle_iff, h.sender_dir, h.receiver_dir⟩
                idle_not_pending := h.idle_not_pending
                request_pending := h.request_pending
                req_level := h.req_level
                dc_level := h.dc_level }
            storage :=
              { tx := ⟨h.tx_range, h.tx_written, htx⟩
                rx := ⟨h.rx_range, h.rx_written, hrx⟩
                accumulator := fun hc => ⟨h.rx_boundary hc, h.rx_partial hc⟩ } }

/-- R26: nothing is pending exactly between bytes with an empty transmit buffer. -/
theorem txPending_eq_false_iff (e : Engine) : e.txPending = false ↔ e.txIdx = 7 ∧ e.tx.rd = none := by
  simp [Engine.txPending, Buffer.isNonempty]

/-- A byte in the transmit buffer is pending (R26). -/
theorem txPending_of_rd_ne_none (e : Engine) (h : e.tx.rd ≠ none) : e.txPending = true := by
  rw [← Bool.not_eq_false, txPending_eq_false_iff]
  exact fun he => h he.2

/-- An idle node has an empty transmit buffer (R42). -/
theorem HandshakeInv.tx_empty_of_idle {P : Params} {r : Role} {e : Engine} (h : HandshakeInv P r e) (hidle : e.ls = .idle) :
    e.tx.rd = none :=
  ((txPending_eq_false_iff e).1 (h.idle_not_pending hidle)).2

/-- A node is idle when no direction is active (R40). -/
theorem HandshakeInv.idle_of_noDirection {P : Params} {r : Role} {e : Engine} (h : HandshakeInv P r e) (hd : e.dir = .noDirection) :
    e.ls = .idle :=
  ((dir_eq_dirIn_iff r e.ls e.dir).1 h.dir).1.2 hd

/-- Settles O50: a node that is to emit a bit has one pending (R43), which the empty pull would contradict (R26). -/
theorem emptyPullIsUnreachable : Obligations.EmptyPullIsUnreachable := by
  intro P r e h hls hempty
  have hnone := (txPending_eq_false_iff e).2 hempty
  have hpending := h.request_pending (.inr hls)
  rw [hnone] at hpending
  exact absurd hpending (by decide)

/-! ### What the framer operations leave unchanged -/

@[simp] theorem nextBitToSend_dir (P : Params) (r : Role) (e : Engine) : (e.nextBitToSend P r).1.dir = e.dir := by
  rcases nextBitToSend_cases P r e with ⟨_, _, h⟩ | ⟨_, _, _, h⟩ | ⟨_, h⟩ <;> rw [h]

@[simp] theorem nextBitToSend_latch (P : Params) (r : Role) (e : Engine) (l : OutLine) :
    (e.nextBitToSend P r).1.latch l = e.latch l := by
  rcases nextBitToSend_cases P r e with ⟨_, _, h⟩ | ⟨_, _, _, h⟩ | ⟨_, h⟩ <;> rw [h] <;> cases l <;> rfl

@[simp] theorem nextBitToSend_rx (P : Params) (r : Role) (e : Engine) : (e.nextBitToSend P r).1.rx = e.rx := by
  rcases nextBitToSend_cases P r e with ⟨_, _, h⟩ | ⟨_, _, _, h⟩ | ⟨_, h⟩ <;> rw [h]

@[simp] theorem nextBitToSend_rxIdx (P : Params) (r : Role) (e : Engine) : (e.nextBitToSend P r).1.rxIdx = e.rxIdx := by
  rcases nextBitToSend_cases P r e with ⟨_, _, h⟩ | ⟨_, _, _, h⟩ | ⟨_, h⟩ <;> rw [h]

@[simp] theorem nextBitToSend_rxByte (P : Params) (r : Role) (e : Engine) : (e.nextBitToSend P r).1.rxByte = e.rxByte := by
  rcases nextBitToSend_cases P r e with ⟨_, _, h⟩ | ⟨_, _, _, h⟩ | ⟨_, h⟩ <;> rw [h]

@[simp] theorem newBitReceived_dir (P : Params) (bit : Bool) (e : Engine) : (e.newBitReceived P bit).dir = e.dir := by
  rcases newBitReceived_cases P bit e with ⟨_, h⟩ | ⟨_, _, h⟩ | ⟨_, _, h⟩ <;> rw [h]

@[simp] theorem newBitReceived_latch (P : Params) (bit : Bool) (e : Engine) (l : OutLine) :
    (e.newBitReceived P bit).latch l = e.latch l := by
  rcases newBitReceived_cases P bit e with ⟨_, h⟩ | ⟨_, _, h⟩ | ⟨_, _, h⟩ <;> rw [h] <;> cases l <;> rfl

/-- Where a bit is pending, the bit that is sent is the bit of the present byte at the present index (R141). -/
theorem nextBitToSend_bit (P : Params) (r : Role) (e : Engine) (h : e.txPending = true) :
    (e.nextBitToSend P r).2 = (e.nextBitToSend P r).1.txByte.getLsbD (e.nextBitToSend P r).1.txIdx.val := by
  rcases nextBitToSend_cases P r e with ⟨h7, hrd, _⟩ | ⟨_, _, _, he⟩ | ⟨_, he⟩
  · rw [(txPending_eq_false_iff e).2 ⟨h7, hrd⟩] at h
    exact absurd h (by decide)
  · rw [he]
    rfl
  · rw [he]

/-! ### The handshake under the transitions -/

section
variable {P : Params} {r : Role} {k : Work}

/-- A request with a byte pending, from idle lines: what `INITIATE_SEND` leaves (R163). -/
theorem handshakeInv_request (hdc : k.engine.outDc = .high) (hp : k.engine.txPending = true) :
    HandshakeInv P r (((k.lineWrite .reqOut .low).setDir (myDir r)).setLs .requestSent).engine where
  dir := rfl
  idle_not_pending := nofun
  request_pending _ := hp
  req_level := rfl
  dc_level := hdc

/-- Completion from idle lines (R175). -/
theorem handshakeInv_complete (hreq : k.engine.outReq = .high) (hdc : k.engine.outDc = .high) :
    HandshakeInv P r (complete r k).engine := by
  rcases complete_cases r k with ⟨hp, e⟩ | ⟨hp, e⟩ <;> rw [e]
  · exact { dir := rfl, idle_not_pending := fun _ => hp, request_pending := nofun, req_level := hreq, dc_level := hdc }
  · exact handshakeInv_request hdc hp

theorem handshakeInv_T1 (h : HandshakeInv P r k.engine) (hd : k.engine.dir = myDir r) (hls : k.engine.ls = .requestSent) :
    HandshakeInv P r (transitionT1 k).engine where
  dir := hd
  idle_not_pending := nofun
  request_pending _ := h.request_pending (.inl hls)
  req_level := rfl
  dc_level := by simpa [dcLevelIn, hls, transitionT1] using h.dc_level

theorem handshakeInv_T2 (h : HandshakeInv P r k.engine) (hd : k.engine.dir = myDir r)
    (hls : k.engine.ls = .requestConfAckReceived) : HandshakeInv P r (transitionT2 P r k).engine where
  dir := (nextBitToSend_dir P r k.engine).trans hd
  idle_not_pending := nofun
  request_pending := nofun
  req_level := rfl
  dc_level := congrArg (levelOfBit P.bitLevel) (nextBitToSend_bit P r k.engine (h.request_pending (.inr hls)))

theorem handshakeInv_T3 (hd : k.engine.dir = myDir r) : HandshakeInv P r (transitionT3 k).engine where
  dir := hd
  idle_not_pending := nofun
  request_pending := nofun
  req_level := rfl
  dc_level := rfl

theorem handshakeInv_T4 (h : HandshakeInv P r k.engine) (hls : k.engine.ls = .dataTransConfAckReceived) :
    HandshakeInv P r (transitionT4 r k).engine :=
  handshakeInv_complete (by simpa [hls, reqLevelIn] using h.req_level) (by simpa [hls, dcLevelIn] using h.dc_level)

theorem handshakeInv_T5 (h : HandshakeInv P r k.engine) (hls : k.engine.ls = .idle) :
    HandshakeInv P r (transitionT5 r k).engine where
  dir := rfl
  idle_not_pending := nofun
  request_pending := nofun
  req_level := by simpa [hls, reqLevelIn, transitionT5] using h.req_level
  dc_level := rfl

theorem handshakeInv_T6 : HandshakeInv P r (transitionT6 r k).engine where
  dir := rfl
  idle_not_pending := nofun
  request_pending := nofun
  req_level := rfl
  dc_level := rfl

theorem handshakeInv_T7 (h : HandshakeInv P r k.engine) (hd : k.engine.dir = peerDir r)
    (hls : k.engine.ls = .requestConfirmed) : HandshakeInv P r (transitionT7 k).engine where
  dir := hd
  idle_not_pending := nofun
  request_pending := nofun
  req_level := by simpa [hls, reqLevelIn, transitionT7] using h.req_level
  dc_level := rfl

theorem handshakeInv_T8 (dc : Level) (h : HandshakeInv P r k.engine) (hd : k.engine.dir = peerDir r)
    (hls : k.engine.ls = .readyForData) : HandshakeInv P r (transitionT8 P dc k).engine where
  dir := (newBitReceived_dir P _ k.engine).trans hd
  idle_not_pending := nofun
  request_pending := nofun
  req_level := by
    have hlatch := newBitReceived_latch P (bitOfLevel P.bitLevel dc) k.engine .reqOut
    have hreq := h.req_level
    rw [hls] at hreq
    exact hlatch.trans hreq
  dc_level := rfl

theorem handshakeInv_T9 (h : HandshakeInv P r k.engine) (hls : k.engine.ls = .dataTransConfirmed) :
    HandshakeInv P r (transitionT9 r k).engine :=
  handshakeInv_complete (by simpa [hls, reqLevelIn] using h.req_level) rfl

/-- `HANDLE_EDGE` keeps R40 to R44, whatever the event. -/
theorem handshakeInv_handleEdge (line : InLine) (pol : Polarity) (dc : Level) (h : HandshakeInv P r k.engine) :
    HandshakeInv P r (handleEdge P r line pol dc k).engine := by
  rcases handleEdge_cases P r line pol dc k with
    ⟨_, _, hd, hls, e⟩ | ⟨_, _, hd, hls, e⟩ | ⟨_, _, hd, _, e⟩ | ⟨_, _, _, hls, e⟩ | ⟨_, _, _, hls, e⟩ | ⟨_, _, _, _, _, e⟩ |
    ⟨_, _, hd, hls, e⟩ | ⟨_, _, hd, hls, e⟩ | ⟨_, _, _, hls, e⟩ | e <;> rw [e]
  · exact handshakeInv_T1 h hd hls
  · exact handshakeInv_T2 h hd hls
  · exact handshakeInv_T3 hd
  · exact handshakeInv_T4 h hls
  · exact handshakeInv_T5 h hls
  · exact handshakeInv_T6
  · exact handshakeInv_T7 h hd hls
  · exact handshakeInv_T8 dc h hd hls
  · exact handshakeInv_T9 h hls
  · exact h

end

/-! ### The storage under the framer and the transitions -/

/-- The pull of a byte keeps the storage (R141). -/
theorem StorageInv.nextBitToSend {P : Params} {e : Engine} (h : StorageInv P e) (r : Role) :
    StorageInv P (e.nextBitToSend P r).1 where
  tx := by
    rcases nextBitToSend_cases P r e with ⟨_, _, he⟩ | ⟨i, _, hrd, he⟩ | ⟨_, he⟩ <;> rw [he]
    · exact h.tx
    · simpa [dequeue_some _ (Config.txStorageAtReset r) _ i hrd] using h.tx.dequeue (Config.txStorageAtReset r)
    · exact h.tx
  rx := by simpa using h.rx
  accumulator := by simpa using h.accumulator

/-- A bit put at the next index leaves the bits above it clear (R46, R143). -/
theorem AccumulatorClear.insertBit {i : Fin 8} {v : Byte} (h : AccumulatorClear i v) (bit : Bool) (hi : i ≠ 6) :
    AccumulatorClear (i + 1) (insertBit v bit (i + 1)) where
  boundary h7 := by omega
  inside _ j hj := by
    have hold : v.getLsbD j.val = false := by
      by_cases h7 : i = 7
      · simp [h.boundary h7]
      · exact h.inside h7 j (by omega)
    have hne : j.val ≠ (i + 1).val := by omega
    rw [insertBit_getLsbD, hold]
    simp [hne]

/-- A byte boundary with a clear accumulator (R46). -/
theorem accumulatorClear_boundary : AccumulatorClear 7 0x00#8 := ⟨fun _ => rfl, nofun⟩

/-- A received bit keeps the storage, a dropped byte included (R143, R144). -/
theorem StorageInv.newBitReceived {P : Params} {e : Engine} (h : StorageInv P e) (bit : Bool) :
    StorageInv P (e.newBitReceived P bit) := by
  rcases newBitReceived_cases P bit e with ⟨h6, he⟩ | ⟨_, _, he⟩ | ⟨_, _, he⟩ <;> rw [he]
  · exact { tx := h.tx, rx := h.rx, accumulator := fun hc => (h.accumulator hc).insertBit bit h6 }
  · exact { tx := h.tx, rx := h.rx.enqueue _, accumulator := fun _ => accumulatorClear_boundary }
  · refine { tx := h.tx, rx := h.rx, accumulator := fun hc => ?_ }
    simpa [hc] using accumulatorClear_boundary

/-- The storage of an engine is untouched by line writes and by moves of the handshake. -/
theorem StorageInv.of_eq {P : Params} {e e' : Engine} (h : StorageInv P e) (htx : e'.tx = e.tx) (hrx : e'.rx = e.rx)
    (hidx : e'.rxIdx = e.rxIdx) (hbyte : e'.rxByte = e.rxByte) : StorageInv P e' where
  tx := htx ▸ h.tx
  rx := hrx ▸ h.rx
  accumulator := by rw [hidx, hbyte]; exact h.accumulator

/-- Completion leaves the storage. -/
theorem StorageInv.complete {P : Params} {k : Work} (h : StorageInv P k.engine) (r : Role) : StorageInv P (complete r k).engine := by
  rcases complete_cases r k with ⟨_, e⟩ | ⟨_, e⟩ <;> rw [e] <;> exact h.of_eq rfl rfl rfl rfl

/-- `HANDLE_EDGE` keeps R45 and R46: only T2 and T8 touch the storage. -/
theorem StorageInv.handleEdge {P : Params} {k : Work} (h : StorageInv P k.engine) (r : Role) (line : InLine) (pol : Polarity)
    (dc : Level) : StorageInv P (handleEdge P r line pol dc k).engine := by
  rcases handleEdge_cases P r line pol dc k with
    ⟨_, _, _, _, e⟩ | ⟨_, _, _, _, e⟩ | ⟨_, _, _, _, e⟩ | ⟨_, _, _, _, e⟩ | ⟨_, _, _, _, e⟩ | ⟨_, _, _, _, _, e⟩ |
    ⟨_, _, _, _, e⟩ | ⟨_, _, _, _, e⟩ | ⟨_, _, _, _, e⟩ | e <;> rw [e]
  · exact h.of_eq rfl rfl rfl rfl
  · exact (h.nextBitToSend r).of_eq rfl rfl rfl rfl
  · exact h.of_eq rfl rfl rfl rfl
  · exact h.complete r
  · exact h.of_eq rfl rfl rfl rfl
  · exact h.of_eq rfl rfl rfl rfl
  · exact h.of_eq rfl rfl rfl rfl
  · exact (h.newBitReceived _).of_eq rfl rfl rfl rfl
  · exact StorageInv.complete (k := k.lineWrite .dcOut .high) (h.of_eq rfl rfl rfl rfl) r
  · exact h

theorem SoundEngine.handleEdge {P : Params} {r : Role} {k : Work} (h : SoundEngine P r k.engine) (line : InLine) (pol : Polarity)
    (dc : Level) : SoundEngine P r (handleEdge P r line pol dc k).engine :=
  ⟨handshakeInv_handleEdge line pol dc h.handshake, h.storage.handleEdge r line pol dc⟩

end Sys2Proof.Machine
end

section
/-! The four commands on an engine: what `SEND_BYTE` and `RECV_BYTE` can do, their frame (10_state.md R37), and the invariants after them and
after `INIT`. -/

namespace Sys2Proof.Machine

/-! ### `SEND_BYTE` -/

/-- Everything `SEND_BYTE` can do to an engine: request at once, from an empty buffer with no direction active, or only queue. -/
theorem sendByteWork_cases (P : Params) (r : Role) (b : Byte) (e : Engine) :
    (e.tx.rd = none ∧ e.dir = .noDirection ∧
      (sendByteWork P r b e).1 =
        (((Work.start { e with tx := (e.tx.enqueue P.capacity b).buf }).lineWrite .reqOut .low).setDir (myDir r)).setLs
          .requestSent) ∨
    ((e.tx.rd ≠ none ∨ e.dir ≠ .noDirection) ∧
      (sendByteWork P r b e).1 = Work.start { e with tx := (e.tx.enqueue P.capacity b).buf }) := by
  have hcond : ((e.tx.enqueue P.capacity b).ok && (e.tx.enqueue P.capacity b).wasEmpty && e.linkIdle) =
      decide (e.tx.rd = none ∧ e.dir = .noDirection) := by
    cases hrd : e.tx.rd with
    | none => simp [Buffer.enqueue, Buffer.isFull, Buffer.isEmpty, Engine.linkIdle, hrd, beq_eq_decide]
    | some i => cases hf : e.tx.isFull <;> simp [Buffer.enqueue, Buffer.isEmpty, hrd, hf]
  by_cases hreq : e.tx.rd = none ∧ e.dir = .noDirection
  · refine .inl ⟨hreq.1, hreq.2, ?_⟩
    simp only [sendByteWork, hcond, decide_eq_true hreq, if_true]
    exact initiateSend_noDirection r _ hreq.2
  · refine .inr ⟨not_and_or.1 hreq, ?_⟩
    simp only [sendByteWork, hcond, decide_eq_false hreq, Bool.false_eq_true, if_false]

/-- `ENQUEUE` never leaves a buffer empty (R121). -/
theorem enqueue_rd_ne_none (n : Nat) (b : Buffer) (v : Byte) : (b.enqueue n v).buf.rd ≠ none := by
  cases hf : b.isFull with
  | true => simp [enqueue_full n b v hf, (isFull_iff b).1 hf]
  | false => cases hrd : b.rd <;> simp [enqueue_notFull n b v hf, Buffer.isEmpty, hrd]

/-- `SEND_BYTE` keeps R40 to R46: the byte it queues is pending at once, and it requests from `Idle`. -/
theorem SoundEngine.sendByteWork {P : Params} {r : Role} {e : Engine} (h : SoundEngine P r e) (b : Byte) :
    SoundEngine P r (sendByteWork P r b e).1.engine := by
  have hpending : ({ e with tx := (e.tx.enqueue P.capacity b).buf } : Engine).txPending = true :=
    txPending_of_rd_ne_none _ (enqueue_rd_ne_none P.capacity e.tx b)
  have hstorage : StorageInv P { e with tx := (e.tx.enqueue P.capacity b).buf } :=
    { tx := h.storage.tx.enqueue b, rx := h.storage.rx, accumulator := h.storage.accumulator }
  rcases sendByteWork_cases P r b e with ⟨_, hd, he⟩ | ⟨hbusy, he⟩ <;> rw [he]
  · have hdc : e.outDc = .high := by
      simpa [dcLevelIn, h.handshake.idle_of_noDirection hd] using h.handshake.dc_level
    exact ⟨handshakeInv_request (k := Work.start { e with tx := (e.tx.enqueue P.capacity b).buf }) hdc hpending,
      hstorage.of_eq rfl rfl rfl rfl⟩
  · have hnotIdle : e.ls ≠ .idle := by
      intro hidle
      have hd : e.dir = .noDirection := by simpa [hidle, dirIn] using h.handshake.dir
      exact hbusy.elim (fun hrd => hrd (h.handshake.tx_empty_of_idle hidle)) (fun hne => hne hd)
    exact ⟨{ dir := h.handshake.dir
             idle_not_pending := fun hidle => absurd hidle hnotIdle
             request_pending := fun _ => hpending
             req_level := h.handshake.req_level
             dc_level := h.handshake.dc_level }, hstorage⟩

/-! ### `RECV_BYTE` -/

/-- `RECV_BYTE` from an empty buffer (R202, R222). -/
theorem recvByte_empty (P : Params) (r : Role) (n : Node) (h : n.engine.rx.rd = none) :
    n.recvByte P r =
      { n with rsp := { ok := false, data := Config.recvEmptyData r n.emptyReads }, emptyReads := n.emptyReads + 1 } := by
  simp [Node.recvByte, dequeue_empty _ _ _ h]

/-- `RECV_BYTE` of a waiting byte (R202). -/
theorem recvByte_some (P : Params) (r : Role) (n : Node) (i : Nat) (h : n.engine.rx.rd = some i) :
    n.recvByte P r =
      { n with
        engine := { n.engine with rx := (n.engine.rx.dequeue P.capacity (Config.rxStorageAtReset r)).buf }
        rsp := { ok := true, data := n.engine.rx.mem.read (Config.rxStorageAtReset r) i } } := by
  simp [Node.recvByte, dequeue_some _ _ _ i h]

/-- `DEQUEUE` changes at most the read index. -/
theorem dequeue_buf (n : Nat) (f : Nat → Byte) (b : Buffer) : (b.dequeue n f).buf = { b with rd := (b.dequeue n f).buf.rd } := by
  cases hrd : b.rd with
  | none => rw [dequeue_empty n f b hrd]
  | some i => rw [dequeue_some n f b i hrd]

/-- The engine after `RECV_BYTE`: its receive buffer dequeued, which leaves an empty one as it is. -/
theorem recvByte_engine (P : Params) (r : Role) (n : Node) :
    (n.recvByte P r).engine =
      { n.engine with rx := (n.engine.rx.dequeue P.capacity (Config.rxStorageAtReset r)).buf } := by
  cases hrd : n.engine.rx.rd with
  | none => rw [recvByte_empty P r n hrd, dequeue_empty _ _ _ hrd]
  | some i => rw [recvByte_some P r n i hrd]

/-- `RECV_BYTE` leaves the shim of its node. -/
theorem recvByte_shim (P : Params) (r : Role) (n : Node) :
    (n.recvByte P r).initialised = n.initialised ∧ (n.recvByte P r).pend = n.pend ∧ ∀ l, (n.recvByte P r).seen l = n.seen l := by
  cases hrd : n.engine.rx.rd with
  | none => rw [recvByte_empty P r n hrd]; exact ⟨rfl, rfl, fun l => by cases l <;> rfl⟩
  | some i => rw [recvByte_some P r n i hrd]; exact ⟨rfl, rfl, fun l => by cases l <;> rfl⟩

/-- `RECV_BYTE` keeps R40 to R46: no clause of the handshake reads the receive buffer. -/
theorem SoundEngine.recvByte {P : Params} {r : Role} {n : Node} (h : SoundEngine P r n.engine) :
    SoundEngine P r (n.recvByte P r).engine := by
  rw [recvByte_engine]
  exact ⟨{ dir := h.handshake.dir
           idle_not_pending := h.handshake.idle_not_pending
           request_pending := h.handshake.request_pending
           req_level := h.handshake.req_level
           dc_level := h.handshake.dc_level },
    { tx := h.storage.tx, rx := h.storage.rx.dequeue _, accumulator := h.storage.accumulator }⟩

/-! ### `INIT` -/

/-- `INIT` establishes R40 to R46 from any engine with canonical arrays, before the first `INIT` too (R50 to R54). -/
theorem soundEngine_initWork (P : Params) (r : Role) (e : Engine) (hP : P.legal = true) (htx : e.tx.mem.wf P.capacity = true)
    (hrx : e.rx.mem.wf P.capacity = true) : SoundEngine P r (initWork e).engine where
  handshake := { dir := rfl, idle_not_pending := fun _ => rfl, request_pending := nofun, req_level := rfl, dc_level := rfl }
  storage :=
    { tx := soundBuffer_empty P.capacity e.tx.mem ((legal_iff P).1 hP).1 htx
      rx := soundBuffer_empty P.capacity e.rx.mem ((legal_iff P).1 hP).1 hrx
      accumulator := fun _ => accumulatorClear_boundary }

/-- The engine at reset is one that `INIT` has left (R261). -/
theorem soundEngine_reset (P : Params) (r : Role) (hP : P.legal = true) : SoundEngine P r Engine.reset :=
  soundEngine_initWork P r Engine.reset hP rfl rfl

/-! ### What the commands touch -/

/-- Settles O36: the frame of each command is read off what it can do to its engine; only a request from no direction moves the
handshake. -/
theorem applicationCommandsTouchOnlyTheBuffers : Obligations.ApplicationCommandsTouchOnlyTheBuffers := by
  rintro s t v e e' rfl rfl
  refine ⟨fun h => ?_, fun h => ?_, fun h => ?_⟩
  · obtain ⟨_, rfl⟩ := (whenInitialised_next s _ t).1 h
    rw [State.finish, commit_node_active]
    rcases sendByteWork_cases s.params s.active (byteOperand v) (s.node s.active).engine with ⟨_, hd, he⟩ | ⟨_, he⟩ <;>
      simp only [he]
    · exact ⟨rfl, rfl, rfl, rfl, rfl, rfl, fun hne => absurd hd hne⟩
    · exact ⟨rfl, rfl, rfl, rfl, rfl, rfl, fun _ => ⟨rfl, rfl, rfl⟩⟩
  · obtain ⟨_, rfl⟩ := (whenInitialised_next s _ t).1 h
    rw [commit_node_active, recvByte_engine]
    exact congrArg (fun rx => { (s.node s.active).engine with rx := rx }) (dequeue_buf _ _ _)
  · obtain ⟨_, rfl⟩ := (whenInitialised_next s _ t).1 h
    rw [State.finish, commit_node_active]
    rfl

end Sys2Proof.Machine
end

section
/-! The line writes of an operation and the peer's edge detector: each line's last write is the level its latch then has, and the level the
detector has then seen (10_state.md R36 b, 60_exceptions.md R229 (3)). -/

namespace Sys2Proof.Machine

/-! ### The level a list of line writes leaves -/

/-- The level of line `l` after the `LineWrite`s `ws`, when it was `v` before. -/
def levelAfter (l : OutLine) (ws : List LineWrite) (v : Level) : Level :=
  (ws.filter fun w => w.line == l).foldl (fun _ w => w.level) v

@[simp] theorem levelAfter_nil (l : OutLine) (v : Level) : levelAfter l [] v = v := rfl

theorem levelAfter_cons (l : OutLine) (w : LineWrite) (ws : List LineWrite) (v : Level) :
    levelAfter l (w :: ws) v = levelAfter l ws (if w.line = l then w.level else v) := by
  by_cases h : w.line = l <;> simp [levelAfter, h]

theorem levelAfter_append_one (l : OutLine) (w : LineWrite) (ws : List LineWrite) (v : Level) :
    levelAfter l (ws ++ [w]) v = if w.line = l then w.level else levelAfter l ws v := by
  by_cases h : w.line = l <;> simp [levelAfter, h]

/-- Neither order of R229 (3) exchanges two writes of one line. -/
theorem levelAfter_arrivalOrder (P : Params) (l : OutLine) (ws : List LineWrite) (v : Level) :
    levelAfter l (arrivalOrder P ws) v = levelAfter l ws v := by
  unfold arrivalOrder
  split
  · rfl
  · have hsame : (ws.filter (fun w => w.line == .dcOut) ++ ws.filter (fun w => w.line == .reqOut)).filter (fun w => w.line == l) =
        ws.filter fun w => w.line == l := by
      cases l <;> simp +contextual [List.filter_append, List.filter_filter]
    rw [levelAfter, hsame, levelAfter]

/-! ### The peer's edge detector -/

/-- A sample of a line sets what was seen of it, and of no other line. -/
theorem observe_seen (P : Params) (n : Node) (l m : OutLine) (v : Level) :
    (n.observe P (seenAs m) v).seen (seenAs l) = if m = l then v else n.seen (seenAs l) := by
  split
  · subst m
    exact observe_seen_self P n (seenAs l) v
  · refine observe_seen_other P n (seenAs m) (seenAs l) v ?_
    cases l <;> cases m <;> simp_all

theorem observeEach_seen (P : Params) (n : Node) (l : OutLine) (ws : List LineWrite) :
    (n.observeEach P ws).seen (seenAs l) = levelAfter l ws (n.seen (seenAs l)) := by
  induction ws generalizing n with
  | nil => rfl
  | cons w ws ih => rw [observeEach_cons, ih, observe_seen, levelAfter_cons]

/-- After an operation of the peer the detector has seen the level each line then has. -/
theorem observeAll_seen (P : Params) (n : Node) (l : OutLine) (ws : List LineWrite) :
    (n.observeAll P ws).seen (seenAs l) = levelAfter l ws (n.seen (seenAs l)) := by
  rw [Node.observeAll, observeEach_seen, levelAfter_arrivalOrder]

/-- The edge detector keeps the queue within its depth, through a whole operation of the peer. -/
theorem observeEach_fits (P : Params) (n : Node) (ws : List LineWrite) (h : P.fits n.pend.length = true) :
    P.fits (n.observeEach P ws).pend.length = true := by
  induction ws generalizing n with
  | nil => exact h
  | cons w ws ih => exact ih _ (observe_fits P n _ _ h)

/-- Before the first `INIT` no event is queued (70_reset_and_hazards.md R262). -/
theorem observe_pend_of_uninitialised (P : Params) (n : Node) (l : InLine) (v : Level) (h : n.initialised = false) :
    (n.observe P l v).pend = n.pend := by
  rcases observe_cases P n l v with ⟨_, e⟩ | ⟨_, hi, _⟩ | ⟨_, _, e⟩
  · rw [e]
  · rw [h] at hi
    exact absurd hi (by decide)
  · rw [e, setSeen_pend]

theorem observeEach_pend_of_uninitialised (P : Params) (n : Node) (ws : List LineWrite) (h : n.initialised = false) :
    (n.observeEach P ws).pend = n.pend := by
  induction ws generalizing n with
  | nil => rfl
  | cons w ws ih =>
    rw [observeEach_cons, ih _ (by rwa [observe_initialised]), observe_pend_of_uninitialised P n _ _ h]

/-! ### The latches of an operation -/

/-- A line write sets the latch of its line, and of no other line (R15). -/
theorem latch_lineWrite (m l : OutLine) (v : Level) (k : Work) :
    (k.lineWrite m v).engine.latch l = if m = l then v else k.engine.latch l := by
  cases l <;> cases m <;> rfl

/-- The line writes of `k`, an operation begun at engine `e`, account for both latches. -/
def Work.AccountsFor (k : Work) (e : Engine) : Prop := ∀ l, k.engine.latch l = levelAfter l k.writes (e.latch l)

namespace Work.AccountsFor

variable {e : Engine} {k : Work}

/-- A stretch of an operation that writes no line. -/
theorem withEngine (h : k.AccountsFor e) (e' : Engine) (hl : ∀ l, e'.latch l = k.engine.latch l) :
    ({ k with engine := e' } : Work).AccountsFor e := fun l => (hl l).trans (h l)

theorem start (e' : Engine) (hl : ∀ l, e'.latch l = e.latch l) : (Work.start e').AccountsFor e := hl

theorem setLs (h : k.AccountsFor e) (x : LinkState) : (k.setLs x).AccountsFor e :=
  h.withEngine _ fun l => by cases l <;> rfl

theorem setDir (h : k.AccountsFor e) (d : Direction) : (k.setDir d).AccountsFor e :=
  h.withEngine _ fun l => by cases l <;> rfl

theorem lineWrite (h : k.AccountsFor e) (m : OutLine) (v : Level) : (k.lineWrite m v).AccountsFor e := by
  intro l
  rw [lineWrite_writes, levelAfter_append_one, latch_lineWrite, h l]

theorem complete (h : k.AccountsFor e) (r : Role) : (complete r k).AccountsFor e := by
  rcases complete_cases r k with ⟨_, hk⟩ | ⟨_, hk⟩ <;> rw [hk]
  · exact (h.setLs _).setDir _
  · exact ((h.lineWrite _ _).setDir _).setLs _

/-- The writes of `HANDLE_EDGE` account for the latches, transition by transition. -/
theorem handleEdge (h : k.AccountsFor e) (P : Params) (r : Role) (line : InLine) (pol : Polarity) (dc : Level) :
    (handleEdge P r line pol dc k).AccountsFor e := by
  rcases handleEdge_cases P r line pol dc k with
    ⟨_, _, _, _, hk⟩ | ⟨_, _, _, _, hk⟩ | ⟨_, _, _, _, hk⟩ | ⟨_, _, _, _, hk⟩ | ⟨_, _, _, _, hk⟩ | ⟨_, _, _, _, _, hk⟩ |
    ⟨_, _, _, _, hk⟩ | ⟨_, _, _, _, hk⟩ | ⟨_, _, _, _, hk⟩ | hk <;> rw [hk]
  · exact (h.setLs _).lineWrite _ _
  · exact (((h.withEngine _ (nextBitToSend_latch P r k.engine)).lineWrite _ _).lineWrite _ _).setLs _
  · exact ((h.setLs _).lineWrite _ _).lineWrite _ _
  · exact h.complete r
  · exact ((h.setDir _).lineWrite _ _).setLs _
  · exact (((h.lineWrite _ _).setDir _).lineWrite _ _).setLs _
  · exact (h.lineWrite _ _).setLs _
  · exact ((h.withEngine _ (newBitReceived_latch P _ k.engine)).lineWrite _ _).setLs _
  · exact (h.lineWrite _ _).complete r
  · exact h

end Work.AccountsFor

/-- The writes of `SEND_BYTE` account for the latches: at most the request. -/
theorem accountsFor_sendByteWork (P : Params) (r : Role) (b : Byte) (e : Engine) : (sendByteWork P r b e).1.AccountsFor e := by
  have hstart : (Work.start { e with tx := (e.tx.enqueue P.capacity b).buf }).AccountsFor e :=
    .start _ fun l => by cases l <;> rfl
  rcases sendByteWork_cases P r b e with ⟨_, _, he⟩ | ⟨_, he⟩ <;> rw [he]
  · exact ((hstart.lineWrite _ _).setDir _).setLs _
  · exact hstart

end Sys2Proof.Machine
end

section
/-! The invariants of the link, R40 to R46 of 10_state.md with the edge detectors and the queues: at reset, before the first `INIT`, and through
every step. -/

namespace Sys2Proof.Machine

/-! ### The link's invariants by nodes -/

/-- An initialised node's engine is sound. -/
theorem Inv.soundEngine {s : State} (h : Inv s) (x : Role) (hx : (s.node x).initialised = true) :
    SoundEngine s.params x (s.node x).engine :=
  (soundEngine_iff _ _ _).2 ⟨h.engines x hx, h.tx_canonical x, h.rx_canonical x⟩

/-- The detectors follow the wires exactly when each has seen what the peer drives. -/
theorem detectors_iff (s : State) :
    (∀ x l, (s.node x).seen l = s.lineRead x l) ↔ ∀ x l, (s.node x).seen (seenAs l) = (s.node (peerOf x)).drives l := by
  constructor
  · intro h x l
    rw [h, lineRead_seenAs]
  · intro h x l
    cases l with
    | reqIn => exact (h x .reqOut).trans (lineRead_seenAs s x .reqOut).symm
    | dcIn => exact (h x .dcOut).trans (lineRead_seenAs s x .dcOut).symm

/-- The invariants of a state whose nodes are both right after `INIT` or both before it. -/
theorem inv_of_idleLines (s : State) (hP : s.params.legal = true)
    (hcanonical : ∀ x, (s.node x).engine.tx.mem.wf s.params.capacity = true ∧ (s.node x).engine.rx.mem.wf s.params.capacity = true)
    (hengine : ∀ x, (s.node x).initialised = true → EngineInv s.params x (s.node x).engine)
    (hseen : ∀ x l, (s.node x).seen l = .high) (hdrives : ∀ x l, (s.node x).drives l = .high) (hpend : ∀ x, (s.node x).pend = []) :
    Inv s where
  params := hP
  tx_canonical x := (hcanonical x).1
  rx_canonical x := (hcanonical x).2
  engines := hengine
  detectors := (detectors_iff s).2 fun x l => (hseen x (seenAs l)).trans (hdrives (peerOf x) l).symm
  silent x _ := hpend x
  depth x := by
    rw [hpend x]
    exact fits_mono s.params 0 3 (Nat.zero_le 3) ((legal_iff s.params).1 hP).2.2

theorem resetWith_inv (P : Params) (hP : P.legal = true) : Inv (State.resetWith P) := by
  refine inv_of_idleLines _ hP (wf_reset P) (fun x _ => ?_) (fun x l => ?_) (fun x l => ?_) (fun x => ?_) <;>
    simp only [node_resetWith]
  · exact ((soundEngine_iff P x Engine.reset).1 (soundEngine_reset P x hP)).1
  · cases l <;> rfl
  · cases l <;> rfl
  · rfl

theorem beforeInit_inv (s : State) (hP : s.params.legal = true)
    (hcanonical : ∀ x, (s.node x).engine.tx.mem.wf s.params.capacity = true ∧ (s.node x).engine.rx.mem.wf s.params.capacity = true) :
    Inv s.beforeInit := by
  have hinit : ∀ x, (s.beforeInit.node x).initialised = false := fun x => by cases x <;> rfl
  refine inv_of_idleLines _ hP (fun x => ?_) (fun x hx => ?_) (fun x l => ?_) (fun x l => ?_) (fun x => ?_)
  · cases x
    · exact hcanonical .node1
    · exact hcanonical .node2
  · rw [hinit x] at hx
    exact absurd hx (by decide)
  · cases x <;> cases l <;> rfl
  · exact drives_of_uninitialised _ l (hinit x)
  · cases x <;> rfl

/-- Settles O47: all lines are idle and all queues empty; right after reset the engines are as `INIT` leaves them, and before the first `INIT`
nothing is claimed of them. -/
theorem resetHasTheInvariants : Obligations.ResetHasTheInvariants :=
  ⟨resetWith_inv Config.hardware hardware_legal, resetWith_inv, beforeInit_inv⟩

/-! ### What the schedule does to the queues -/

/-- Shim errors and event entry only shorten or rearrange queues, which keeps every invariant of the link. -/
theorem inv_of_pend_le {s t : State} (h : Inv s) (hparams : t.params = s.params)
    (hnode : ∀ x, ∃ q, t.node x = { s.node x with pend := q } ∧ q.length ≤ (s.node x).pend.length) : Inv t := by
  have hengine : ∀ x, (t.node x).engine = (s.node x).engine := fun x => by
    obtain ⟨q, hq, _⟩ := hnode x
    rw [hq]
  have hinit : ∀ x, (t.node x).initialised = (s.node x).initialised := fun x => by
    obtain ⟨q, hq, _⟩ := hnode x
    rw [hq]
  have hseen : ∀ x l, (t.node x).seen l = (s.node x).seen l := fun x l => by
    obtain ⟨q, hq, _⟩ := hnode x
    rw [hq]
    cases l <;> rfl
  have hlen : ∀ x, (t.node x).pend.length ≤ (s.node x).pend.length := fun x => by
    obtain ⟨q, hq, hle⟩ := hnode x
    rwa [hq]
  exact {
    params := hparams ▸ h.params
    tx_canonical := fun x => by rw [hparams, hengine]; exact h.tx_canonical x
    rx_canonical := fun x => by rw [hparams, hengine]; exact h.rx_canonical x
    engines := fun x hx => by rw [hparams, hengine]; exact h.engines x (hinit x ▸ hx)
    detectors := (detectors_iff t).2 fun x l => by
      rw [hseen, Node.drives, hinit, hengine]
      exact (detectors_iff s).1 h.detectors x l
    silent := fun x hx => by
      have hnil := h.silent x (hinit x ▸ hx)
      have hle := hlen x
      rw [hnil] at hle
      exact List.length_eq_zero_iff.1 (Nat.le_zero.1 hle)
    depth := fun x => hparams ▸ fits_mono s.params _ _ (hlen x) (h.depth x) }

/-- Overtaking keeps the length of a queue. -/
theorem length_overtakeAt (k : Nat) (q : List EdgeEvent) : (overtakeAt k q).length = q.length := by
  induction k, q using overtakeAt.induct with
  | case1 => rfl
  | case2 k e rest ih => simp [overtakeAt, ih]
  | case3 k q h1 h2 => rw [overtakeAt] <;> assumption

/-- Misreporting keeps the length of a queue. -/
theorem length_misreportAt (k : Nat) (q : List EdgeEvent) : (misreportAt k q).length = q.length := by
  induction k, q using misreportAt.induct with
  | case1 => simp [misreportAt]
  | case2 => rfl
  | case3 k e rest ih => simp [misreportAt, ih]

/-- Losing an entry does not lengthen a queue. -/
theorem length_loseAt_le (k : Nat) (q : List EdgeEvent) : (loseAt k q).length ≤ q.length := by
  rw [loseAt_eq_eraseIdx]
  exact List.length_eraseIdx_le q k

/-- A change of one queue leaves the rest of both nodes. -/
theorem node_changePend (s : State) (y : Role) (q : List EdgeEvent) (hq : q.length ≤ (s.node y).pend.length) (x : Role) :
    ∃ q', (s.changePend y q).node x = { s.node x with pend := q' } ∧ q'.length ≤ (s.node x).pend.length := by
  rcases eq_or_eq_peerOf y x with rfl | rfl
  · exact ⟨q, by simp [State.changePend], hq⟩
  · exact ⟨_, by simp [State.changePend], le_rfl⟩

/-- Event entry takes at most one event off a queue. -/
theorem node_takeEvent (s : State) (y x : Role) :
    ∃ q, (s.takeEvent y).2.node x = { s.node x with pend := q } ∧ q.length ≤ (s.node x).pend.length := by
  rcases takeEvent_cases s y with ⟨e, rest, _, hpend, he⟩ | ⟨_, he⟩ <;> rw [he]
  · have hle : rest.length ≤ (s.node y).pend.length := by simp [hpend]
    exact node_changePend s y rest hle x
  · exact ⟨_, rfl, le_rfl⟩

/-- What the schedule does before an operation changes no more of a node than its queue, which does not grow. -/
theorem node_nextOperation (s : State) (x : Role) :
    ∃ q, s.nextOperation.2.node x = { s.node x with pend := q } ∧ q.length ≤ (s.node x).pend.length := by
  have hkeep : ∀ (a : Role) (sched : List Action),
      ∃ q, ({ s with active := a, schedule := sched } : State).node x = { s.node x with pend := q } ∧
        q.length ≤ (s.node x).pend.length := fun a sched => ⟨_, by cases x <;> rfl, le_rfl⟩
  unfold State.nextOperation
  split
  · exact hkeep s.active s.schedule
  · exact hkeep _ _
  · exact node_takeEvent { s with schedule := _ } _ x
  · split
    · exact node_takeEvent s _ x
    · exact hkeep _ _
  · exact node_changePend { s with schedule := _ } _ _ (length_loseAt_le _ _) x
  · exact node_changePend { s with schedule := _ } _ _ (length_overtakeAt _ _).le x
  · exact node_changePend { s with schedule := _ } _ _ (length_misreportAt _ _).le x

theorem inv_nextOperation (s : State) (h : Inv s) : Inv s.nextOperation.2 :=
  inv_of_pend_le h (nextOperation_params s) (node_nextOperation s)

/-! ### The end of an operation -/

/-- What an operation must give for the invariants to survive its end: `n` is the active node after it, `ws` its line writes. -/
structure SoundCommit (s : State) (n : Node) (ws : List LineWrite) : Prop where
  initialised : n.initialised = true
  engine : SoundEngine s.params s.active n.engine
  seen : ∀ l, n.seen l = (s.node s.active).seen l
  pend : n.pend.length ≤ (s.node s.active).pend.length
  lines : ∀ l, n.drives l = levelAfter l ws ((s.node s.active).drives l)

/-- A property of both nodes after an operation: of the active node's new value, and of the peer after its shim has seen the line writes. -/
theorem forall_node_commit {s : State} {n : Node} {ws : List LineWrite} (p : Role → Node → Prop) (hactive : p s.active n)
    (hpeer : p (peerOf s.active) ((s.node (peerOf s.active)).observeAll s.params ws)) (x : Role) : p x ((s.commit n ws).node x) := by
  rcases eq_or_eq_peerOf s.active x with rfl | rfl
  · rwa [commit_node_active]
  · rwa [commit_node_peer]

/-- The peer's detectors have seen every line write, and the active node's lines and detectors are as they were. -/
theorem detectors_commit {s : State} {n : Node} {ws : List LineWrite} (h : Inv s) (hn : SoundCommit s n ws) (x : Role) (l : InLine) :
    ((s.commit n ws).node x).seen l = (s.commit n ws).lineRead x l := by
  have hdetect := (detectors_iff s).1 h.detectors
  refine (detectors_iff _).2 (fun x l => ?_) x l
  rcases eq_or_eq_peerOf s.active x with rfl | rfl
  · have hdrives : ((s.node (peerOf s.active)).observeAll s.params ws).drives l = (s.node (peerOf s.active)).drives l := by
      simp [Node.drives]
    rw [commit_node_active, commit_node_peer, hdrives, hn.seen]
    exact hdetect s.active l
  · rw [commit_node_peer, peerOf_peerOf, commit_node_active, observeAll_seen, hn.lines, hdetect, peerOf_peerOf]

/-- The end of an operation keeps the invariants: the active node is sound, and the peer is unchanged but for its shim. -/
theorem inv_commit {s : State} {n : Node} {ws : List LineWrite} (h : Inv s) (hn : SoundCommit s n ws) : Inv (s.commit n ws) := by
  obtain ⟨hengine, htx, hrx⟩ := (soundEngine_iff _ _ _).1 hn.engine
  exact {
    params := by rw [commit_params]; exact h.params
    tx_canonical := by
      rw [commit_params]
      exact forall_node_commit (fun _ m => m.engine.tx.mem.wf s.params.capacity = true) htx (by simpa using h.tx_canonical _)
    rx_canonical := by
      rw [commit_params]
      exact forall_node_commit (fun _ m => m.engine.rx.mem.wf s.params.capacity = true) hrx (by simpa using h.rx_canonical _)
    engines := by
      rw [commit_params]
      exact forall_node_commit (fun x m => m.initialised = true → EngineInv s.params x m.engine) (fun _ => hengine)
        (by simpa using h.engines _)
    detectors := detectors_commit h hn
    silent := forall_node_commit (fun _ m => m.initialised = false → m.pend = [])
      (fun hi => absurd (hn.initialised.symm.trans hi) (by decide))
      (fun hi => by
        rw [observeAll_initialised] at hi
        rw [Node.observeAll, observeEach_pend_of_uninitialised _ _ _ hi, h.silent _ hi])
    depth := by
      rw [commit_params]
      exact forall_node_commit (fun _ m => s.params.fits m.pend.length = true) (fits_mono _ _ _ hn.pend (h.depth _))
        (observeEach_fits _ _ _ (h.depth _)) }

/-! ### Every operation -/

/-- An operation that works on the engine of an initialised node and answers `rsp` keeps the invariants. -/
theorem inv_finish {s : State} {k : Work} {rsp : Response} (h : Inv s) (hinit : (s.node s.active).initialised = true)
    (hengine : SoundEngine s.params s.active k.engine) (hlines : k.AccountsFor (s.node s.active).engine) :
    Inv (s.finish k rsp) :=
  inv_commit h
    { initialised := hinit
      engine := hengine
      seen := fun l => by cases l <;> rfl
      pend := le_rfl
      lines := fun l => by simpa only [Node.drives, hinit, if_true] using hlines l }

/-- An operation that leaves the engine keeps the invariants (`AVAILABLE`, the reserved words). -/
theorem inv_finish_start {s : State} {rsp : Response} (h : Inv s) (hinit : (s.node s.active).initialised = true) :
    Inv (s.finish (Work.start (s.node s.active).engine) rsp) :=
  inv_finish h hinit (h.soundEngine s.active hinit) (.start _ fun _ => rfl)

theorem execInit_inv {s t : State} (v : Byte) (h : Inv s) (ht : execInit v s = .next t) : Inv t := by
  cases ht
  exact inv_commit h
    { initialised := rfl
      engine := soundEngine_initWork s.params s.active _ h.params (h.tx_canonical _) (h.rx_canonical _)
      seen := fun l => by cases l <;> rfl
      pend := Nat.zero_le _
      lines := fun l => by cases l <;> rfl }

theorem execSendByte_inv {s t : State} (v : Byte) (h : Inv s) (ht : execSendByte v s = .next t) : Inv t := by
  obtain ⟨hinit, rfl⟩ := (whenInitialised_next s _ t).1 ht
  exact inv_finish h hinit ((h.soundEngine s.active hinit).sendByteWork _) (accountsFor_sendByteWork _ _ _ _)

theorem execRecvByte_inv {s t : State} (v : Byte) (h : Inv s) (ht : execRecvByte v s = .next t) : Inv t := by
  obtain ⟨hinit, rfl⟩ := (whenInitialised_next s _ t).1 ht
  obtain ⟨hinit', hpend, hseen⟩ := recvByte_shim s.params s.active (s.node s.active)
  exact inv_commit h
    { initialised := hinit'.trans hinit
      engine := (h.soundEngine s.active hinit).recvByte
      seen := hseen
      pend := hpend ▸ le_rfl
      lines := fun l => by
        rw [levelAfter_nil, Node.drives, hinit', recvByte_engine]
        cases l <;> rfl }

theorem execAvailable_inv {s t : State} (v : Byte) (h : Inv s) (ht : execAvailable v s = .next t) : Inv t := by
  obtain ⟨hinit, rfl⟩ := (whenInitialised_next s _ t).1 ht
  exact inv_finish_start h hinit

theorem noOperation_inv {s t : State} (h : Inv s) (ht : s.noOperation = .next t) : Inv t := by
  obtain ⟨hinit, rfl⟩ := (whenInitialised_next s _ t).1 ht
  exact inv_finish_start h hinit

theorem handleEdge_inv {s t : State} {line : InLine} {pol : Polarity} {v : Byte} (h : Inv s)
    (ht : s.handleEdge line pol v = .next t) : Inv t := by
  obtain ⟨hinit, rfl⟩ := (handleEdge_next s t line pol v).1 ht
  exact inv_finish h hinit (SoundEngine.handleEdge (h.soundEngine s.active hinit) _ _ _)
    (Work.AccountsFor.handleEdge (.start _ fun _ => rfl) _ _ _ _ _)

/-- Every operation keeps the invariants. -/
theorem exec_inv (i : Instr) {s t : State} (h : Inv s) (ht : exec i s = .next t) : Inv t := by
  cases i with
  | init v => exact execInit_inv v h ht
  | sendByte v => exact execSendByte_inv v h ht
  | recvByte v => exact execRecvByte_inv v h ht
  | available v => exact execAvailable_inv v h ht
  | edgeReqFall _ | edgeReqRise _ | edgeDcFall _ | edgeDcRise _ => exact handleEdge_inv h ht
  | reserved47 _ | reservedCF _ => exact noOperation_inv h ht

/-- Settles O49: a step is what the schedule gives, which keeps the invariants, then at most one operation, which keeps them too. -/
theorem everyStepKeepsTheInvariants : Obligations.EveryStepKeepsTheInvariants := by
  intro s t h hstep
  have hsched := inv_nextOperation s h
  rcases step_cases s t hstep with hnone | ⟨w, u, hsome, hexec⟩
  · rwa [hnone] at hsched
  · rw [hsome] at hsched
    exact exec_inv (decode w) hsched hexec

end Sys2Proof.Machine
end

section
/-! The 6-bit stored codes of the buffer indices (10_state.md R29). -/

namespace Sys2Proof.Machine

/-- A number that six bits hold is its own code (R29). -/
theorem toNat_ofNat_six (i : Nat) (h : i ≤ 63) : (BitVec.ofNat 6 i).toNat = i := by
  rw [BitVec.toNat_ofNat]
  exact Nat.mod_eq_of_lt (by omega)

/-- Settles O42: indices in range and the `SENTINEL` are below 64, so six bits hold them, and the `SENTINEL` is no index in range. -/
theorem storedIndexCodes : Obligations.StoredIndexCodes := by
  refine ⟨rfl, fun P b hP hsix hb => ?_⟩
  obtain ⟨_, hsentinel, _⟩ := (legal_iff P).1 hP
  obtain ⟨hwr, hrd⟩ := (inRange_iff P.capacity b).1 hb
  refine ⟨toNat_ofNat_six b.wr (by omega), fun r hr => ?_, ?_⟩
  · have hlt := hrd r hr
    rw [hr]
    exact toNat_ofNat_six r (by omega)
  · cases hr : b.rd with
    | none => exact iff_of_true rfl (toNat_ofNat_six P.sentinel hsix)
    | some r =>
      have hlt := hrd r hr
      have hcode : (readIndexCode P.sentinel (some r)).toNat = r := toNat_ofNat_six r (by omega)
      rw [hcode]
      exact iff_of_false nofun (by omega)

end Sys2Proof.Machine
end

section
/-! The unread bytes of a buffer as a list (10_state.md R28): what `ENQUEUE` and `DEQUEUE` do to it (40_circular_buffer.md R127). -/

namespace Sys2Proof.Machine

/-- An empty buffer has no unread byte. -/
theorem contents_empty (n : Nat) (f : Nat → Byte) (b : Buffer) (h : b.rd = none) : b.contents n f = [] := by
  simp [Buffer.contents, h]

/-- The unread bytes of a buffer that is not empty, slot by slot. -/
theorem contents_of_some (n : Nat) (f : Nat → Byte) (b : Buffer) (r : Nat) (h : b.rd = some r) :
    b.contents n f = (List.range (b.count n)).map fun k => b.mem.read f (unreadSlot n r k) := by
  simp [Buffer.contents, h]

/-- In a buffer that is not full the write index is no unread slot. -/
theorem unreadSlot_ne_wr (n : Nat) (b : Buffer) (r k : Nat) (hb : b.inRange n = true) (h : b.rd = some r) (hr : r ≠ b.wr)
    (hk : k < b.count n) : unreadSlot n r k ≠ b.wr := by
  obtain ⟨hw, hlt⟩ := (inRange_iff n b).1 hb
  have hrn := hlt r h
  have hle := count_le n b hb
  have hcount := count_of_some n b r hb h
  rw [unreadSlot_of_le n r k hrn (by omega)]
  split at hcount <;> split <;> omega

/-- Exactly one byte is unread when the read index is about to reach the write index (R122). -/
theorem count_last (n : Nat) (b : Buffer) (r : Nat) (hb : b.inRange n = true) (h : b.rd = some r) (hlast : nextIndex n r = b.wr) :
    b.count n = 1 := by
  have hrn := ((inRange_iff n b).1 hb).2 r h
  rw [nextIndex_of_lt n r hrn] at hlast
  rw [count_of_some n b r hb h]
  split at hlast <;> split <;> omega

/-- `ENQUEUE` into a buffer that is not full appends its byte (R127). -/
theorem contents_enqueue (n : Nat) (f : Nat → Byte) (b : Buffer) (v : Byte) (hb : b.inRange n = true) (hf : b.isFull = false) :
    (b.enqueue n v).buf.contents n f = b.contents n f ++ [v] := by
  have hmem : (b.enqueue n v).buf.mem = b.mem.write b.wr v := by rw [enqueue_notFull n b v hf]
  cases hrd : b.rd with
  | none =>
    obtain ⟨hrd', hcount⟩ := enqueue_empty_rd_count n b v hb hrd
    have hslot : unreadSlot n b.wr 0 = b.wr := Nat.mod_eq_of_lt ((inRange_iff n b).1 hb).1
    rw [contents_of_some n f _ b.wr hrd', contents_empty n f b hrd, hcount, hmem]
    simp [hslot]
  | some r =>
    have hne : r ≠ b.wr := by rintro rfl; simp [Buffer.isFull, hrd] at hf
    obtain ⟨hrd', hcount⟩ := enqueue_some_rd_count n b v r hb hrd hne
    have hold : ∀ k ∈ List.range (b.count n),
        (b.mem.write b.wr v).read f (unreadSlot n r k) = b.mem.read f (unreadSlot n r k) := fun k hk =>
      read_write_other f b.mem b.wr _ v (unreadSlot_ne_wr n b r k hb hrd hne (List.mem_range.1 hk))
    rw [contents_of_some n f _ r hrd', contents_of_some n f b r hrd, hcount, hmem, List.range_succ, List.map_append,
      List.map_congr_left hold]
    simp [unreadSlot_count n b r hb hrd]

/-- `DEQUEUE` takes the first unread byte (R122, R127). -/
theorem contents_dequeue (n : Nat) (f : Nat → Byte) (b : Buffer) (r : Nat) (hb : b.inRange n = true) (h : b.rd = some r) :
    b.contents n f = b.mem.read f r :: (b.dequeue n f).buf.contents n f := by
  have hslot : unreadSlot n r 0 = r := Nat.mod_eq_of_lt (((inRange_iff n b).1 hb).2 r h)
  rw [contents_of_some n f b r h]
  by_cases hlast : nextIndex n r = b.wr
  · have hrd' : (b.dequeue n f).buf.rd = none := by simp [dequeue_some n f b r h, hlast]
    rw [count_last n b r hb h hlast, contents_empty n f _ hrd']
    simp [hslot]
  · obtain ⟨hrd', hcount⟩ := dequeue_rd_count n f b r hb h hlast
    rw [contents_of_some n f _ _ hrd', ← hcount, List.range_succ_eq_map, List.map_cons, List.map_map, hslot, dequeue_mem]
    simp only [unreadSlot_nextIndex, Function.comp_def, Nat.succ_eq_add_one]

end Sys2Proof.Machine
end

section
/-! What the schedule gives a node to execute (20_memory.md R75, R76, R78, R79): a presented word, the oldest pending event, or nothing. -/

namespace Sys2Proof.Machine

/-! ### Event words -/

/-- The word the shim presents for an event is the word of its edge operation (20_memory.md R75, 30_encoding.md R91). -/
theorem decode_edgeWord (ev : EdgeEvent) (dc : Level) : decode (edgeWord ev dc) = edgeInstr ev (dc.code.setWidth 8) := by
  obtain ⟨line, pol⟩ := ev
  cases line <;> cases pol <;> cases dc <;> decide

/-- Bit 0 of the operand of an event word is the live level of `DC_IN` (30_encoding.md R93). -/
theorem code_getLsbD_zero (dc : Level) : (dc.code.setWidth 8 : Byte).getLsbD 0 = true ↔ dc = .high := by
  cases dc <;> decide

/-- The edge operation reads back the level its event word carries (R93, R99). -/
@[simp] theorem levelOperand_code (dc : Level) : levelOperand (dc.code.setWidth 8) = dc := by
  cases dc <;> rfl

/-! ### The next operation -/

/-- A presented word is the next operation, at the node it is presented to (R79). -/
theorem nextOperation_operation (s : State) (x : Role) (w : OpWord) (rest : List Action) (h : s.schedule = .operation x w :: rest) :
    s.nextOperation = (some w, { s with schedule := rest, active := x }) := by
  simp [State.nextOperation, State.present, h]

/-- A delivery is the event entry of its node (R78). -/
theorem nextOperation_deliver (s : State) (y : Role) (rest : List Action) (h : s.schedule = .deliver y :: rest) :
    s.nextOperation = State.takeEvent { s with schedule := rest } y := by
  simp [State.nextOperation, h]

/-- A word behind the arbiter lets the event entry of its node go first (60_exceptions.md R229 (1)). -/
theorem nextOperation_arbitrate_ready (s : State) (x : Role) (w : OpWord) (rest : List Action)
    (h : s.schedule = .arbitrate x w :: rest) (hready : s.eventReady x = true) : s.nextOperation = s.takeEvent x := by
  simp [State.nextOperation, h, hready]

/-- A word behind the arbiter of a node with no event ready is presented (R229 (1)). -/
theorem nextOperation_arbitrate_notReady (s : State) (x : Role) (w : OpWord) (rest : List Action)
    (h : s.schedule = .arbitrate x w :: rest) (hready : s.eventReady x = false) :
    s.nextOperation = (some w, { s with schedule := rest, active := x }) := by
  simp [State.nextOperation, State.present, h, hready]

/-- A lost, overtaking or misreported event gives no operation (70_reset_and_hazards.md R272, R273). -/
theorem nextOperation_hazard (s : State) (y : Role) (k : Nat) (rest : List Action) :
    (s.schedule = .lose y k :: rest →
      s.nextOperation = (none, State.changePend { s with schedule := rest } y (loseAt k (s.node y).pend))) ∧
    (s.schedule = .overtake y k :: rest →
      s.nextOperation = (none, State.changePend { s with schedule := rest } y (overtakeAt k (s.node y).pend))) ∧
    (s.schedule = .misreport y k :: rest →
      s.nextOperation = (none, State.changePend { s with schedule := rest } y (misreportAt k (s.node y).pend))) := by
  refine ⟨fun h => ?_, fun h => ?_, fun h => ?_⟩ <;> simp [State.nextOperation, h]

@[simp] theorem lineRead_withSchedule (s : State) (q : List Action) (x : Role) (l : InLine) :
    State.lineRead { s with schedule := q } x l = s.lineRead x l := by
  simp [State.lineRead, State.wireLevel]

/-- Taking an action and changing one node, in either order. -/
@[simp] theorem setNode_withSchedule (s : State) (q : List Action) (x : Role) (n : Node) :
    State.setNode { s with schedule := q } x n = { s.setNode x n with schedule := q } := by
  cases x <;> rfl

/-- Taking an action and changing one queue, in either order. -/
theorem changePend_withSchedule (s : State) (y : Role) (q : List EdgeEvent) (rest : List Action) :
    State.changePend { s with schedule := rest } y q = { s.setNode y { s.node y with pend := q } with schedule := rest } := by
  simp [State.changePend]

/-- A queue changed to what it is. -/
theorem setNode_pend_self (s : State) (y : Role) : s.setNode y { s.node y with pend := (s.node y).pend } = s := by
  cases y <;> rfl

/-! ### The step -/

/-- Settles O6: the presented word is the next operation, and the step executes its decoding. -/
theorem stepRunsThePresentedOperation : Obligations.StepRunsThePresentedOperation := by
  intro s x w rest i hsched hdecode _
  rw [step_of_operation s _ w (nextOperation_operation s x w rest hsched), hdecode]

/-- Settles O7: event entry hands over the word of the oldest event, whose decoding is the matching edge operation with the live level in bit 0;
without an event, or before the first `INIT`, it hands over nothing. -/
theorem deliveryHandlesTheOldestEvent : Obligations.DeliveryHandlesTheOldestEvent := by
  intro s y rest hsched
  have hnext := nextOperation_deliver s y rest hsched
  refine ⟨fun ev q hinit hpend => ⟨(s.lineRead y .dcIn).code.setWidth 8, code_getLsbD_zero _, ?_⟩, fun hskip => ?_⟩
  · have htake : State.takeEvent { s with schedule := rest } y =
        (some (edgeWord ev (s.lineRead y .dcIn)),
          { (s.setNode y { s.node y with pend := q }) with schedule := rest, active := y }) := by
      simp [State.takeEvent, hinit, hpend]
    rw [step_of_operation s _ _ (hnext.trans htake), decode_edgeWord]
  · refine step_of_none s _ (hnext.trans ?_)
    rcases takeEvent_cases { s with schedule := rest } y with ⟨e, q, hinit, hpend, _⟩ | ⟨_, htake⟩
    · rw [node_withSchedule] at hinit hpend
      simp [hinit, hpend] at hskip
    · exact htake

/-- Settles O9: these actions give no operation, and the three hazards are `List.eraseIdx` and `List.set` on the queue of their node. -/
theorem stepsWithoutAnOperation : Obligations.StepsWithoutAnOperation := by
  refine ⟨fun s hsched => step_of_none s s (by simp [State.nextOperation, hsched]), ?_⟩
  rintro s y k rest q rfl
  obtain ⟨hlose, hovertake, hmisreport⟩ := nextOperation_hazard s y k rest
  refine ⟨fun hsched => ?_, fun hsched => ⟨fun ev next hev hnext => ?_, fun hnone => ?_⟩,
    fun hsched => ⟨fun ev hev => ?_, fun hnone => ?_⟩⟩
  · rw [step_of_none s _ (hlose hsched), loseAt_eq_eraseIdx, changePend_withSchedule]
  · rw [step_of_none s _ (hovertake hsched), overtakeAt_eq_set k _ ev next hev hnext, changePend_withSchedule]
  · rw [step_of_none s _ (hovertake hsched), overtakeAt_of_none k _ hnone, changePend_withSchedule, setNode_pend_self]
  · rw [step_of_none s _ (hmisreport hsched), misreportAt_eq_set k _ ev hev, changePend_withSchedule]
  · rw [step_of_none s _ (hmisreport hsched), misreportAt_of_none k _ hnone, changePend_withSchedule, setNode_pend_self]

end Sys2Proof.Machine
end

section
/-! The byte stream of a direction (20_memory.md R77, 43_application_api.md R205) as a function of the two engines: which steps of a framer or of a
buffer change it. -/

namespace Sys2Proof.Machine

/-! ### The stream between two engines -/

/-- The byte that has left the sender's transmit queue and is not yet complete at the receiver: none when both cursors are between bytes. -/
def flightBetween (snd rcv : Engine) : List Byte := if snd.txIdx = 7 ∧ rcv.rxIdx = 7 then [] else [snd.txByte]

/-- The bytes on the way from engine `snd` of node `x` to the application of the peer, whose engine is `rcv`. -/
def streamBetween (P : Params) (x : Role) (snd rcv : Engine) : List Byte :=
  rcv.rx.contents P.capacity (Config.rxStorageAtReset (peerOf x)) ++ flightBetween snd rcv ++
    snd.tx.contents P.capacity (Config.txStorageAtReset x)

theorem stream_eq_streamBetween (s : State) (x : Role) :
    s.stream x = streamBetween s.params x (s.node x).engine (s.node (peerOf x)).engine := rfl

/-- The fields of an engine from which it sends are the same. -/
structure SameTransmit (e' e : Engine) : Prop where
  tx : e'.tx = e.tx
  txIdx : e'.txIdx = e.txIdx
  txByte : e'.txByte = e.txByte

/-- The fields of an engine that say which bytes it has received are the same. -/
structure SameReceive (e' e : Engine) : Prop where
  rx : e'.rx = e.rx
  rxIdx : e'.rxIdx = e.rxIdx

theorem SameTransmit.refl (e : Engine) : SameTransmit e e := ⟨rfl, rfl, rfl⟩

theorem SameReceive.refl (e : Engine) : SameReceive e e := ⟨rfl, rfl⟩

/-- The stream depends on no other field of the two engines. -/
theorem streamBetween_congr {P : Params} {x : Role} {snd snd' rcv rcv' : Engine} (hsnd : SameTransmit snd' snd)
    (hrcv : SameReceive rcv' rcv) : streamBetween P x snd' rcv' = streamBetween P x snd rcv := by
  simp only [streamBetween, flightBetween, hsnd.tx, hsnd.txIdx, hsnd.txByte, hrcv.rx, hrcv.rxIdx]

/-! ### The framer's steps -/

/-- Pulling a byte moves it from the transmit queue to the flight, and a bit inside a byte leaves both, when the receiver is at the same bit as
the sender (41_framer.md R141, R142). -/
theorem streamBetween_nextBitToSend (P : Params) (x : Role) (snd rcv : Engine) (htx : snd.tx.inRange P.capacity = true)
    (hidx : rcv.rxIdx = snd.txIdx) : streamBetween P x (snd.nextBitToSend P x).1 rcv = streamBetween P x snd rcv := by
  rcases nextBitToSend_cases P x snd with ⟨_, _, he⟩ | ⟨i, h7, hrd, he⟩ | ⟨h7, he⟩ <;> rw [he]
  · have hpull := contents_dequeue P.capacity (Config.txStorageAtReset x) snd.tx i htx hrd
    rw [dequeue_some _ _ _ i hrd] at hpull
    simp [streamBetween, flightBetween, hidx, h7, hpull]
  · simp [streamBetween, flightBetween, hidx, h7]

/-- The eighth bit completes the sender's byte in the accumulator (R143, R144). -/
theorem insertBit_completes {snd rcv : Engine} {bit : Bool} (hacc : AccumulatorAgrees snd rcv) (h6 : rcv.rxIdx = 6)
    (hbit : bit = snd.txByte.getLsbD 7) : insertBit rcv.rxByte bit 7 = snd.txByte := by
  refine BitVec.eq_of_getLsbD_eq fun j hj => ?_
  have hold := hacc.bits (by rw [h6]; decide) ⟨j, hj⟩
  rw [h6] at hold
  rw [insertBit_getLsbD, hold, hbit]
  by_cases h7 : j = 7
  · simp [h7]
  · have hle : (⟨j, hj⟩ : Fin 8) ≤ 6 := by simp only [Fin.le_def]; omega
    simp [h7, hle]

section
variable {P : Params} {x : Role} {snd rcv : Engine} {bit : Bool}

/-- The captured bit leaves the stream: inside a byte the flight goes on, and the eighth bit moves the byte from the flight to the receive
queue (R143, R144). -/
theorem streamBetween_newBitReceived (hidx : rcv.rxIdx = snd.txIdx - 1) (hacc : AccumulatorAgrees snd rcv)
    (hrx : rcv.rx.inRange P.capacity = true) (hbit : bit = snd.txByte.getLsbD snd.txIdx.val)
    (hroom : ¬ (rcv.rxIdx = 6 ∧ rcv.rx.isFull = true)) :
    streamBetween P x snd (rcv.newBitReceived P bit) = streamBetween P x snd rcv := by
  rcases newBitReceived_cases P bit rcv with ⟨h6, he⟩ | ⟨h6, hf, he⟩ | ⟨h6, hf, _⟩
  · have hbefore : ¬ (snd.txIdx = 7 ∧ rcv.rxIdx = 7) := by omega
    have hafter : ¬ (snd.txIdx = 7 ∧ rcv.rxIdx + 1 = 7) := by omega
    simp [he, streamBetween, flightBetween, hbefore, hafter]
  · have h7 : snd.txIdx = 7 := by omega
    have hpush := contents_enqueue P.capacity (Config.rxStorageAtReset (peerOf x)) rcv.rx snd.txByte hrx hf
    have hbyte := insertBit_completes hacc h6 (by simpa [h7] using hbit)
    simp [he, streamBetween, flightBetween, h7, h6, hbyte, hpush]
  · exact absurd ⟨h6, hf⟩ hroom

/-- The eighth bit at a full receive buffer drops the byte in flight (R144, 60_exceptions.md R223). -/
theorem streamBetween_overrun (hidx : rcv.rxIdx = snd.txIdx - 1) (h6 : rcv.rxIdx = 6) (hfull : rcv.rx.isFull = true) :
    flightBetween snd rcv = [snd.txByte] ∧
      streamBetween P x snd (rcv.newBitReceived P bit) =
        rcv.rx.contents P.capacity (Config.rxStorageAtReset (peerOf x)) ++ snd.tx.contents P.capacity (Config.txStorageAtReset x) := by
  have h7 : snd.txIdx = 7 := by omega
  refine ⟨by simp [flightBetween, h6], ?_⟩
  rcases newBitReceived_cases P bit rcv with ⟨hne, _⟩ | ⟨_, hf, _⟩ | ⟨_, _, he⟩
  · exact absurd h6 hne
  · rw [hfull] at hf
    exact absurd hf (by decide)
  · simp [he, streamBetween, flightBetween, h7]

end

/-! ### `HANDLE_EDGE` -/

/-- A line write moves no byte (00_scope.md R15). -/
theorem lineWrite_sameTransmit (l : OutLine) (v : Level) (k : Work) : SameTransmit (k.lineWrite l v).engine k.engine :=
  ⟨lineWrite_tx l v k, lineWrite_txIdx l v k, lineWrite_txByte l v k⟩

theorem lineWrite_sameReceive (l : OutLine) (v : Level) (k : Work) : SameReceive (k.lineWrite l v).engine k.engine :=
  ⟨lineWrite_rx l v k, lineWrite_rxIdx l v k⟩

/-- Completion moves no byte (42_link_state_machine.md R175). -/
theorem SameTransmit.complete {k : Work} {e : Engine} (h : SameTransmit k.engine e) (r : Role) : SameTransmit (complete r k).engine e := by
  rcases complete_cases r k with ⟨_, hk⟩ | ⟨_, hk⟩ <;> rw [hk] <;> exact ⟨h.tx, h.txIdx, h.txByte⟩

theorem SameReceive.complete {k : Work} {e : Engine} (h : SameReceive k.engine e) (r : Role) : SameReceive (complete r k).engine e := by
  rcases complete_cases r k with ⟨_, hk⟩ | ⟨_, hk⟩ <;> rw [hk] <;> exact ⟨h.rx, h.rxIdx⟩

/-- The edge captures a bit: the strobe falls at an engine that is ready for data, which is the condition of T8 (R164, R173). -/
def Captures (r : Role) (line : InLine) (pol : Polarity) (e : Engine) : Prop :=
  line = .reqIn ∧ pol = .fall ∧ e.dir = peerDir r ∧ e.ls = .readyForData

/-- The capture is T8, whatever the rest of the state (R164). -/
theorem handleEdge_of_captures {P : Params} {r : Role} {line : InLine} {pol : Polarity} {k : Work} (h : Captures r line pol k.engine)
    (dc : Level) : handleEdge P r line pol dc k = transitionT8 P dc k := by
  obtain ⟨rfl, rfl, hdir, hls⟩ := h
  simp [handleEdge, hdir, hls]

/-- What an edge that captures no bit does to the framer and the buffers of engine `e`: it asks for the next bit to send (T2), or keeps them. -/
inductive NoCapture (P : Params) (r : Role) (e e' : Engine) : Prop where
  | emits (hls : e.ls = .requestConfAckReceived) (hsnd : SameTransmit e' (e.nextBitToSend P r).1) (hrcv : SameReceive e' e)
  | keeps (hsnd : SameTransmit e' e) (hrcv : SameReceive e' e)

/-- Only T8 touches the receiving half of the framer, and only T2 the sending half (42_link_state_machine.md R166 to R174). -/
theorem handleEdge_noCapture {P : Params} {r : Role} {line : InLine} {pol : Polarity} {k : Work} (h : ¬ Captures r line pol k.engine)
    (dc : Level) : NoCapture P r k.engine (handleEdge P r line pol dc k).engine := by
  rcases handleEdge_cases P r line pol dc k with
    ⟨_, _, _, _, e⟩ | ⟨_, _, _, hls, e⟩ | ⟨_, _, _, _, e⟩ | ⟨_, _, _, _, e⟩ | ⟨_, _, _, _, e⟩ | ⟨_, _, _, _, _, e⟩ |
    ⟨_, _, _, _, e⟩ | ⟨hl, hp, hd, hls, _⟩ | ⟨_, _, _, _, e⟩ | e
  · exact e ▸ .keeps ⟨rfl, rfl, rfl⟩ ⟨rfl, rfl⟩
  · exact e ▸ .emits hls ⟨rfl, rfl, rfl⟩ ⟨nextBitToSend_rx P r k.engine, nextBitToSend_rxIdx P r k.engine⟩
  · exact e ▸ .keeps ⟨rfl, rfl, rfl⟩ ⟨rfl, rfl⟩
  · exact e ▸ .keeps (.complete (.refl _) r) (.complete (.refl _) r)
  · exact e ▸ .keeps ⟨rfl, rfl, rfl⟩ ⟨rfl, rfl⟩
  · exact e ▸ .keeps ⟨rfl, rfl, rfl⟩ ⟨rfl, rfl⟩
  · exact e ▸ .keeps ⟨rfl, rfl, rfl⟩ ⟨rfl, rfl⟩
  · exact absurd ⟨hl, hp, hd, hls⟩ h
  · exact e ▸ .keeps ((lineWrite_sameTransmit .dcOut .high k).complete r) ((lineWrite_sameReceive .dcOut .high k).complete r)
  · rw [e]
    exact .keeps (.refl _) (.refl _)

end Sys2Proof.Machine
end

section
/-! What one step of a rule-keeping link does to the byte stream of a direction (20_memory.md R77, 43_application_api.md R205). -/

namespace Sys2Proof.Machine

/-! ### The stream at the end of an operation -/

/-- The stream of the node that has just executed an operation and become `n`. -/
theorem stream_commit_active (s : State) (n : Node) (ws : List LineWrite) :
    (s.commit n ws).stream s.active = streamBetween s.params s.active n.engine (s.node (peerOf s.active)).engine := by
  rw [stream_eq_streamBetween, commit_params, commit_node_active, commit_node_peer, observeAll_engine]

/-- The stream towards the node that has just executed an operation and become `n`. -/
theorem stream_commit_peer (s : State) (n : Node) (ws : List LineWrite) :
    (s.commit n ws).stream (peerOf s.active) =
      streamBetween s.params (peerOf s.active) (s.node (peerOf s.active)).engine n.engine := by
  rw [stream_eq_streamBetween, commit_params, peerOf_peerOf, commit_node_active, commit_node_peer, observeAll_engine]

/-- An operation that keeps the framer and the buffers of its node leaves both streams. -/
theorem stream_commit_same (s : State) (n : Node) (ws : List LineWrite) (x : Role)
    (hsnd : SameTransmit n.engine (s.node s.active).engine) (hrcv : SameReceive n.engine (s.node s.active).engine) :
    (s.commit n ws).stream x = s.stream x := by
  rw [stream_eq_streamBetween s]
  rcases eq_or_eq_peerOf s.active x with hx | hx <;> rw [hx]
  · rw [stream_commit_active]
    exact streamBetween_congr hsnd (.refl _)
  · rw [stream_commit_peer, peerOf_peerOf]
    exact streamBetween_congr (.refl _) hrcv

/-! ### The commands -/

theorem sendByteWork_sameReceive (P : Params) (r : Role) (b : Byte) (e : Engine) : SameReceive (sendByteWork P r b e).1.engine e := by
  rcases sendByteWork_cases P r b e with ⟨_, _, he⟩ | ⟨_, he⟩ <;> rw [he] <;> exact ⟨rfl, rfl⟩

theorem sendByteWork_sameTransmit (P : Params) (r : Role) (b : Byte) (e : Engine) :
    SameTransmit (sendByteWork P r b e).1.engine { e with tx := (e.tx.enqueue P.capacity b).buf } := by
  rcases sendByteWork_cases P r b e with ⟨_, _, he⟩ | ⟨_, he⟩ <;> rw [he] <;> exact ⟨rfl, rfl, rfl⟩

/-- An accepted `SEND_BYTE` appends its byte to the stream of its node (43_application_api.md R201). -/
theorem stream_sendByte {s t : State} {b : Byte} (h : exec (.sendByte b) s = .next t)
    (htx : (s.node s.active).engine.tx.inRange s.params.capacity = true) (x : Role) :
    t.stream x = if s.active = x ∧ (t.node x).rsp.ok = true then s.stream x ++ [b] else s.stream x := by
  obtain ⟨_, rfl⟩ := (whenInitialised_next s _ t).1 h
  rw [stream_eq_streamBetween s]
  rcases eq_or_eq_peerOf s.active x with hx | hx <;> rw [hx, State.finish]
  · rw [stream_commit_active, commit_node_active,
      streamBetween_congr (sendByteWork_sameTransmit s.params s.active (byteOperand b) (s.node s.active).engine) (.refl _)]
    have hok : (sendByteWork s.params s.active b (s.node s.active).engine).2 = !(s.node s.active).engine.tx.isFull :=
      enqueue_ok _ _ _
    cases hf : (s.node s.active).engine.tx.isFull with
    | true => simp [byteOperand, hok, hf, enqueue_full _ _ _ hf]
    | false => simp [byteOperand, hok, hf, streamBetween, flightBetween, contents_enqueue _ _ _ _ htx hf]
  · rw [stream_commit_peer, if_neg fun hc => ne_peerOf _ hc.1, peerOf_peerOf]
    exact streamBetween_congr (.refl _) (sendByteWork_sameReceive _ _ _ _)

/-- A successful `RECV_BYTE` takes the first byte of the stream towards its node (R202). -/
theorem stream_recvByte {s t : State} {v : Byte} (h : exec (.recvByte v) s = .next t)
    (hrx : (s.node s.active).engine.rx.inRange s.params.capacity = true) (x : Role) :
    if s.active = peerOf x ∧ (t.node (peerOf x)).rsp.ok = true then s.stream x = (t.node (peerOf x)).rsp.data :: t.stream x
    else t.stream x = s.stream x := by
  obtain ⟨_, rfl⟩ := (whenInitialised_next s _ t).1 h
  rw [stream_eq_streamBetween s]
  rcases eq_or_eq_peerOf s.active x with hx | hx <;> rw [hx]
  · rw [if_neg fun hc => ne_peerOf _ hc.1, stream_commit_active, recvByte_engine]
    exact streamBetween_congr ⟨rfl, rfl, rfl⟩ (.refl _)
  · rw [peerOf_peerOf, stream_commit_peer, commit_node_active]
    cases hrd : (s.node s.active).engine.rx.rd with
    | none => simp [recvByte_empty _ _ _ hrd]
    | some i =>
      have hpull := contents_dequeue s.params.capacity (Config.rxStorageAtReset s.active) _ i hrx hrd
      simp [recvByte_some _ _ _ i hrd, streamBetween, flightBetween, hpull]

/-- `AVAILABLE` and the reserved words leave the streams (R203, 30_encoding.md R101). -/
theorem stream_finish_start (s t : State) (rsp : Response)
    (h : s.whenInitialised (s.finish (Work.start (s.node s.active).engine) rsp) = .next t) (x : Role) : t.stream x = s.stream x := by
  obtain ⟨_, rfl⟩ := (whenInitialised_next s _ t).1 h
  exact stream_commit_same s _ _ x (.refl _) (.refl _)

/-! ### The edges -/

/-- An event's edge operation is `HANDLE_EDGE` of its line and polarity (42_link_state_machine.md R180 to R183). -/
theorem exec_edgeInstr (ev : EdgeEvent) (v : Byte) (s : State) : exec (edgeInstr ev v) s = s.handleEdge ev.line ev.pol v := by
  obtain ⟨line, pol⟩ := ev
  cases line <;> cases pol <;> rfl

/-- A level read back carries the bit it was driven for (30_encoding.md R100). -/
@[simp] theorem bitOfLevel_levelOfBit (one : Level) (b : Bool) : bitOfLevel one (levelOfBit one b) = b := by
  cases one <;> cases b <;> rfl

/-- The capture of a bit leaves the transmitting half of the engine (41_framer.md R149). -/
theorem newBitReceived_sameTransmit (P : Params) (bit : Bool) (e : Engine) : SameTransmit (e.newBitReceived P bit) e := by
  rcases newBitReceived_cases P bit e with ⟨_, he⟩ | ⟨_, _, he⟩ | ⟨_, _, he⟩ <;> rw [he] <;> exact ⟨rfl, rfl, rfl⟩

/-- The overrun of 60_exceptions.md R223 is the capture of an eighth bit at a full receive buffer. -/
theorem overruns_iff (r : Role) (ev : EdgeEvent) (e : Engine) :
    (ev = ⟨.reqIn, .fall⟩ ∧ e.overrunNext r = true) ↔ Captures r ev.line ev.pol e ∧ e.rxIdx = 6 ∧ e.rx.isFull = true := by
  obtain ⟨line, pol⟩ := ev
  simp only [Engine.overrunNext, Captures, EdgeEvent.mk.injEq, Bool.and_eq_true, beq_iff_eq]
  tauto

/-- What a link whose environment keeps the rules gives about an event at the active node, with live level `dc`: the cursors of both directions
agree, and a strobe that captures a bit finds the peer driving the bit of its byte (R167, R173). -/
structure EventAgrees (s : State) (ev : EdgeEvent) (dc : Level) : Prop where
  inv : Inv s
  initialised : ∀ x, (s.node x).initialised = true
  indices : ∀ x, IndicesAgree (s.node x).engine (s.node (peerOf x)).engine
  accumulators : s.AccumulatorsAgree
  capture : Captures s.active ev.line ev.pol (s.node s.active).engine →
    (s.node (peerOf s.active)).engine.ls = .dataTransmission ∧
      bitOfLevel s.params.bitLevel dc =
        (s.node (peerOf s.active)).engine.txByte.getLsbD (s.node (peerOf s.active)).engine.txIdx.val

section
variable {s t : State} {ev : EdgeEvent} {v : Byte}

/-- Where a bit is captured, the receiver is one bit behind the sender (30_encoding.md R103). -/
theorem EventAgrees.rxIdx_of_captures {dc : Level} (h : EventAgrees s ev dc)
    (hcap : Captures s.active ev.line ev.pol (s.node s.active).engine) :
    (s.node s.active).engine.rxIdx = (s.node (peerOf s.active)).engine.txIdx - 1 := by
  have hidx := h.indices (peerOf s.active)
  obtain ⟨_, _, _, hls⟩ := id hcap
  simpa only [peerOf_peerOf, IndicesAgree, bitOnTheWire, (h.capture hcap).1, hls, beq_self_eq_true, Bool.and_self, if_true] using hidx

/-- An event leaves the stream of its own node: the bit that T2 asks for was counted already. -/
theorem stream_event_active (h : EventAgrees s ev (levelOperand v)) (ht : exec (edgeInstr ev v) s = .next t) :
    t.stream s.active = s.stream s.active := by
  rw [exec_edgeInstr] at ht
  obtain ⟨_, rfl⟩ := (handleEdge_next s t ev.line ev.pol v).1 ht
  rw [State.finish, stream_commit_active, stream_eq_streamBetween]
  by_cases hcap : Captures s.active ev.line ev.pol (Work.start (s.node s.active).engine).engine
  · rw [handleEdge_of_captures hcap]
    have hsnd := newBitReceived_sameTransmit s.params (bitOfLevel s.params.bitLevel (levelOperand v)) (s.node s.active).engine
    exact streamBetween_congr ⟨hsnd.tx, hsnd.txIdx, hsnd.txByte⟩ (.refl _)
  · rcases handleEdge_noCapture (P := s.params) hcap (levelOperand v) with ⟨hls, hsnd, _⟩ | ⟨hsnd, _⟩
    · have hidx := h.indices s.active
      rw [start_engine] at hls
      simp only [IndicesAgree, bitOnTheWire, hls] at hidx
      rw [streamBetween_congr hsnd (.refl _)]
      exact streamBetween_nextBitToSend _ _ _ _ (h.inv.engines _ (h.initialised _)).tx_range hidx
    · exact streamBetween_congr hsnd (.refl _)

/-- The stream towards a node after it has captured a bit. -/
theorem stream_of_captures (ht : exec (edgeInstr ev v) s = .next t)
    (hcap : Captures s.active ev.line ev.pol (s.node s.active).engine) :
    t.stream (peerOf s.active) =
      streamBetween s.params (peerOf s.active) (s.node (peerOf s.active)).engine
        ((s.node s.active).engine.newBitReceived s.params (bitOfLevel s.params.bitLevel (levelOperand v))) := by
  rw [exec_edgeInstr] at ht
  obtain ⟨_, rfl⟩ := (handleEdge_next s t ev.line ev.pol v).1 ht
  rw [State.finish, stream_commit_peer, handleEdge_of_captures (k := Work.start (s.node s.active).engine) hcap]
  exact streamBetween_congr (.refl _) ⟨rfl, rfl⟩

/-- An event that does not overrun leaves the stream towards its node: a captured bit moves no byte, or the byte in flight to the receive
queue. -/
theorem stream_event_peer (h : EventAgrees s ev (levelOperand v)) (ht : exec (edgeInstr ev v) s = .next t)
    (hroom : ¬ (ev = ⟨.reqIn, .fall⟩ ∧ (s.node s.active).engine.overrunNext s.active = true)) :
    t.stream (peerOf s.active) = s.stream (peerOf s.active) := by
  rw [overruns_iff, not_and] at hroom
  by_cases hcap : Captures s.active ev.line ev.pol (s.node s.active).engine
  · have hacc := h.accumulators (peerOf s.active)
    rw [peerOf_peerOf] at hacc
    rw [stream_of_captures ht hcap, stream_eq_streamBetween, peerOf_peerOf]
    exact streamBetween_newBitReceived (h.rxIdx_of_captures hcap) hacc (h.inv.engines _ (h.initialised _)).rx_range
      (h.capture hcap).2 (hroom hcap)
  · rw [exec_edgeInstr] at ht
    obtain ⟨_, rfl⟩ := (handleEdge_next s t ev.line ev.pol v).1 ht
    rw [State.finish, stream_commit_peer, stream_eq_streamBetween, peerOf_peerOf]
    rcases handleEdge_noCapture (P := s.params) (k := Work.start (s.node s.active).engine) hcap (levelOperand v) with
      ⟨_, _, hrcv⟩ | ⟨_, hrcv⟩ <;>
      exact streamBetween_congr (.refl _) hrcv

/-- An event that overruns takes exactly the byte in flight from the stream towards its node (R144, R223). -/
theorem stream_event_overrun (h : EventAgrees s ev (levelOperand v)) (ht : exec (edgeInstr ev v) s = .next t)
    (hover : ev = ⟨.reqIn, .fall⟩ ∧ (s.node s.active).engine.overrunNext s.active = true) :
    s.inFlight (peerOf s.active) = [(s.node (peerOf s.active)).engine.txByte] ∧
      t.stream (peerOf s.active) = s.rxQueue s.active ++ s.txQueue (peerOf s.active) := by
  obtain ⟨hcap, h6, hfull⟩ := (overruns_iff _ _ _).1 hover
  rw [stream_of_captures ht hcap]
  obtain ⟨hflight, hstream⟩ := streamBetween_overrun (P := s.params) (x := peerOf s.active)
    (bit := bitOfLevel s.params.bitLevel (levelOperand v)) (h.rxIdx_of_captures hcap) h6 hfull
  refine ⟨?_, ?_⟩
  · rwa [State.inFlight, peerOf_peerOf]
  · rwa [peerOf_peerOf] at hstream

/-- What an event does to either stream. -/
theorem stream_event (h : EventAgrees s ev (levelOperand v)) (ht : exec (edgeInstr ev v) s = .next t) (x : Role) :
    (ev = ⟨.reqIn, .fall⟩ ∧ s.active = peerOf x ∧ (s.node (peerOf x)).engine.overrunNext (peerOf x) = true →
      s.inFlight x = [(s.node x).engine.txByte] ∧ t.stream x = s.rxQueue (peerOf x) ++ s.txQueue x) ∧
    (¬ (ev = ⟨.reqIn, .fall⟩ ∧ s.active = peerOf x ∧ (s.node (peerOf x)).engine.overrunNext (peerOf x) = true) →
      t.stream x = s.stream x) := by
  rcases eq_or_eq_peerOf s.active x with hx | hx <;> rw [hx]
  · exact ⟨fun hover => absurd hover.2.1 (ne_peerOf _), fun _ => stream_event_active h ht⟩
  · rw [peerOf_peerOf]
    exact ⟨fun hover => stream_event_overrun h ht ⟨hover.1, hover.2.2⟩,
      fun hroom => stream_event_peer h ht fun hover => hroom ⟨hover.1, rfl, hover.2⟩⟩

end

/-! ### The schedule of a rule-keeping environment -/

/-- Node `a` is given the edge operation of its oldest pending event, with the live level of `DC_IN` (20_memory.md R75). -/
def HandlesOldestEvent (s : State) (a : Role) (i : Instr) : Prop :=
  ∃ ev rest, (s.node a).pend = ev :: rest ∧ i = edgeInstr ev ((s.lineRead a .dcIn).code.setWidth 8)

/-- Event entry gives the operation of the oldest event. -/
theorem handlesOldestEvent_of_takeEvent {s u : State} {y : Role} {w : OpWord} (h : s.takeEvent y = (some w, u)) :
    HandlesOldestEvent s u.active (decode w) := by
  rcases takeEvent_cases s y with ⟨ev, rest, _, hpend, he⟩ | ⟨_, he⟩
  · rw [h, Prod.mk.injEq, Option.some.injEq] at he
    obtain ⟨rfl, rfl⟩ := he
    exact ⟨ev, rest, hpend, decode_edgeWord ev _⟩
  · rw [h] at he
    cases he

/-- The action that is taken plays no part in the event. -/
theorem HandlesOldestEvent.of_withSchedule {s : State} {a : Role} {i : Instr} {rest : List Action}
    (h : HandlesOldestEvent { s with schedule := rest } a i) : HandlesOldestEvent s a i := by
  simpa [HandlesOldestEvent] using h

/-- A rule-keeping environment gives an application operation, or the edge operation of a node's oldest event (60_exceptions.md R244,
70_reset_and_hazards.md R263). -/
theorem nextOperation_lawful {s u : State} {w : OpWord} (hlaw : ∀ a ∈ s.schedule, lawful a = true)
    (h : s.nextOperation = (some w, u)) : lawfulInstr (decode w) = true ∨ HandlesOldestEvent s u.active (decode w) := by
  cases hsched : s.schedule with
  | nil => simp [State.nextOperation, hsched] at h
  | cons a rest =>
    have hhead : lawful a = true := hlaw a (by simp [hsched])
    cases a with
    | operation x v =>
      rw [nextOperation_operation s x v rest hsched] at h
      cases h
      exact .inl hhead
    | deliver y =>
      rw [nextOperation_deliver s y rest hsched] at h
      exact .inr (handlesOldestEvent_of_takeEvent h).of_withSchedule
    | arbitrate x v =>
      cases hready : s.eventReady x with
      | true =>
        rw [nextOperation_arbitrate_ready s x v rest hsched hready] at h
        exact .inr (handlesOldestEvent_of_takeEvent h)
      | false =>
        rw [nextOperation_arbitrate_notReady s x v rest hsched hready] at h
        cases h
        exact .inl hhead
    | lose y k => cases hhead
    | overtake y k => cases hhead
    | misreport y k => cases hhead

/-! ### The step -/

/-- In every joint state of a rule-keeping link, a strobe at the head of the queue of a node that is ready for data comes from a peer that is
transmitting (R167). -/
theorem transmission_of_strobe (P : Params) : ∀ p ∈ linkPhases P,
    (p.pend1.head? = some ⟨.reqIn, .fall⟩ → p.ls1 = .readyForData → p.ls2 = .dataTransmission) ∧
      (p.pend2.head? = some ⟨.reqIn, .fall⟩ → p.ls2 = .readyForData → p.ls1 = .dataTransmission) := by
  unfold linkPhases collisionPhases
  split <;> decide

theorem LinkInv.transmission_of_strobe {s : State} (h : LinkInv s) (a : Role) (hhead : (s.node a).pend.head? = some ⟨.reqIn, .fall⟩)
    (hls : (s.node a).engine.ls = .readyForData) : (s.node (peerOf a)).engine.ls = .dataTransmission := by
  obtain ⟨h1, h2⟩ := Machine.transmission_of_strobe s.params s.phase h.phase
  cases a with
  | node1 => exact h1 hhead hls
  | node2 => exact h2 hhead hls

/-- The live level of `DC_IN` during a transmission carries the bit of this transfer (10_state.md R44, 20_memory.md R71). -/
theorem LinkInv.lineRead_of_transmission {s : State} (h : LinkInv s) (a : Role)
    (hls : (s.node (peerOf a)).engine.ls = .dataTransmission) :
    s.lineRead a .dcIn =
      levelOfBit s.params.bitLevel ((s.node (peerOf a)).engine.txByte.getLsbD (s.node (peerOf a)).engine.txIdx.val) := by
  have hinit := h.initialised (peerOf a)
  have hdc := (h.inv.engines (peerOf a) hinit).dc_level
  rw [dcLevelIn, hls] at hdc
  rw [← seenAs_dcOut, lineRead_seenAs, drives_of_initialised _ _ hinit]
  exact hdc

/-- The engines are as in `s`: only queues, the active node and the schedule may differ. -/
structure SameEngines (u s : State) : Prop where
  params : u.params = s.params
  engine : ∀ x, (u.node x).engine = (s.node x).engine
  initialised : ∀ x, (u.node x).initialised = (s.node x).initialised

/-- What the schedule does before an operation touches no engine. -/
theorem sameEngines_nextOperation (s : State) : SameEngines s.nextOperation.2 s where
  params := nextOperation_params s
  engine x := by
    obtain ⟨q, hq, _⟩ := node_nextOperation s x
    rw [hq]
  initialised x := by
    obtain ⟨q, hq, _⟩ := node_nextOperation s x
    rw [hq]

section
variable {s u : State} (h : SameEngines u s) (x : Role)
include h

theorem SameEngines.inFlight : u.inFlight x = s.inFlight x := by simp only [State.inFlight, h.engine]

theorem SameEngines.rxQueue : u.rxQueue x = s.rxQueue x := by simp only [State.rxQueue, h.engine, h.params]

theorem SameEngines.txQueue : u.txQueue x = s.txQueue x := by simp only [State.txQueue, h.engine, h.params]

theorem SameEngines.stream : u.stream x = s.stream x := by
  simp only [State.stream, h.inFlight, h.rxQueue, h.txQueue]

end

/-- The oldest event of a node of a rule-keeping link, when the node handles it. -/
theorem eventAgrees_of_linkInv {s u : State} (h : LinkInv s) (hacc : s.AccumulatorsAgree) (hu : SameEngines u s) (hinv : Inv u)
    {ev : EdgeEvent} (hhead : (s.node u.active).pend.head? = some ev) : EventAgrees u ev (s.lineRead u.active .dcIn) where
  inv := hinv
  initialised x := by rw [hu.initialised]; exact h.initialised x
  indices x := by simpa only [hu.engine] using h.indices x
  accumulators x := by simpa only [hu.engine] using hacc x
  capture hcap := by
    rw [hu.engine] at hcap
    obtain ⟨hline, hpol, _, hls⟩ := hcap
    have hev : ev = ⟨.reqIn, .fall⟩ := by rw [← hline, ← hpol]
    have hsnd := h.transmission_of_strobe u.active (hev ▸ hhead) hls
    rw [hu.engine, hu.params, h.lineRead_of_transmission u.active hsnd, bitOfLevel_levelOfBit]
    exact ⟨hsnd, rfl⟩

/-- Settles O56: an application operation changes the buffers of one node as its rule says; an event asks for a bit or captures one, and
the agreement of the cursors says that this moves a byte between the parts of the stream, but for the overrun. -/
theorem stepConservesTheByteStream : Obligations.StepConservesTheByteStream := by
  intro s t x hlink hacc hlaw hstep
  have hu := sameEngines_nextOperation s
  have hinv := inv_nextOperation s hlink.inv
  refine ⟨fun u hnone => ?_, fun w u hsome => ?_⟩
  · rw [step_of_none s u hnone] at hstep
    cases hstep
    rw [hnone] at hu
    exact hu.stream x
  · rw [step_of_operation s u w hsome] at hstep
    rw [hsome] at hu hinv
    have hengine := hinv.engines u.active (by rw [hu.initialised]; exact hlink.initialised _)
    rcases nextOperation_lawful hlaw hsome with happ | ⟨ev, rest, hpend, hev⟩
    · rw [← hu.stream]
      generalize decode w = i at hstep happ ⊢
      cases i with
      | sendByte b => exact stream_sendByte hstep hengine.tx_range x
      | recvByte v => exact stream_recvByte hstep hengine.rx_range x
      | available v | reserved47 v | reservedCF v => exact stream_finish_start u t _ hstep x
      | init v | edgeReqFall v | edgeReqRise v | edgeDcFall v | edgeDcRise v => cases happ
    · have hagree : EventAgrees u ev (levelOperand ((s.lineRead u.active .dcIn).code.setWidth 8)) := by
        rw [levelOperand_code]
        exact eventAgrees_of_linkInv hlink hacc hu hinv (by rw [hpend]; rfl)
      rw [hev] at hstep ⊢
      obtain ⟨hover, hsame⟩ := stream_event hagree hstep x
      rw [hu.inFlight, hu.rxQueue, hu.txQueue, hu.engine x] at hover
      rw [hu.stream] at hsame
      obtain ⟨line, pol⟩ := ev
      cases line with
      | reqIn =>
        cases pol with
        | fall =>
          change ite _ _ _
          split
          next hover' => exact hover ⟨rfl, hover'⟩
          next hroom => exact hsame fun hc => hroom hc.2
        | rise => exact hsame (by simp)
      | dcIn => cases pol <;> exact hsame (by simp)

end Sys2Proof.Machine
end

section
/-! The events an operation makes for the peer: which lines it writes and in what order, and what the peer's queue gains by it (20_memory.md R72 to
R74, 60_exceptions.md R229 (3)). -/

namespace Sys2Proof.Machine

/-! ### One sample -/

/-- A queue has room for one more event when `PEND_DEPTH` is unbounded or not yet reached (00_scope.md R11). -/
theorem fits_succ_iff (P : Params) (k : Nat) :
    P.fits (k + 1) = true ↔ P.pendDepth = none ∨ ∃ d, P.pendDepth = some d ∧ k < d := by
  cases h : P.pendDepth <;> simp [Params.fits, h]

/-- The events that a sample of line `l` at level `v` makes at a node with room for them: one for a change, none otherwise (R72, R73). -/
def sampleEvents (n : Node) (l : InLine) (v : Level) : List EdgeEvent := if n.seen l = v then [] else [⟨l, polarityTo v⟩]

/-- Where there is room, the queue of an initialised node gains the events of a sample at its tail (R74). -/
theorem observe_pend_of_fits {P : Params} {n : Node} (hinit : n.initialised = true) (hroom : P.fits (n.pend.length + 1) = true)
    (l : InLine) (v : Level) : (n.observe P l v).pend = n.pend ++ sampleEvents n l v := by
  rcases observe_cases P n l v with ⟨hs, e⟩ | ⟨hs, _, _, e⟩ | ⟨_, hno, _⟩
  · simp [e, sampleEvents, hs]
  · simp [e, sampleEvents, hs]
  · simp [hinit, hroom] at hno

/-- A full queue keeps its events and gains none (log entry 13). -/
theorem observe_pend_of_full {P : Params} {n : Node} (hfull : P.fits (n.pend.length + 1) = false) (l : InLine) (v : Level) :
    (n.observe P l v).pend = n.pend := by
  rcases observe_cases P n l v with ⟨_, e⟩ | ⟨_, _, hroom, _⟩ | ⟨_, _, e⟩
  · rw [e]
  · rw [hfull] at hroom
    cases hroom
  · rw [e, setSeen_pend]

/-- Settles O34: the edge detector queues the event of a change exactly when `PEND_DEPTH` leaves room. -/
theorem onlyAFullQueueLosesAnEvent : Obligations.OnlyAFullQueueLosesAnEvent := by
  intro P n l v hinit
  refine ⟨observe_seen_self P n l v, fun hsame => by simp [Node.observe, hsame], fun hchange => ⟨fun hroom => ?_, fun d hd hfull => ?_⟩⟩
  · rw [observe_pend_of_fits hinit ((fits_succ_iff P _).2 hroom), sampleEvents, if_neg hchange]
  · exact observe_pend_of_full (by simpa [Params.fits, hd] using hfull) l v

/-- One sample makes at most one event. -/
theorem observe_pend_grows (P : Params) (n : Node) (l : InLine) (v : Level) :
    ∃ evs, (n.observe P l v).pend = n.pend ++ evs ∧ evs.length ≤ 1 := by
  rcases observe_cases P n l v with ⟨_, e⟩ | ⟨_, _, _, e⟩ | ⟨_, _, e⟩
  · exact ⟨[], by simp [e], Nat.zero_le 1⟩
  · exact ⟨[⟨l, polarityTo v⟩], by rw [e], le_rfl⟩
  · exact ⟨[], by simp [e], Nat.zero_le 1⟩

/-! ### The samples of one operation -/

/-- Each line write makes at most one event. -/
theorem observeEach_pend_grows (P : Params) (n : Node) (ws : List LineWrite) :
    ∃ evs, (n.observeEach P ws).pend = n.pend ++ evs ∧ evs.length ≤ ws.length := by
  induction ws generalizing n with
  | nil => exact ⟨[], by simp, le_rfl⟩
  | cons w ws ih =>
    obtain ⟨first, hfirst, hone⟩ := observe_pend_grows P n (seenAs w.line) w.level
    obtain ⟨others, hothers, hle⟩ := ih (n.observe P (seenAs w.line) w.level)
    refine ⟨first ++ others, ?_, ?_⟩
    · rw [observeEach_cons, hothers, hfirst, List.append_assoc]
    · simp only [List.length_append, List.length_cons]
      omega

/-- The events that the line writes `ws` make at a node with room for them, each line written at most once. -/
def writeEvents (n : Node) (ws : List LineWrite) : List EdgeEvent := ws.flatMap fun w => sampleEvents n (seenAs w.line) w.level

/-- The samples of one line do not bear on the events of the others. -/
theorem writeEvents_observe (P : Params) (n : Node) (w : LineWrite) (ws : List LineWrite) (hw : w.line ∉ ws.map LineWrite.line) :
    writeEvents (n.observe P (seenAs w.line) w.level) ws = writeEvents n ws := by
  refine List.flatMap_congr fun w' hw' => ?_
  have hne : w.line ≠ w'.line := fun h => hw (h ▸ List.mem_map_of_mem hw')
  rw [sampleEvents, sampleEvents, observe_seen, if_neg hne]

/-- Where there is room, the queue gains the events of all the line writes, in their order. -/
theorem observeEach_pend_of_fits {P : Params} {n : Node} {ws : List LineWrite} (hinit : n.initialised = true)
    (hroom : P.fits (n.pend.length + ws.length) = true) (hlines : (ws.map LineWrite.line).Nodup) :
    (n.observeEach P ws).pend = n.pend ++ writeEvents n ws := by
  induction ws generalizing n with
  | nil => simp [writeEvents]
  | cons w ws ih =>
    rw [List.length_cons] at hroom
    rw [List.map_cons, List.nodup_cons] at hlines
    obtain ⟨first, hfirst, hone⟩ := observe_pend_grows P n (seenAs w.line) w.level
    have hrest : P.fits ((n.observe P (seenAs w.line) w.level).pend.length + ws.length) = true := by
      refine fits_mono P _ _ ?_ hroom
      rw [hfirst, List.length_append]
      omega
    rw [observeEach_cons, ih (by rwa [observe_initialised]) hrest hlines.2, writeEvents_observe P n w ws hlines.1,
      observe_pend_of_fits hinit (fits_mono P _ _ (by omega) hroom), List.append_assoc]
    rfl

/-- A line that is not written keeps its level. -/
theorem levelAfter_of_notMem (l : OutLine) (ws : List LineWrite) (v : Level) (h : l ∉ ws.map LineWrite.line) :
    levelAfter l ws v = v := by
  induction ws with
  | nil => rfl
  | cons w ws ih =>
    rw [List.map_cons, List.mem_cons, not_or] at h
    rw [levelAfter_cons, if_neg (Ne.symm h.1), ih h.2]

/-- The events of one sample are events of its line. -/
theorem filter_sampleEvents (n : Node) (l m : OutLine) (v : Level) :
    (sampleEvents n (seenAs m) v).filter (fun ev => ev.line == seenAs l) = if m = l then sampleEvents n (seenAs m) v else [] := by
  unfold sampleEvents
  cases l <;> cases m <;> split <;> simp

/-- Each line has one event if the level it is left at differs from the level seen before, and else none (R72, R73). -/
theorem filter_writeEvents (n : Node) (l : OutLine) (ws : List LineWrite) (hlines : (ws.map LineWrite.line).Nodup) :
    (writeEvents n ws).filter (fun ev => ev.line == seenAs l) = sampleEvents n (seenAs l) (levelAfter l ws (n.seen (seenAs l))) := by
  induction ws with
  | nil => simp [writeEvents, sampleEvents]
  | cons w ws ih =>
    rw [List.map_cons, List.nodup_cons] at hlines
    have hcons : writeEvents n (w :: ws) = sampleEvents n (seenAs w.line) w.level ++ writeEvents n ws := rfl
    rw [hcons, List.filter_append, filter_sampleEvents, ih hlines.2, levelAfter_cons]
    by_cases hl : w.line = l
    · have hnone := hl ▸ hlines.1
      simp [hl, levelAfter_of_notMem l ws _ hnone, sampleEvents]
    · simp [hl]

/-- The lines of the events come in the order of the line writes. -/
theorem writeEvents_lines (n : Node) (ws : List LineWrite) :
    ((writeEvents n ws).map EdgeEvent.line).Sublist ((ws.map LineWrite.line).map seenAs) := by
  induction ws with
  | nil => exact .slnil
  | cons w ws ih =>
    have hcons : writeEvents n (w :: ws) = sampleEvents n (seenAs w.line) w.level ++ writeEvents n ws := rfl
    have hfirst : ((sampleEvents n (seenAs w.line) w.level).map EdgeEvent.line).Sublist [seenAs w.line] := by
      unfold sampleEvents
      split <;> simp
    rw [hcons, List.map_append]
    exact hfirst.append ih

/-! ### The line writes of an operation -/

/-- The order in which an operation writes lines: `REQ_OUT` first only in `INIT` and in the yield T6 (42_link_state_machine.md R170, R200). -/
def writeOrder : Instr → List OutLine
  | .init _ | .edgeReqFall _ => [.reqOut, .dcOut]
  | .sendByte _ | .recvByte _ | .available _ | .edgeReqRise _ | .edgeDcFall _ | .edgeDcRise _ | .reserved47 _ | .reservedCF _ =>
    [.dcOut, .reqOut]

theorem complete_writes (r : Role) (k : Work) :
    (complete r k).writes = k.writes ∨ (complete r k).writes = k.writes ++ [⟨.reqOut, .low⟩] := by
  rcases complete_cases r k with ⟨_, he⟩ | ⟨_, he⟩ <;> rw [he]
  · exact .inl rfl
  · exact .inr rfl

/-- An edge operation writes each line at most once, in its order. -/
theorem handleEdge_lines (P : Params) (r : Role) (ev : EdgeEvent) (v : Byte) (e : Engine) :
    ((handleEdge P r ev.line ev.pol (levelOperand v) (Work.start e)).writes.map LineWrite.line).Sublist
      (writeOrder (edgeInstr ev v)) := by
  obtain ⟨line, pol⟩ := ev
  rcases handleEdge_cases P r line pol (levelOperand v) (Work.start e) with
    ⟨rfl, rfl, _, _, hk⟩ | ⟨rfl, rfl, _, _, hk⟩ | ⟨rfl, rfl, _, _, hk⟩ | ⟨rfl, rfl, _, _, hk⟩ | ⟨rfl, rfl, _, _, hk⟩ |
    ⟨rfl, rfl, _, _, _, hk⟩ | ⟨rfl, rfl, _, _, hk⟩ | ⟨rfl, rfl, _, _, hk⟩ | ⟨rfl, rfl, _, _, hk⟩ | hk
  all_goals simp only [hk]
  · exact (by decide : [OutLine.reqOut].Sublist [.dcOut, .reqOut])
  · exact (by decide : [OutLine.dcOut, .reqOut].Sublist [.dcOut, .reqOut])
  · exact (by decide : [OutLine.dcOut, .reqOut].Sublist [.dcOut, .reqOut])
  · rw [transitionT4]
    rcases complete_writes r (Work.start _) with hw | hw <;> rw [hw] <;> simp [edgeInstr, writeOrder]
  · exact (by decide : [OutLine.dcOut].Sublist [.reqOut, .dcOut])
  · exact (by decide : [OutLine.reqOut, .dcOut].Sublist [.reqOut, .dcOut])
  · exact (by decide : [OutLine.dcOut].Sublist [.dcOut, .reqOut])
  · exact (by decide : [OutLine.dcOut].Sublist [.reqOut, .dcOut])
  · rw [transitionT9]
    rcases complete_writes r (Work.lineWrite .dcOut .high (Work.start _)) with hw | hw <;> rw [hw] <;> simp [edgeInstr, writeOrder]
  · exact List.nil_sublist _

theorem sendByteWork_lines (P : Params) (r : Role) (b : Byte) (e : Engine) :
    ((sendByteWork P r b e).1.writes.map LineWrite.line).Sublist [.dcOut, .reqOut] := by
  rcases sendByteWork_cases P r b e with ⟨_, _, he⟩ | ⟨_, he⟩ <;> rw [he]
  · exact (by decide : [OutLine.reqOut].Sublist [.dcOut, .reqOut])
  · exact List.nil_sublist _

/-- `exec_commits` with the lines an operation writes: each at most once, in the order of `writeOrder`. -/
theorem exec_commits_inOrder (i : Instr) (s t : State) (h : exec i s = .next t) :
    ∃ n ws, t = s.commit n ws ∧ (ws.map LineWrite.line).Sublist (writeOrder i) := by
  have hedge : ∀ (ev : EdgeEvent) (v : Byte), exec (edgeInstr ev v) s = .next t →
      ∃ n ws, t = s.commit n ws ∧ (ws.map LineWrite.line).Sublist (writeOrder (edgeInstr ev v)) := by
    intro ev v hexec
    rw [exec_edgeInstr] at hexec
    obtain ⟨_, rfl⟩ := (handleEdge_next s t ev.line ev.pol v).1 hexec
    exact ⟨_, _, rfl, handleEdge_lines _ _ ev v _⟩
  cases i with
  | init v =>
    cases h
    exact ⟨_, _, rfl, .refl _⟩
  | sendByte b =>
    obtain ⟨_, rfl⟩ := (whenInitialised_next s _ t).1 h
    exact ⟨_, _, rfl, sendByteWork_lines _ _ _ _⟩
  | recvByte v | available v | reserved47 w | reservedCF w =>
    obtain ⟨_, rfl⟩ := (whenInitialised_next s _ t).1 h
    exact ⟨_, _, rfl, List.nil_sublist _⟩
  | edgeReqFall v => exact hedge ⟨.reqIn, .fall⟩ v h
  | edgeReqRise v => exact hedge ⟨.reqIn, .rise⟩ v h
  | edgeDcFall v => exact hedge ⟨.dcIn, .fall⟩ v h
  | edgeDcRise v => exact hedge ⟨.dcIn, .rise⟩ v h

/-- The order in which the peer's shim sees the lines of an operation (60_exceptions.md R229 (3)). -/
def lineOrder (P : Params) (i : Instr) : List OutLine := if P.tellsOrder then writeOrder i else [.dcOut, .reqOut]

theorem writeOrder_eq (i : Instr) :
    writeOrder i = if (∃ v, i = .init v) ∨ ∃ v, i = .edgeReqFall v then [.reqOut, .dcOut] else [.dcOut, .reqOut] := by
  cases i <;> simp [writeOrder]

theorem lineOrder_eq (P : Params) (i : Instr) :
    lineOrder P i =
      if P.tellsOrder = true ∧ ((∃ v, i = .init v) ∨ ∃ v, i = .edgeReqFall v) then [.reqOut, .dcOut] else [.dcOut, .reqOut] := by
  rw [lineOrder, writeOrder_eq, ite_and]

theorem lineOrder_nodup (P : Params) (i : Instr) : (lineOrder P i).Nodup := by
  rw [lineOrder_eq]
  split <;> decide

theorem lineOrder_length (P : Params) (i : Instr) : (lineOrder P i).length = 2 := by
  rw [lineOrder_eq]
  split <;> rfl

/-- The line writes reach the peer's shim in the order of R229 (3). -/
theorem arrivalOrder_lines (P : Params) (i : Instr) (ws : List LineWrite) (h : (ws.map LineWrite.line).Sublist (writeOrder i)) :
    ((arrivalOrder P ws).map LineWrite.line).Sublist (lineOrder P i) := by
  have hline : ∀ l : OutLine, ((ws.filter fun w => w.line == l).map LineWrite.line).Sublist [l] := by
    intro l
    have hfilter := h.filter (· == l)
    rw [List.filter_map] at hfilter
    refine hfilter.trans ?_
    rw [writeOrder_eq]
    cases l <;> split <;> decide
  unfold arrivalOrder lineOrder
  split
  · exact h
  · rw [List.map_append]
    exact (hline .dcOut).append (hline .reqOut)

/-! ### The peer's queue -/

/-- Settles O35: the peer's shim is all of the peer that an operation touches, and an operation writes each line at most once. -/
theorem operationLeavesThePeersEngine : Obligations.OperationLeavesThePeersEngine := by
  rintro s t i p q h rfl rfl
  obtain ⟨n, ws, rfl, hlines⟩ := exec_commits_inOrder i s t h
  rw [commit_node_peer]
  refine ⟨observeAll_engine _ _ _, observeAll_initialised _ _ _, observeAll_rsp _ _ _, observeAll_emptyReads _ _ _,
    observeEach_pend_of_uninitialised _ _ _, ?_⟩
  obtain ⟨evs, hevs, hle⟩ := observeEach_pend_grows s.params (s.node (peerOf s.active)) (arrivalOrder s.params ws)
  have htwo := (arrivalOrder_lines s.params i ws hlines).length_le
  rw [List.length_map, lineOrder_length] at htwo
  exact ⟨evs, hevs, hle.trans htwo⟩

/-- Settles O33: the peer has seen the wires before the operation and after it, so the events of its line writes are those of the changed
lines, and they go in the order of R229 (3). -/
theorem eachLineChangeMakesOneEvent : Obligations.EachLineChangeMakesOneEvent := by
  intro s t i hinv h hinit hroom
  have hbefore := fun l => (detectors_iff s).1 hinv.detectors (peerOf s.active) l
  have hafter := fun l => (detectors_iff t).1 (exec_inv i hinv h).detectors (peerOf s.active) l
  obtain ⟨n, ws, rfl, hwrites⟩ := exec_commits_inOrder i s t h
  have hlines := arrivalOrder_lines s.params i ws hwrites
  have hnodup := (lineOrder_nodup s.params i).sublist hlines
  have htwo := hlines.length_le
  rw [List.length_map, lineOrder_length] at htwo
  simp only [peerOf_peerOf] at hbefore hafter
  simp only [commit_node_peer, observeAll_seen] at hafter
  refine ⟨writeEvents (s.node (peerOf s.active)) (arrivalOrder s.params ws), ?_, fun l => ?_, fun a b hab => ?_⟩
  · rw [commit_node_peer]
    exact observeEach_pend_of_fits hinit (fits_mono _ _ _ (by omega) hroom) hnodup
  · rw [filter_writeEvents _ l _ hnodup, levelAfter_arrivalOrder, wireLevel_outWire, wireLevel_outWire, ← hafter, ← hbefore,
      sampleEvents]
    simp only [eq_comm]
  · have horder := (writeEvents_lines (s.node (peerOf s.active)) (arrivalOrder s.params ws)).trans (hlines.map seenAs)
    rw [hab] at horder
    have heq := horder.eq_of_length (by simp [lineOrder_length])
    rw [lineOrder_eq] at heq
    split at heq
    next hfirst =>
      rw [if_pos hfirst]
      simpa using heq
    next hsecond =>
      rw [if_neg hsecond]
      simpa using heq

end Sys2Proof.Machine
end

section
/-! `AVAILABLE` answers and changes nothing else (20_memory.md R65, 43_application_api.md R203). -/

namespace Sys2Proof.Machine

/-- An operation without line writes leaves the peer. -/
theorem commit_nil (s : State) (n : Node) : s.commit n [] = s.setNode s.active n := by
  refine state_ext _ _ (by simp) (fun x => ?_) (by simp) (by simp)
  rcases eq_or_eq_peerOf s.active x with hx | hx <;> rw [hx] <;> simp

/-- A node put where it is already. -/
theorem setNode_self (s : State) (x : Role) : s.setNode x (s.node x) = s := by
  cases x <;> rfl

/-- `AVAILABLE` at an initialised node only sets the response (R203). -/
theorem exec_available (s : State) (v : Byte) (h : (s.node s.active).initialised = true) :
    exec (.available v) s =
      .next (s.setNode s.active
        { s.node s.active with rsp := { ok := (s.node s.active).engine.rx.isNonempty, data := 0x00#8 } }) := by
  rw [exec, execAvailable, whenInitialised_of_initialised _ _ h, State.finish, start_writes, commit_nil, start_engine]

/-- Settles O17: the response that the second `AVAILABLE` sets is already there, since the first left the receive buffer. -/
theorem availableIsIdempotent : Obligations.AvailableIsIdempotent := by
  intro s t v w h
  have hinit := ((whenInitialised_next s _ t).1 h).1
  rw [exec_available s v hinit] at h
  cases h
  rw [exec_available _ w (by simpa using hinit)]
  simp only [setNode_active, node_setNode_self]
  cases s.active <;> rfl

end Sys2Proof.Machine
end

section
/-! The operation word as an opcode and an operand (30_encoding.md R90), and decoding as the inverse of encoding (R91, R95, R101). -/

namespace Sys2Proof

/-! ### The fields of a packed word -/

@[simp] theorem operandField_packWord (op : BitVec 4) (v : Byte) : operandField (packWord op v) = v :=
  BitVec.extractLsb'_append_eq_right

/-- The opcode stands above the eight bits of the operand. -/
theorem getLsbD_packWord (op : BitVec 4) (v : Byte) (i : Nat) : (packWord op v).getLsbD (8 + i) = op.getLsbD i := by
  rw [packWord, BitVec.getLsbD_append, if_neg (by omega), Nat.add_sub_cancel_left]

@[simp] theorem classBit_packWord (op : BitVec 4) (v : Byte) : classBit (packWord op v) = op.getLsbD 3 :=
  getLsbD_packWord op v 3

@[simp] theorem zBit_packWord (op : BitVec 4) (v : Byte) : zBit (packWord op v) = op.getLsbD 2 :=
  getLsbD_packWord op v 2

@[simp] theorem f1Bit_packWord (op : BitVec 4) (v : Byte) : f1Bit (packWord op v) = op.getLsbD 1 :=
  getLsbD_packWord op v 1

@[simp] theorem f0Bit_packWord (op : BitVec 4) (v : Byte) : f0Bit (packWord op v) = op.getLsbD 0 :=
  getLsbD_packWord op v 0

/-- A word is its high bits in front of its low bits. -/
theorem high_append_low {m n : Nat} (w : BitVec (m + n)) : w.extractLsb' n m ++ w.extractLsb' 0 n = w := by
  rw [BitVec.extractLsb'_append_extractLsb'_eq_extractLsb' (Nat.zero_add n).symm, BitVec.extractLsb'_eq_self]

/-- A field of a word, bit by bit. -/
theorem extractLsb'_eq_iff {m n : Nat} (w : BitVec n) (k : Nat) (b : BitVec m) :
    w.extractLsb' k m = b ↔ ∀ i < m, w.getLsbD (k + i) = b.getLsbD i := by
  rw [BitVec.eq_of_getLsbD_eq_iff]
  refine forall₂_congr fun i hi => ?_
  rw [BitVec.getLsbD_extractLsb', decide_eq_true hi, Bool.true_and]

/-- A word is its opcode packed with its operand field (R90). -/
theorem packWord_operandField {op : BitVec 4} {w : OpWord} (hc : classBit w = op.getLsbD 3) (hz : zBit w = op.getLsbD 2)
    (h1 : f1Bit w = op.getLsbD 1) (h0 : f0Bit w = op.getLsbD 0) : packWord op (operandField w) = w := by
  have hop : w.extractLsb' 8 4 = op := (extractLsb'_eq_iff w 8 op).2 fun
    | 0, _ => h0
    | 1, _ => h1
    | 2, _ => hz
    | 3, _ => hc
  rw [packWord, operandField, ← hop]
  exact high_append_low (m := 4) (n := 8) w

/-! ### The reserved blocks -/

/-- The mask of the reserved blocks leaves the two highest bits of a word, which are its class and `z` bits (R90, R95). -/
theorem and_blockMask_eq_iff (w : OpWord) (b : BitVec 2) :
    w &&& 0xC00#12 = b ++ 0#10 ↔ classBit w = b.getLsbD 1 ∧ zBit w = b.getLsbD 0 := by
  have hmask : (0xC00#12 : OpWord) = BitVec.allOnes 2 ++ 0#10 := by decide
  have hand : w &&& 0xC00#12 = w.extractLsb' 10 2 ++ 0#10 := by
    rw [hmask]
    conv_lhs => rw [← high_append_low (m := 2) (n := 10) w, BitVec.and_append, BitVec.and_allOnes, BitVec.and_zero]
  rw [hand, BitVec.append_left_inj, extractLsb'_eq_iff]
  constructor
  · exact fun h => ⟨h 1 (by decide), h 0 (by decide)⟩
  · exact fun ⟨hc, hz⟩ => fun
      | 0, _ => hz
      | 1, _ => hc

/-- A word of opcode 4 to 7 has `c = 0` and `z = 1` (R101). -/
theorem wellFormed_reserved47_iff (w : OpWord) : WellFormed (.reserved47 w) ↔ classBit w = false ∧ zBit w = true :=
  beq_iff_eq.trans (and_blockMask_eq_iff w 0b01#2)

/-- A word of opcode 0xC to 0xF has `c = 1` and `z = 1` (R101). -/
theorem wellFormed_reservedCF_iff (w : OpWord) : WellFormed (.reservedCF w) ↔ classBit w = true ∧ zBit w = true :=
  beq_iff_eq.trans (and_blockMask_eq_iff w 0b11#2)

/-! ### Encoding and decoding -/

/-- Settles O2: the four opcode bits of the packed word name the row, and its operand field is the operand; a reserved word is its own word,
and its block shows in its class and `z` bits. -/
theorem decodeOfEncode : Obligations.DecodeOfEncode := by
  intro i hi
  cases i with
  | init v | sendByte v | recvByte v | available v | edgeReqFall v | edgeReqRise v | edgeDcFall v | edgeDcRise v =>
    simp [encode, decode]
  | reserved47 w =>
    obtain ⟨hc, hz⟩ := (wellFormed_reserved47_iff w).1 hi
    simp [encode, decode, hc, hz]
  | reservedCF w =>
    obtain ⟨hc, hz⟩ := (wellFormed_reservedCF_iff w).1 hi
    simp [encode, decode, hc, hz]

/-- Settles O3: `decode` splits the words by the four opcode bits; in each case they are the opcode that `encode` packs again. -/
theorem encodeOfDecode : Obligations.EncodeOfDecode := by
  intro w
  unfold decode
  split
  next hz hc => exact ⟨(wellFormed_reserved47_iff w).2 ⟨hc, hz⟩, rfl⟩
  next hz hc => exact ⟨(wellFormed_reservedCF_iff w).2 ⟨hc, hz⟩, rfl⟩
  all_goals
    next hz hc h1 h0 => exact ⟨rfl, packWord_operandField hc hz h1 h0⟩

/-- Settles O1: each word is the encoding of the operation it is said to stand for. -/
theorem specWordsDecode : Obligations.SpecWordsDecode :=
  ⟨decodeOfEncode (.init 0xFF#8) rfl, decodeOfEncode (.sendByte 0x41#8) rfl, decodeOfEncode (.recvByte 0xAB#8) rfl,
    decodeOfEncode (.available 0xFF#8) rfl, decodeOfEncode (.edgeReqFall 0x01#8) rfl, decodeOfEncode (.edgeReqRise 0x00#8) rfl,
    decodeOfEncode (.edgeDcFall 0x00#8) rfl, decodeOfEncode (.edgeDcRise 0x01#8) rfl, decodeOfEncode (.reserved47 0x5A5#12) rfl,
    decodeOfEncode (.reservedCF 0xFFF#12) rfl⟩

/-! ### The opcode map -/

/-- The opcode map has a row for every instruction, which covers its word (R95). -/
theorem opcodeMap_covers_encode (i : Instr) : Laws.RowCovers.Statement i := by
  cases i with
  | init v => exact Laws.RowCovers.init v
  | sendByte v => exact Laws.RowCovers.sendByte v
  | recvByte v => exact Laws.RowCovers.recvByte v
  | available v => exact Laws.RowCovers.available v
  | edgeReqFall v => exact Laws.RowCovers.edgeReqFall v
  | edgeReqRise v => exact Laws.RowCovers.edgeReqRise v
  | edgeDcFall v => exact Laws.RowCovers.edgeDcFall v
  | edgeDcRise v => exact Laws.RowCovers.edgeDcRise v
  | reserved47 w => exact Laws.RowCovers.reserved47 w
  | reservedCF w => exact Laws.RowCovers.reservedCF w

/-- Two rows that cover one word have values that agree on the bits both masks look at. -/
theorem value_and_mask_of_covers {r r' : OpcodeRow} {w : OpWord} (h : r.covers w = true) (h' : r'.covers w = true) :
    r.value &&& r'.mask = r'.value &&& r.mask := by
  rw [OpcodeRow.covers, beq_iff_eq] at h h'
  rw [← h, ← h', BitVec.and_assoc, BitVec.and_assoc, BitVec.and_comm r.mask]

/-- Different rows of the opcode map differ in a bit that both masks look at. -/
theorem eq_of_value_and_mask :
    ∀ r ∈ opcodeMap, ∀ r' ∈ opcodeMap, r.value &&& r'.mask = r'.value &&& r.mask → r = r' := by decide

/-- Settles O4: a word is the encoding of its decoding, whose row covers it; a second row that covers it would clash with the first. -/
theorem everyWordMatchesExactlyOneRow : Obligations.EveryWordMatchesExactlyOneRow := by
  intro w
  obtain ⟨hwf, hword⟩ := encodeOfDecode w
  obtain ⟨row, hmem, hname, hcovers⟩ := opcodeMap_covers_encode (decode w) hwf
  rw [hword] at hcovers
  exact ⟨row, hmem, hcovers, hname, fun other hother hcovers' =>
    eq_of_value_and_mask other hother row hmem (value_and_mask_of_covers hcovers' hcovers)⟩

end Sys2Proof
end

section
/-! The operand bits that no operation reads, and the reserved words (30_encoding.md R92, R93, R101). -/

namespace Sys2Proof.Machine

/-! ### The level operand -/

/-- Only the capture of a bit (T8) reads the level of `DC_IN` (42_link_state_machine.md R164, R173). -/
theorem handleEdge_level_of_not_captures {P : Params} {r : Role} {line : InLine} {pol : Polarity} {k : Work}
    (h : ¬ Captures r line pol k.engine) (dc dc' : Level) : handleEdge P r line pol dc k = handleEdge P r line pol dc' k := by
  cases line with
  | dcIn => rfl
  | reqIn =>
    have hT8 : ¬ (k.engine.dir = peerDir r ∧ k.engine.ls = .readyForData ∧ pol = .fall) :=
      fun ⟨hdir, hls, hpol⟩ => h ⟨rfl, hpol, hdir, hls⟩
    simp only [handleEdge, if_neg hT8]

/-- An edge operation reads the level bit of its operand, and this only when it captures a bit (R93). -/
theorem handleEdge_operand_congr {s : State} {line : InLine} {pol : Polarity} {v v' : Byte}
    (h : v.getLsbD 0 = v'.getLsbD 0 ∨ ¬ Captures s.active line pol (s.node s.active).engine) :
    s.handleEdge line pol v = s.handleEdge line pol v' := by
  unfold State.handleEdge
  rcases h with hbit | hno
  · rw [levelOperand, levelOperand, hbit]
  · rw [handleEdge_level_of_not_captures (k := Work.start _) hno]

/-- Settles O5: the commands but `SEND_BYTE` and the reserved words do not read their operand, and of the edge operations only
`EDGE_REQ_FALL` in `ReadyForData` captures a bit. -/
theorem ignoredOperandBitsHaveNoEffect : Obligations.IgnoredOperandBitsHaveNoEffect := by
  refine ⟨fun v v' s => ⟨rfl, rfl, rfl, ?_, ?_, ?_⟩, fun w w' s => ⟨rfl, rfl⟩, fun v v' s h => ?_⟩
  · exact handleEdge_operand_congr (.inr fun ⟨_, hpol, _⟩ => nomatch hpol)
  · exact handleEdge_operand_congr (.inr fun ⟨hline, _⟩ => nomatch hline)
  · exact handleEdge_operand_congr (.inr fun ⟨hline, _⟩ => nomatch hline)
  · exact handleEdge_operand_congr (h.imp_right fun hls ⟨_, _, _, hready⟩ => hls hready)

/-! ### Reserved words -/

/-- An operation that leaves the engine and writes no line only sets the response port of its node. -/
theorem completes_of_finish_start {i : Instr} {s : State} {rsp : Response}
    (hexec : exec i s = s.whenInitialised (s.finish (Work.start (s.node s.active).engine) rsp))
    (hinit : (s.node s.active).initialised = true) :
    Completes i s { s.node s.active with rsp := rsp } (s.node (peerOf s.active)) :=
  ⟨_, hexec.trans (whenInitialised_of_initialised s _ hinit), by simp [State.finish], by simp [State.finish],
    commit_params _ _ _, commit_active _ _ _, commit_schedule _ _ _⟩

/-- Settles O18: both blocks are the no-operation of R101. -/
theorem reservedWordsDoNothing : Obligations.ReservedWordsDoNothing := by
  rintro s w n rfl hinit
  exact ⟨completes_of_finish_start rfl hinit, completes_of_finish_start rfl hinit⟩

end Sys2Proof.Machine
end

section
/-! The circular buffer (40_circular_buffer.md): what each operation answers (R120 to R122), the buffer as a list (R126, R127) and the use
of the whole array (R125). -/

namespace Sys2Proof.Machine

/-! ### The operations -/

/-- Settles O37: the law of R120 itself. -/
theorem indexSuccessorWraps : Obligations.IndexSuccessorWraps := nextIndex_of_lt

theorem isFull_eq_false_iff (b : Buffer) : b.isFull = false ↔ b.rd ≠ some b.wr := by
  rw [← Bool.not_eq_true, Ne, isFull_iff]

/-- Settles O38: a full buffer, an empty one, and one whose read index is apart from its write index. -/
theorem enqueueResult : Obligations.EnqueueResult := by
  refine fun n b v => ⟨fun hfull => ?full, fun hempty => ?empty, fun r hrd hne => ?partFilled⟩
  case full => exact enqueue_full n b v ((isFull_iff b).2 hfull)
  case empty =>
    have hroom : b.isFull = false := (isFull_eq_false_iff b).2 (by simp [hempty])
    simp [enqueue_notFull n b v hroom, Buffer.isEmpty, hempty]
  case partFilled =>
    have hroom : b.isFull = false := (isFull_eq_false_iff b).2 (by simpa [hrd] using hne)
    simp [enqueue_notFull n b v hroom, Buffer.isEmpty, hrd]

/-- Settles O39: the two cases of the read index; `Memory.read` is the written byte, or else the open one. -/
theorem dequeueResult : Obligations.DequeueResult :=
  fun n f b => ⟨dequeue_empty n f b, dequeue_some n f b⟩

/-! ### The buffer as a list -/

@[simp] theorem length_contents (n : Nat) (f : Nat → Byte) (b : Buffer) : (b.contents n f).length = b.count n := by
  cases hrd : b.rd with
  | none => rw [contents_empty n f b hrd, count_empty n b hrd, List.length_nil]
  | some r => rw [contents_of_some n f b r hrd, List.length_map, List.length_range]

/-- Full is holding `N` bytes (10_state.md R26): when the indices do not meet, the distance between them is below `N`. -/
theorem isFull_iff_count (n : Nat) (b : Buffer) (hb : b.inRange n = true) : b.isFull = true ↔ b.count n = n := by
  obtain ⟨hwr, hlt⟩ := (inRange_iff n b).1 hb
  rw [isFull_iff]
  cases hrd : b.rd with
  | none =>
    rw [count_empty n b hrd]
    exact ⟨nofun, fun hzero => by omega⟩
  | some r =>
    have hr := hlt r hrd
    rw [count_of_some n b r hb hrd, Option.some.injEq]
    split <;> omega

/-- There is room for a byte exactly when fewer than `N` are unread. -/
theorem not_isFull_eq_decide_count (n : Nat) (b : Buffer) (hb : b.inRange n = true) : (!b.isFull) = decide (b.count n < n) := by
  have hle := count_le n b hb
  rw [Bool.eq_iff_iff, Bool.not_eq_true', decide_eq_true_eq, ← Bool.not_eq_true, isFull_iff_count n b hb]
  omega

/-- `ENQUEUE` on the list of unread bytes: it appends when there is room. -/
theorem contents_enqueue_eq_ite (n : Nat) (f : Nat → Byte) (b : Buffer) (v : Byte) (hb : b.inRange n = true) :
    (b.enqueue n v).buf.contents n f = if b.count n < n then b.contents n f ++ [v] else b.contents n f := by
  have hroom := not_isFull_eq_decide_count n b hb
  cases hf : b.isFull with
  | true => rw [if_neg (by simpa [hf] using hroom), enqueue_full n b v hf]
  | false => rw [if_pos (by simpa [hf] using hroom), contents_enqueue n f b v hb hf]

/-- `DEQUEUE` on the list of unread bytes: it answers the head and leaves the tail. -/
theorem dequeue_head_tail (n : Nat) (f : Nat → Byte) (b : Buffer) (hb : b.inRange n = true) :
    (b.dequeue n f).value = (b.contents n f).head? ∧ (b.dequeue n f).buf.contents n f = (b.contents n f).tail := by
  cases hrd : b.rd with
  | none => simp [dequeue_empty n f b hrd, contents_empty n f b hrd]
  | some r =>
    rw [contents_dequeue n f b r hb hrd]
    exact ⟨by rw [dequeue_some n f b r hrd, List.head?_cons], rfl⟩

theorem isNonempty_eq_not_isEmpty_contents (n : Nat) (f : Nat → Byte) (b : Buffer) (hb : b.inRange n = true) :
    b.isNonempty = !(b.contents n f).isEmpty := by
  cases hrd : b.rd with
  | none => simp [Buffer.isNonempty, hrd, contents_empty n f b hrd]
  | some r => simp [Buffer.isNonempty, hrd, contents_dequeue n f b r hb hrd]

/-- Settles O40: each operation through `contents`, and the index ranges, which both keep. -/
theorem bufferRefinesAList : Obligations.BufferRefinesAList := by
  intro n f b v hb
  simp only [length_contents, enqueue_ok]
  obtain ⟨hhead, htail⟩ := dequeue_head_tail n f b hb
  exact ⟨trivial, count_le n b hb, not_isFull_eq_decide_count n b hb, contents_enqueue_eq_ite n f b v hb, hhead, htail,
    isNonempty_eq_not_isEmpty_contents n f b hb, enqueue_inRange n b v hb, dequeue_inRange n f b hb⟩

/-! ### The whole array -/

/-- Bytes that fit are all accepted, in order: the buffer then holds them after those it held. -/
theorem enqueueAll_of_fits (n : Nat) (f : Nat → Byte) (vs : List Byte) (b : Buffer) (hb : b.inRange n = true)
    (hfits : (b.contents n f).length + vs.length ≤ n) :
    (b.enqueueAll n vs).2 = List.replicate vs.length true ∧ (b.enqueueAll n vs).1.inRange n = true ∧
      (b.enqueueAll n vs).1.contents n f = b.contents n f ++ vs := by
  induction vs generalizing b with
  | nil => exact ⟨rfl, hb, (List.append_nil _).symm⟩
  | cons v vs ih =>
    rw [List.length_cons] at hfits
    have hroom : b.count n < n := by
      rw [length_contents] at hfits
      omega
    have hcontents : (b.enqueue n v).buf.contents n f = b.contents n f ++ [v] := by
      rw [contents_enqueue_eq_ite n f b v hb, if_pos hroom]
    have hok : (b.enqueue n v).ok = true := by
      rw [enqueue_ok, not_isFull_eq_decide_count n b hb, decide_eq_true hroom]
    obtain ⟨hoks, hrange, hall⟩ := ih (b.enqueue n v).buf (enqueue_inRange n b v hb) (by
      rw [hcontents, List.length_append, List.length_singleton]
      omega)
    refine ⟨?_, hrange, ?_⟩
    · rw [Buffer.enqueueAll, hok, hoks, List.length_cons, List.replicate_succ]
    · rw [Buffer.enqueueAll, hall, hcontents, List.append_assoc, List.singleton_append]

/-- Settles O41: the bytes all fit, and a buffer with `N` unread bytes is full. -/
theorem capacityIsTheWholeArray : Obligations.CapacityIsTheWholeArray := by
  intro n b vs v hb hempty hlen
  have hnil := contents_empty n (fun _ => 0#8) b hempty
  obtain ⟨hoks, hrange, hall⟩ := enqueueAll_of_fits n (fun _ => 0#8) vs b hb (by simp [hnil, hlen])
  have hcount : (b.enqueueAll n vs).1.count n = n := by
    rw [← length_contents n (fun _ => 0#8), hall, hnil, List.nil_append, hlen]
  refine ⟨hlen ▸ hoks, ?_⟩
  rw [enqueue_ok, (isFull_iff_count n _ hrange).2 hcount, Bool.not_true]

end Sys2Proof.Machine
end

section
/-! The framer (41_framer.md): what each of its two operations does, case by case (R141 to R144), the independence of its cursors (R149) and
the round trip of a byte (R147). -/

namespace Sys2Proof.Machine

/-! ### `NEXT_BIT_TO_SEND` -/

theorem nextBitToSend_emptyPull (P : Params) (r : Role) (e : Engine) (h7 : e.txIdx = 7) (hrd : e.tx.rd = none) :
    e.nextBitToSend P r = (e, false) := by
  simp [Engine.nextBitToSend, h7, dequeue_empty _ _ _ hrd]

theorem nextBitToSend_newByte (P : Params) (r : Role) (e : Engine) (i : Nat) (h7 : e.txIdx = 7) (hrd : e.tx.rd = some i) :
    e.nextBitToSend P r =
      ({ e with
          tx := { e.tx with rd := if nextIndex P.capacity i = e.tx.wr then none else some (nextIndex P.capacity i) }
          txByte := e.tx.mem.read (Config.txStorageAtReset r) i
          txIdx := 0 },
        (e.tx.mem.read (Config.txStorageAtReset r) i).getLsbD 0) := by
  simp [Engine.nextBitToSend, h7, dequeue_some _ _ _ i hrd]

theorem nextBitToSend_insideByte (P : Params) (r : Role) (e : Engine) (h7 : e.txIdx ≠ 7) :
    e.nextBitToSend P r = ({ e with txIdx := e.txIdx + 1 }, e.txByte.getLsbD (e.txIdx + 1).val) := by
  simp [Engine.nextBitToSend, h7]

/-- Settles O43: the three cases of R141 and R142; below index 7 the wrapping successor is the plain one. -/
theorem nextBitToSendResult : Obligations.NextBitToSendResult := by
  refine fun P r e => ⟨nextBitToSend_emptyPull P r e, nextBitToSend_newByte P r e, fun k _ hk => ?_⟩
  have hnext : e.txIdx + 1 = k := by omega
  have h7 : e.txIdx ≠ 7 := by omega
  rw [nextBitToSend_insideByte P r e h7, hnext]

/-! ### `NEW_BIT_RECEIVED` -/

theorem newBitReceived_insideByte (P : Params) (bit : Bool) (e : Engine) (h6 : e.rxIdx ≠ 6) :
    e.newBitReceived P bit = { e with rxIdx := e.rxIdx + 1, rxByte := insertBit e.rxByte bit (e.rxIdx + 1) } := by
  have hnext : e.rxIdx + 1 ≠ 7 := by omega
  rw [Engine.newBitReceived, if_neg hnext]

/-- The eighth bit completes a byte, which is offered to the receive buffer; only a full buffer without `RX_CLEAR_ON_DROP` leaves it in the
accumulator (R143, R144). -/
theorem newBitReceived_eighthBit (P : Params) (bit : Bool) (e : Engine) (h6 : e.rxIdx = 6) :
    e.newBitReceived P bit =
      { e with
        rxIdx := 7
        rx := (e.rx.enqueue P.capacity (insertBit e.rxByte bit 7)).buf
        rxByte := if e.rx.rd = some e.rx.wr ∧ P.rxClearOnDrop = false then insertBit e.rxByte bit 7 else 0x00#8 } := by
  rcases newBitReceived_cases P bit e with ⟨hne, _⟩ | ⟨_, hroom, he⟩ | ⟨_, hfull, he⟩
  · exact absurd h6 hne
  · simp [he, (isFull_eq_false_iff _).1 hroom]
  · cases hc : P.rxClearOnDrop <;> simp [he, enqueue_full _ _ _ hfull, (isFull_iff _).1 hfull, hc]

/-- Settles O44: the byte is `insertBit` of the accumulator, and the index after 6 is the one that completes it. -/
theorem newBitReceivedResult : Obligations.NewBitReceivedResult := by
  refine fun P e b k hk => ⟨insertBit e.rxByte b k, insertBit_getLsbD e.rxByte b k, ?inside, ?pushed, ?dropped⟩
  case inside =>
    intro hk7
    have hnext : e.rxIdx + 1 = k := by omega
    rw [newBitReceived_insideByte P b e (by omega), hnext]
  case pushed =>
    rintro rfl hroom
    have h6 : e.rxIdx = 6 := by omega
    simp [newBitReceived_eighthBit P b e h6, hroom]
  case dropped =>
    rintro rfl hfull
    have h6 : e.rxIdx = 6 := by omega
    cases hc : P.rxClearOnDrop <;>
      simp [newBitReceived_eighthBit P b e h6, enqueue_full _ _ _ ((isFull_iff _).2 hfull), hfull, hc]

/-! ### The two cursors -/

/-- Settles O46: which case an operation is in, and what it does there, is a matter of its own cursor's fields. -/
theorem framerCursorsAreIndependent : Obligations.FramerCursorsAreIndependent := by
  refine fun P r e b ls dir req dc buf idx v => ⟨?transmit, ?receive⟩
  case transmit =>
    rcases nextBitToSend_cases P r e with ⟨h7, hrd, he⟩ | ⟨i, h7, hrd, he⟩ | ⟨h7, he⟩ <;> rw [he]
    · exact nextBitToSend_emptyPull P r _ h7 hrd
    · exact nextBitToSend_newByte P r _ i h7 hrd
    · exact nextBitToSend_insideByte P r _ h7
  case receive =>
    by_cases h6 : e.rxIdx = 6
    · rw [newBitReceived_eighthBit P b e h6]
      exact newBitReceived_eighthBit P b _ h6
    · rw [newBitReceived_insideByte P b e h6]
      exact newBitReceived_insideByte P b _ h6

/-! ### The round trip of a byte -/

/-- The accumulator holds the bits of the sender's byte up to its index, when it held those below before the last bit (R143). -/
theorem accumulatorAgrees_of_insertBit {snd rcv : Engine} {acc : Byte} (h7 : rcv.rxIdx ≠ 7)
    (hacc : ∀ j : Fin 8, acc.getLsbD j.val = (decide (j < rcv.rxIdx) && snd.txByte.getLsbD j.val))
    (hbyte : rcv.rxByte = insertBit acc (snd.txByte.getLsbD rcv.rxIdx.val) rcv.rxIdx) : AccumulatorAgrees snd rcv where
  boundary h := absurd h h7
  bits _ j := by
    rw [hbyte, insertBit_getLsbD, hacc]
    by_cases hj : j = rcv.rxIdx
    · simp [hj]
    · have hval : j.val ≠ rcv.rxIdx.val := by omega
      have hle : j ≤ rcv.rxIdx ↔ j < rcv.rxIdx := by omega
      simp [hval, hle]

/-- One more bit inside a byte, at both ends of the link. -/
theorem AccumulatorAgrees.nextBit {snd rcv : Engine} (h : AccumulatorAgrees snd rcv) (hidx : rcv.rxIdx = snd.txIdx) (hlt : rcv.rxIdx < 6) :
    AccumulatorAgrees { snd with txIdx := snd.txIdx + 1 }
      { rcv with
        rxIdx := rcv.rxIdx + 1
        rxByte := insertBit rcv.rxByte (snd.txByte.getLsbD (snd.txIdx + 1).val) (rcv.rxIdx + 1) } := by
  have hbelow : ∀ j : Fin 8, j ≤ rcv.rxIdx ↔ j < rcv.rxIdx + 1 := by omega
  refine accumulatorAgrees_of_insertBit (acc := rcv.rxByte) (by simp only; omega) (fun j => ?_) (by rw [hidx])
  rw [h.bits (by omega) j, decide_eq_decide.2 (hbelow j)]

theorem relayBits_succ {P : Params} {r : Role} {snd snd' rcv : Engine} {bit : Bool} (hsend : snd.nextBitToSend P r = (snd', bit)) (n : Nat) :
    relayBits P r (n + 1) (snd, rcv) = relayBits P r n (snd', rcv.newBitReceived P bit) := by
  rw [relayBits, relayBit, hsend]

/-- From a common index, the bits up to bit 7 bring the sender's whole byte to the receive buffer. -/
theorem relayBits_restOfByte (P : Params) (r : Role) (n : Nat) (snd rcv : Engine) (htx : snd.txIdx.val + n = 6)
    (hidx : rcv.rxIdx = snd.txIdx) (hacc : AccumulatorAgrees snd rcv) :
    relayBits P r (n + 1) (snd, rcv) =
      ({ snd with txIdx := 7 },
        { rcv with
          rxIdx := 7
          rx := (rcv.rx.enqueue P.capacity snd.txByte).buf
          rxByte := if rcv.rx.rd = some rcv.rx.wr ∧ P.rxClearOnDrop = false then snd.txByte else 0x00#8 }) := by
  induction n generalizing snd rcv with
  | zero =>
    have hrx : rcv.rxIdx = 6 := by omega
    have hlast : snd.txIdx + 1 = 7 := by omega
    have hbyte := insertBit_completes (bit := snd.txByte.getLsbD (7 : Fin 8).val) hacc hrx rfl
    rw [relayBits_succ (nextBitToSend_insideByte P r snd (by omega)), hlast, newBitReceived_eighthBit P _ rcv hrx, hbyte,
      relayBits]
  | succ n ih =>
    rw [relayBits_succ (nextBitToSend_insideByte P r snd (by omega)), newBitReceived_insideByte P _ rcv (by omega)]
    exact ih _ _ (by simp only; omega) (congrArg (· + 1) hidx) (hacc.nextBit hidx (by omega))

/-- Settles O45: the first bit pulls `v`, the one `DEQUEUE` (R148), and lands at index 0 of a clear accumulator; the other seven bits are the rest
of the byte. -/
theorem byteRoundTrip : Obligations.ByteRoundTrip := by
  rintro P r snd rcv i v htx hrd rfl hrx hclear
  have hfirst : rcv.rxIdx + 1 = 0 := by omega
  rw [relayBits_succ (nextBitToSend_newByte P r snd i htx hrd), newBitReceived_insideByte P _ rcv (by omega), hfirst, hclear,
    relayBits_restOfByte P r 6 _ _ rfl rfl ?firstBit, dequeue_some _ _ _ i hrd, hrx]
  case firstBit => exact accumulatorAgrees_of_insertBit (acc := 0x00#8) (by simp) (by simp) rfl

end Sys2Proof.Machine
end

section
/-! The link state machine (42_link_state_machine.md): what an edge operation makes of its node and of the peer's shim, the nine transitions
T1 to T9, and the transition table of R165. -/

namespace Sys2Proof.Machine

/-! ### The end of an edge operation -/

/-- An edge operation at an initialised node ends with the engine and the line writes of `HANDLE_EDGE`; the response port takes `(0, 0x00)`
(R94, R180 to R183). -/
theorem completes_of_handleEdge {s : State} {ev : EdgeEvent} {v : Byte} {k : Work} {n p : Node}
    (hinit : (s.node s.active).initialised = true)
    (hk : handleEdge s.params s.active ev.line ev.pol (levelOperand v) (Work.start (s.node s.active).engine) = k)
    (hn : { s.node s.active with engine := k.engine, rsp := edgeResponse } = n)
    (hp : (s.node (peerOf s.active)).observeAll s.params k.writes = p) : Completes (edgeInstr ev v) s n p := by
  subst hk hn hp
  exact ⟨_, (exec_edgeInstr ev v s).trans ((handleEdge_next s _ ev.line ev.pol v).2 ⟨hinit, rfl⟩), commit_node_active _ _ _,
    commit_node_peer _ _ _, commit_params _ _ _, commit_active _ _ _, commit_schedule _ _ _⟩

/-- An edge that `HANDLE_EDGE` ignores only sets the response port (R176). -/
theorem completes_of_ignored {s : State} {ev : EdgeEvent} {v : Byte} (hinit : (s.node s.active).initialised = true)
    (hk : handleEdge s.params s.active ev.line ev.pol (levelOperand v) (Work.start (s.node s.active).engine) =
      Work.start (s.node s.active).engine) :
    Completes (edgeInstr ev v) s { s.node s.active with rsp := edgeResponse } (s.node (peerOf s.active)) :=
  completes_of_handleEdge hinit hk rfl (observeAll_nil _ _)

/-! ### The transitions of the sender -/

/-- Settles O19: T1 raises the request line. -/
theorem requestConfirmedT1 : Obligations.RequestConfirmedT1 := by
  rintro s v n p e rfl rfl rfl hinit hdir hls
  exact completes_of_handleEdge (ev := ⟨.dcIn, .fall⟩) (k := transitionT1 (Work.start _)) hinit (by simp [handleEdge, hdir, hls]) rfl
    (observeAll_one _ _ _)

/-- The edge asks for a bit: the rise of `DC_IN` at an engine whose request is acknowledged, which is the condition of T2 (R164, R167). -/
def Emits (r : Role) (line : InLine) (pol : Polarity) (e : Engine) : Prop :=
  line = .dcIn ∧ pol = .rise ∧ e.dir = myDir r ∧ e.ls = .requestConfAckReceived

/-- The emission is T2, whatever the rest of the state (R164). -/
theorem handleEdge_of_emits {P : Params} {r : Role} {line : InLine} {pol : Polarity} {k : Work} (h : Emits r line pol k.engine)
    (dc : Level) : handleEdge P r line pol dc k = transitionT2 P r k := by
  obtain ⟨rfl, rfl, hdir, hls⟩ := h
  simp [handleEdge, hdir, hls]

/-- Settles O20: T2 drives the level of the bit, then the strobe. -/
theorem emitBitT2 : Obligations.EmitBitT2 := by
  rintro s v n p e e' b rfl rfl rfl hinit hdir hls hbit
  have hk := handleEdge_of_emits (P := s.params) (k := Work.start _) ⟨rfl, rfl, hdir, hls⟩ (levelOperand v)
  simp only [transitionT2, start_engine, hbit] at hk
  exact completes_of_handleEdge (ev := ⟨.dcIn, .rise⟩) hinit hk rfl (observeAll_dc_req _ _ _ _)

/-- Settles O21: T3 releases the data line, then the strobe. -/
theorem dataConfirmedT3 : Obligations.DataConfirmedT3 := by
  rintro s v n p e rfl rfl rfl hinit hdir hls
  exact completes_of_handleEdge (ev := ⟨.dcIn, .fall⟩) (k := transitionT3 (Work.start _)) hinit (by simp [handleEdge, hdir, hls]) rfl
    (observeAll_dc_req _ _ _ _)

/-- `COMPLETE` with nothing pending (R175). -/
theorem complete_of_not_pending (r : Role) (k : Work) (h : k.engine.txPending = false) :
    complete r k = (k.setLs .idle).setDir .noDirection := by
  simp [complete, h]

/-- `COMPLETE` with data pending (R175, R186). -/
theorem complete_of_pending (r : Role) (k : Work) (h : k.engine.txPending = true) :
    complete r k = ((k.lineWrite .reqOut .low).setDir (myDir r)).setLs .requestSent := by
  rcases complete_cases r k with ⟨hno, _⟩ | ⟨_, he⟩
  · rw [h] at hno
    cases hno
  · exact he

theorem txPending_eq_true_iff (e : Engine) : e.txPending = true ↔ ¬ (e.txIdx = 7 ∧ e.tx.rd = none) := by
  rw [← txPending_eq_false_iff, Bool.not_eq_false]

/-- Settles O22: T4 is `COMPLETE`, which turns on `tx_pending`. -/
theorem senderCompletesT4 : Obligations.SenderCompletesT4 := by
  rintro s v n p e rfl rfl rfl hinit hdir hls
  have hk : handleEdge s.params s.active .dcIn .rise (levelOperand v) (Work.start (s.node s.active).engine) =
      complete s.active (Work.start (s.node s.active).engine) := by
    simp [handleEdge, hdir, hls, transitionT4]
  refine ⟨fun hnone => ?_, fun hsome => ?_⟩
  · rw [complete_of_not_pending _ _ ((txPending_eq_false_iff _).2 hnone)] at hk
    exact completes_of_handleEdge (ev := ⟨.dcIn, .rise⟩) hinit hk rfl (observeAll_nil _ _)
  · rw [complete_of_pending _ _ ((txPending_eq_true_iff _).2 hsome)] at hk
    exact completes_of_handleEdge (ev := ⟨.dcIn, .rise⟩) hinit hk rfl (observeAll_one _ _ _)

/-! ### The transitions of the receiver -/

/-- Settles O23: T5 confirms on the data line. -/
theorem acceptRequestT5 : Obligations.AcceptRequestT5 := by
  rintro s v n p e rfl rfl rfl hinit hdir hls
  exact completes_of_handleEdge (ev := ⟨.reqIn, .fall⟩) (k := transitionT5 s.active (Work.start _)) hinit
    (by simp [handleEdge, hdir, hls]) rfl (observeAll_one _ _ _)

/-- Settles O24: T6 withdraws the request, then confirms; it is the one transition that writes the request line first. -/
theorem yieldT6 : Obligations.YieldT6 := by
  rintro s v n p e hactive rfl rfl rfl hinit hdir hls
  have hk : handleEdge s.params s.active .reqIn .fall (levelOperand v) (Work.start (s.node s.active).engine) =
      transitionT6 .node2 (Work.start s.node2.engine) := by
    simp [handleEdge, hactive, hdir, hls, myDir]
  refine completes_of_handleEdge (ev := ⟨.reqIn, .fall⟩) (by rwa [hactive]) hk ?_ ?_ <;> rw [hactive]
  · rfl
  · exact observeAll_req_dc _ _ _ _

/-- Settles O25: T7 releases the confirmation line. -/
theorem readyForDataT7 : Obligations.ReadyForDataT7 := by
  rintro s v n p e rfl rfl rfl hinit hdir hls
  exact completes_of_handleEdge (ev := ⟨.reqIn, .rise⟩) (k := transitionT7 (Work.start _)) hinit (by simp [handleEdge, hdir, hls]) rfl
    (observeAll_one _ _ _)

/-- The bit that the level in operand bit 0 carries (R93, R100). -/
theorem bitOfLevel_levelOperand (one : Level) (v : Byte) :
    bitOfLevel one (levelOperand v) = if one = .high then v.getLsbD 0 else !v.getLsbD 0 := by
  unfold levelOperand
  cases one <;> cases v.getLsbD 0 <;> rfl

/-- Settles O26: T8 captures the bit of the operand's level, then confirms. -/
theorem captureBitT8 : Obligations.CaptureBitT8 := by
  rintro s v n p e e' rfl rfl rfl hinit hdir hls hbit
  have hk := handleEdge_of_captures (P := s.params) (k := Work.start _) ⟨rfl, rfl, hdir, hls⟩ (levelOperand v)
  simp only [transitionT8, start_engine, bitOfLevel_levelOperand, hbit] at hk
  exact completes_of_handleEdge (ev := ⟨.reqIn, .fall⟩) hinit hk rfl (observeAll_one _ _ _)

/-- Settles O27: T9 releases the confirmation and is then `COMPLETE`, which turns on `tx_pending`. -/
theorem receiverCompletesT9 : Obligations.ReceiverCompletesT9 := by
  rintro s v n p e rfl rfl rfl hinit hdir hls
  have hk : handleEdge s.params s.active .reqIn .rise (levelOperand v) (Work.start (s.node s.active).engine) =
      complete s.active ((Work.start (s.node s.active).engine).lineWrite .dcOut .high) := by
    simp [handleEdge, hdir, hls, transitionT9]
  refine ⟨fun hnone => ?_, fun hsome => ?_⟩
  · rw [complete_of_not_pending _ _ ((txPending_eq_false_iff _).2 hnone)] at hk
    exact completes_of_handleEdge (ev := ⟨.reqIn, .rise⟩) hinit hk rfl (observeAll_one _ _ _)
  · rw [complete_of_pending _ _ ((txPending_eq_true_iff _).2 hsome)] at hk
    exact completes_of_handleEdge (ev := ⟨.reqIn, .rise⟩) hinit hk rfl (observeAll_dc_req _ _ _ _)

/-! ### The transition table -/

/-- Under the direction that belongs to the phase (R40, R41), `HANDLE_EDGE` moves `ls` as the table of R165 says. -/
theorem handleEdge_ls {P : Params} {r : Role} {k : Work} (hdir : k.engine.dir = dirIn r k.engine.ls) (line : InLine) (pol : Polarity)
    (dc : Level) : (handleEdge P r line pol dc k).engine.ls = tableNext r k.engine.txPending k.engine.ls line pol := by
  have hcomplete : ∀ k' : Work, (complete r k').engine.ls = if k'.engine.txPending then .requestSent else .idle := fun k' => by
    rcases complete_cases r k' with ⟨hp, he⟩ | ⟨hp, he⟩ <;> simp [he, hp]
  cases hls : k.engine.ls <;> rw [hls, dirIn] at hdir
  case idle => cases line <;> cases pol <;> simp [handleEdge, tableNext, hls, hdir, transitionT5]
  case requestSent => cases line <;> cases pol <;> cases r <;> simp [handleEdge, tableNext, hls, hdir, transitionT1, transitionT6]
  case requestConfAckReceived => cases line <;> cases pol <;> simp [handleEdge, tableNext, hls, hdir, transitionT2]
  case dataTransmission => cases line <;> cases pol <;> simp [handleEdge, tableNext, hls, hdir, transitionT3]
  case dataTransConfAckReceived => cases line <;> cases pol <;> simp [handleEdge, tableNext, hls, hdir, transitionT4, hcomplete]
  case requestConfirmed => cases line <;> cases pol <;> simp [handleEdge, tableNext, hls, hdir, transitionT7]
  case readyForData => cases line <;> cases pol <;> simp [handleEdge, tableNext, hls, hdir, transitionT8]
  case dataTransConfirmed => cases line <;> cases pol <;> simp [handleEdge, tableNext, hls, hdir, transitionT9, hcomplete]

/-- Every transition leaves its phase, so in a cell of the table that keeps `ls` the edge is ignored (R165, R176). -/
theorem handleEdge_of_tableNext_eq {P : Params} {r : Role} {line : InLine} {pol : Polarity} {k : Work}
    (h : tableNext r k.engine.txPending k.engine.ls line pol = k.engine.ls) (dc : Level) : handleEdge P r line pol dc k = k := by
  rcases handleEdge_cases P r line pol dc k with
    ⟨rfl, rfl, _, hls, _⟩ | ⟨rfl, rfl, _, hls, _⟩ | ⟨rfl, rfl, _, hls, _⟩ | ⟨rfl, rfl, _, hls, _⟩ | ⟨rfl, rfl, _, hls, _⟩ |
    ⟨rfl, rfl, rfl, _, hls, _⟩ | ⟨rfl, rfl, _, hls, _⟩ | ⟨rfl, rfl, _, hls, _⟩ | ⟨rfl, rfl, _, hls, _⟩ | he
  pick_goal 10
  · exact he
  all_goals
    rw [hls] at h
    cases hp : k.engine.txPending <;> simp [tableNext, hp] at h

/-- An operation handles an event exactly when it is the event's edge operation (60_exceptions.md R243). -/
theorem exists_edgeInstr_of_eventOf {i : Instr} {ev : EdgeEvent} (h : eventOf i = some ev) : ∃ v, i = edgeInstr ev v := by
  cases i with
  | edgeReqFall v | edgeReqRise v | edgeDcFall v | edgeDcRise v =>
    cases h
    exact ⟨v, rfl⟩
  | init v | sendByte v | recvByte v | available v | reserved47 v | reservedCF v => cases h

/-- The phase of a sound engine decides its direction (R40, R41). -/
theorem EngineInv.dir_eq_dirIn {P : Params} {r : Role} {e : Engine} (h : EngineInv P r e) : e.dir = dirIn r e.ls :=
  (dir_eq_dirIn_iff r e.ls e.dir).2 ⟨h.idle_iff, h.sender_dir, h.receiver_dir⟩

/-- Settles O28: in a cell marked `-` no transition is enabled. -/
theorem unmatchedEdgesAreIgnored : Obligations.UnmatchedEdgesAreIgnored := by
  rintro s i ev n rfl hinit _ hev hcell
  obtain ⟨v, rfl⟩ := exists_edgeInstr_of_eventOf hev
  exact completes_of_ignored hinit (handleEdge_of_tableNext_eq hcell (levelOperand v))

/-- Settles O30: the phase decides the direction, and then `HANDLE_EDGE` moves `ls` as the table says. -/
theorem edgesFollowTheTransitionTable : Obligations.EdgesFollowTheTransitionTable := by
  intro s i ev hinit hengine hev
  obtain ⟨v, rfl⟩ := exists_edgeInstr_of_eventOf hev
  obtain ⟨t, ht, hactive, _⟩ := completes_of_handleEdge (ev := ev) (v := v) hinit rfl rfl rfl
  exact ⟨t, ht, hactive ▸ handleEdge_ls (k := Work.start _) hengine.dir_eq_dirIn ev.line ev.pol (levelOperand v)⟩

/-- Settles O31: of the commands only `SEND_BYTE` from `Idle` moves the handshake, and an edge that is not listed is ignored. -/
theorem waitingNodeMovesOnlyOnItsEvent : Obligations.WaitingNodeMovesOnlyOnItsEvent := by
  intro s i hinit hengine hwait hnotInit hcell
  have hedge : ∀ (ev : EdgeEvent) (v : Byte), i = edgeInstr ev v → eventOf i = some ev →
      ∃ t, exec i s = .next t ∧ (t.node s.active).engine.ls = (s.node s.active).engine.ls ∧
        (t.node s.active).engine.dir = (s.node s.active).engine.dir := by
    rintro ev v rfl hev
    obtain ⟨t, ht, hactive, _⟩ := unmatchedEdgesAreIgnored s _ ev _ rfl hinit hengine hev (hcell ev hev)
    exact ⟨t, ht, by rw [hactive], by rw [hactive]⟩
  cases i with
  | init v => exact absurd rfl (hnotInit v)
  | sendByte b =>
    refine ⟨_, whenInitialised_of_initialised s _ hinit, ?_⟩
    rw [State.finish, commit_node_active]
    rcases sendByteWork_cases s.params s.active (byteOperand b) (s.node s.active).engine with ⟨_, hdir, _⟩ | ⟨_, he⟩
    · exact absurd (hengine.idle_iff.2 hdir) hwait
    · simp only [he]
      exact ⟨rfl, rfl⟩
  | recvByte v =>
    refine ⟨_, whenInitialised_of_initialised s _ hinit, ?_⟩
    rw [commit_node_active, recvByte_engine]
    exact ⟨rfl, rfl⟩
  | available v | reserved47 w | reservedCF w =>
    refine ⟨_, whenInitialised_of_initialised s _ hinit, ?_⟩
    rw [State.finish, commit_node_active]
    exact ⟨rfl, rfl⟩
  | edgeReqFall v => exact hedge ⟨.reqIn, .fall⟩ v rfl rfl
  | edgeReqRise v => exact hedge ⟨.reqIn, .rise⟩ v rfl rfl
  | edgeDcFall v => exact hedge ⟨.dcIn, .fall⟩ v rfl rfl
  | edgeDcRise v => exact hedge ⟨.dcIn, .rise⟩ v rfl rfl

/-! ### The collision -/

/-- Node 1 in its own direction has no transition on its request line (R177). -/
theorem handleEdge_reqIn_node1 {P : Params} {k : Work} (hdir : k.engine.dir = .node1ToNode2) (pol : Polarity) (dc : Level) :
    handleEdge P .node1 .reqIn pol dc k = k := by
  simp [handleEdge, hdir, peerDir]

/-- The fall of `DC_IN` keeps the direction of an engine: it is T1 or T3 or ignored. -/
theorem handleEdge_dcFall_dir (P : Params) (r : Role) (dc : Level) (k : Work) :
    (handleEdge P r .dcIn .fall dc k).engine.dir = k.engine.dir := by
  simp only [handleEdge, reduceCtorEq, and_true, and_false, if_false]
  split_ifs <;> rfl

/-- A link whose active node is Node 1, in its own direction. -/
structure Node1Sends (s : State) : Prop where
  active : s.active = .node1
  initialised : s.node1.initialised = true
  dir : s.node1.engine.dir = .node1ToNode2

/-- Node 1 in its own direction ignores either edge on its `REQ_IN`, but for the response port (R177). -/
theorem Node1Sends.exec_reqIn {s : State} (h : Node1Sends s) (pol : Polarity) (v : Byte) :
    exec (edgeInstr ⟨.reqIn, pol⟩ v) s = .next { s with node1 := { s.node1 with rsp := edgeResponse } } := by
  obtain ⟨P, n, p, active, q⟩ := s
  obtain ⟨rfl, hinit, hdir⟩ := h
  refine (exec_edgeInstr _ v _).trans ((handleEdge_next _ _ .reqIn pol v).2 ⟨hinit, ?_⟩)
  have hk := handleEdge_reqIn_node1 (P := P) (k := Work.start n.engine) hdir pol (levelOperand v)
  exact (congrArg (State.finish _ · edgeResponse) hk).trans (commit_nil _ _)

/-- The fall of `DC_IN` at Node 1 in its own direction: what it does does not depend on the response port, which it sets, and it keeps the
direction. -/
theorem Node1Sends.exec_dcFall {s : State} (h : Node1Sends s) (w : Byte) :
    ∃ r, Node1Sends r ∧ r.node1.rsp = edgeResponse ∧
      ∀ rsp, exec (.edgeDcFall w) { s with node1 := { s.node1 with rsp := rsp } } = .next r := by
  obtain ⟨P, n, p, active, q⟩ := s
  obtain ⟨rfl, hinit, hdir⟩ := h
  have hkeep := handleEdge_dcFall_dir P .node1 (levelOperand w) (Work.start n.engine)
  exact ⟨State.finish ⟨P, n, p, .node1, q⟩ (handleEdge P .node1 .dcIn .fall (levelOperand w) (Work.start n.engine)) edgeResponse,
    ⟨rfl, hinit, hkeep.trans hdir⟩, rfl, fun rsp => (handleEdge_next _ _ .dcIn .fall w).2 ⟨hinit, rfl⟩⟩

/-- Settles O29: the edges on `REQ_IN` are ignored in Node 1's own direction, which the fall of `DC_IN` keeps; so the rise of `REQ_IN` does
nothing, before that fall or after it, but answer what the fall answers as well. -/
theorem node1IgnoresTheCollidingRequest : Obligations.Node1IgnoresTheCollidingRequest := by
  rintro s v n hactive rfl hinit hdir
  have h : Node1Sends s := ⟨hactive, hinit, hdir⟩
  have hcompletes : ∀ pol, Completes (edgeInstr ⟨.reqIn, pol⟩ v) s { s.node1 with rsp := edgeResponse } s.node2 := fun pol => by
    refine ⟨_, h.exec_reqIn pol v, ?_⟩
    rw [hactive]
    exact ⟨rfl, rfl, rfl, rfl, rfl⟩
  refine ⟨hcompletes .fall, hcompletes .rise, fun w => ?_⟩
  obtain ⟨r, hr, hrsp, hfall⟩ := h.exec_dcFall w
  refine ⟨_, r, r, h.exec_reqIn .rise v, hfall _, hfall s.node1.rsp, ?_⟩
  exact hr.exec_reqIn .rise v |>.trans (by rw [← hrsp])

end Sys2Proof.Machine
end

section
/-! The joint control states of a link as one of its nodes sees them (42_link_state_machine.md R185): how an event or a request moves them, as a
finite table, and that the states themselves follow that table. -/

namespace Sys2Proof.Machine

/-! ### The levels of a phase -/

/-- The level of a line in a phase of the handshake (10_state.md R44), `bit` being the level of the bit of this transfer. -/
def lineLevelAt (bit : Level) (ls : LinkState) : OutLine → Level
  | .reqOut => reqLevelIn ls
  | .dcOut =>
    match ls with
    | .dataTransmission => bit
    | .requestConfirmed | .dataTransConfirmed => .low
    | .idle | .requestSent | .requestConfAckReceived | .dataTransConfAckReceived | .readyForData => .high

/-- The phase of a sound engine decides its latches, but for the bit on the data line. -/
theorem EngineInv.exists_latch {P : Params} {r : Role} {e : Engine} (h : EngineInv P r e) :
    ∃ bit, ∀ l, e.latch l = lineLevelAt bit e.ls l := by
  refine ⟨levelOfBit P.bitLevel (e.txByte.getLsbD e.txIdx.val), fun l => ?_⟩
  cases l with
  | reqOut => exact h.req_level
  | dcOut =>
    refine h.dc_level.trans ?_
    unfold dcLevelIn lineLevelAt
    cases e.ls <;> rfl

/-- The events that a change of a line makes at the peer (20_memory.md R72, R73). -/
def changeEvents (l : OutLine) (before after : Level) : List EdgeEvent :=
  if before = after then [] else [⟨seenAs l, polarityTo after⟩]

/-- The events of an operation's line writes are the changes of the lines, in the order of R229 (3). -/
theorem writeEvents_eq_flatMap (n : Node) (order : List OutLine) (ws : List LineWrite) (h : (ws.map LineWrite.line).Sublist order)
    (hnodup : order.Nodup) :
    writeEvents n ws = order.flatMap fun l => changeEvents l (n.seen (seenAs l)) (levelAfter l ws (n.seen (seenAs l))) := by
  induction order generalizing ws with
  | nil =>
    obtain rfl : ws = [] := by simpa using h
    rfl
  | cons l order ih =>
    obtain ⟨hl, hnodup'⟩ := List.nodup_cons.1 hnodup
    have hskip : ∀ vs : List LineWrite, (vs.map LineWrite.line).Sublist order → ∀ v, levelAfter l vs v = v := fun vs hvs v =>
      levelAfter_of_notMem l vs v fun hmem => hl (hvs.subset hmem)
    rw [List.flatMap_cons]
    rcases List.sublist_cons_iff.1 h with hrest | ⟨lines, hws, hrest⟩
    · rw [hskip ws hrest, changeEvents, if_pos rfl, List.nil_append, ih ws hrest hnodup']
    · obtain ⟨w, ws', rfl, rfl, rfl⟩ := List.map_eq_cons_iff.1 hws
      have hcons : writeEvents n (w :: ws') = sampleEvents n (seenAs w.line) w.level ++ writeEvents n ws' := rfl
      rw [hcons, ih ws' hrest hnodup', levelAfter_cons, if_pos rfl, hskip ws' hrest]
      refine congrArg _ (List.flatMap_congr fun l' hl' => ?_)
      have hne : w.line ≠ l' := fun he => hl (he ▸ hl')
      rw [levelAfter_cons, if_neg hne]

/-- An initialised node stays so (60_exceptions.md R228). -/
theorem exec_initialised {s t : State} {i : Instr} (h : exec i s = .next t) (hinit : ∀ x, (s.node x).initialised = true) (x : Role) :
    (t.node x).initialised = true := by
  have hcommit : ∃ n ws, t = s.commit n ws ∧ n.initialised = true := by
    cases i with
    | init v =>
      cases h
      exact ⟨_, _, rfl, rfl⟩
    | recvByte v =>
      obtain ⟨hactive, rfl⟩ := (whenInitialised_next s _ t).1 h
      exact ⟨_, _, rfl, (recvByte_shim _ _ _).1.trans hactive⟩
    | sendByte v | available v | edgeReqFall v | edgeReqRise v | edgeDcFall v | edgeDcRise v | reserved47 w | reservedCF w =>
      obtain ⟨hactive, rfl⟩ := (whenInitialised_next s _ t).1 h
      exact ⟨_, _, rfl, hactive⟩
  obtain ⟨n, ws, rfl, hn⟩ := hcommit
  exact forall_node_commit (fun _ m => m.initialised = true) hn (by simpa using hinit _) x

/-- What an operation adds to the queue of a peer that has room: the events of the lines it has changed (R72 to R74). -/
theorem exec_peer_pend {s t : State} {i : Instr} (hinv : Inv s) (h : exec i s = .next t) (hinit : ∀ x, (s.node x).initialised = true)
    (hroom : (s.node (peerOf s.active)).pend.length ≤ 1) :
    (t.node (peerOf s.active)).pend = (s.node (peerOf s.active)).pend ++
      (lineOrder s.params i).flatMap fun l =>
        changeEvents l ((s.node s.active).engine.latch l) ((t.node s.active).engine.latch l) := by
  have hbefore : ∀ l, (s.node (peerOf s.active)).seen (seenAs l) = (s.node s.active).engine.latch l := fun l => by
    rw [(detectors_iff s).1 hinv.detectors, peerOf_peerOf, drives_of_initialised _ _ (hinit _)]
  have hafter : ∀ l, (t.node (peerOf s.active)).seen (seenAs l) = (t.node s.active).engine.latch l := fun l => by
    rw [(detectors_iff t).1 (exec_inv i hinv h).detectors, peerOf_peerOf, drives_of_initialised _ _ (exec_initialised h hinit _)]
  obtain ⟨n, ws, rfl, hwrites⟩ := exec_commits_inOrder i s t h
  have hlines := arrivalOrder_lines s.params i ws hwrites
  have htwo := hlines.length_le
  rw [List.length_map, lineOrder_length] at htwo
  have hfits : s.params.fits ((s.node (peerOf s.active)).pend.length + (arrivalOrder s.params ws).length) = true :=
    fits_mono s.params _ 3 (by omega) ((legal_iff s.params).1 hinv.params).2.2
  rw [commit_node_peer] at hafter ⊢
  rw [Node.observeAll, observeEach_pend_of_fits (hinit _) hfits ((lineOrder_nodup s.params i).sublist hlines),
    writeEvents_eq_flatMap _ _ _ hlines (lineOrder_nodup s.params i)]
  simp only [← hafter, observeAll_seen, levelAfter_arrivalOrder, hbefore]

/-! ### The table of the joint states -/

/-- A joint control state as node `x` sees it: its own phase and queue first. -/
def State.phaseAt (s : State) (x : Role) : LinkPhase :=
  { ls1 := (s.node x).engine.ls
    ls2 := (s.node (peerOf x)).engine.ls
    pend1 := (s.node x).pend
    pend2 := (s.node (peerOf x)).pend }

/-- The joint control states of a rule-keeping link, as node `r` sees them. -/
def phasesOf (P : Params) : Role → List LinkPhase
  | .node1 => linkPhases P
  | .node2 => (linkPhases P).map LinkPhase.mirror

@[simp] theorem mirror_mirror (p : LinkPhase) : p.mirror.mirror = p := rfl

theorem phaseAt_mem_phasesOf (s : State) (P : Params) (x : Role) : s.phaseAt x ∈ phasesOf P x ↔ s.phase ∈ linkPhases P := by
  cases x with
  | node1 => exact Iff.rfl
  | node2 => exact List.mem_map_of_injective (a := s.phase) (l := linkPhases P) (Function.LeftInverse.injective mirror_mirror)

/-- The hardware, on a platform of either kind (60_exceptions.md R229 (3)). -/
def platform (tells : Bool) : Params := { Config.hardware with tellsOrder := tells }

/-- The joint control states depend on no other parameter. -/
theorem phasesOf_eq (P : Params) (r : Role) : phasesOf P r = phasesOf (platform P.tellsOrder) r := by
  cases r <;> rfl

/-- The order in which the peer's shim sees the lines of an event's edge operation (R229 (3)). -/
def eventOrder (tells : Bool) (ev : EdgeEvent) : List OutLine :=
  if tells && ev == ⟨.reqIn, .fall⟩ then [.reqOut, .dcOut] else [.dcOut, .reqOut]

theorem lineOrder_edgeInstr (P : Params) (ev : EdgeEvent) (v : Byte) :
    lineOrder P (edgeInstr ev v) = eventOrder P.tellsOrder ev := by
  obtain ⟨line, pol⟩ := ev
  unfold lineOrder
  cases P.tellsOrder <;> cases line <;> cases pol <;> rfl

/-- The joint control state after the node has handled event `ev`, the oldest of its queue: the phase moves as the table of R165 says, and the
peer gains the events of the lines that the two phases drive at different levels; `bit` and `bit'` are the levels of the bit of the node's
transfer before and after. -/
def LinkPhase.handled (p : LinkPhase) (tells : Bool) (r : Role) (pending : Bool) (bit bit' : Level) (ev : EdgeEvent) : LinkPhase :=
  { ls1 := tableNext r pending p.ls1 ev.line ev.pol
    ls2 := p.ls2
    pend1 := p.pend1.tail
    pend2 := p.pend2 ++ (eventOrder tells ev).flatMap fun l =>
      changeEvents l (lineLevelAt bit p.ls1 l) (lineLevelAt bit' (tableNext r pending p.ls1 ev.line ev.pol) l) }

/-- Handling an event leads from a listed joint state to a listed one. -/
theorem handled_mem_platform (r : Role) (bit bit' : Level) : ∀ tells pending : Bool, ∀ p ∈ phasesOf (platform tells) r,
    ∀ ev ∈ p.pend1.head?, p.handled tells r pending bit bit' ev ∈ phasesOf (platform tells) r := by
  cases r <;> cases bit <;> cases bit' <;> decide

/-- A node with an event has a peer with at most one. -/
theorem peer_room_of_event_platform (r : Role) : ∀ tells : Bool, ∀ p ∈ phasesOf (platform tells) r,
    p.pend1 ≠ [] → p.pend2.length ≤ 1 := by
  cases r <;> decide

/-- An idle node has a peer with at most one event, and its request leads from a listed joint state to a listed one. -/
theorem requested_mem_platform (r : Role) : ∀ tells : Bool, ∀ p ∈ phasesOf (platform tells) r, p.ls1 = .idle →
    p.pend2.length ≤ 1 ∧
      { p with ls1 := .requestSent, pend2 := p.pend2 ++ [⟨.reqIn, .fall⟩] } ∈ phasesOf (platform tells) r := by
  cases r <;> decide

/-- The bit on the wire, by phases: `bitOnTheWire`. -/
def onWire (snd rcv : LinkState) : Bool := snd == .dataTransmission && rcv == .readyForData

theorem bitOnTheWire_eq (snd rcv : Engine) : bitOnTheWire snd rcv = onWire snd.ls rcv.ls := rfl

/-- A bit is asked for when the receiver is ready for it (R167). -/
theorem ready_of_ack_platform (r : Role) : ∀ tells : Bool, ∀ p ∈ phasesOf (platform tells) r,
    p.pend1.head? = some ⟨.dcIn, .rise⟩ → p.ls1 = .requestConfAckReceived → p.ls2 = .readyForData := by
  cases r <;> decide

/-- Every event but the two that move a bit leaves the wire: neither node puts a bit there or takes one. -/
theorem onWire_platform (r : Role) : ∀ tells pending : Bool, ∀ p ∈ phasesOf (platform tells) r, ∀ ev ∈ p.pend1.head?,
    ¬ (ev = ⟨.dcIn, .rise⟩ ∧ p.ls1 = .requestConfAckReceived) → ¬ (ev = ⟨.reqIn, .fall⟩ ∧ p.ls1 = .readyForData) →
      onWire (tableNext r pending p.ls1 ev.line ev.pol) p.ls2 = onWire p.ls1 p.ls2 ∧
        onWire p.ls2 (tableNext r pending p.ls1 ev.line ev.pol) = onWire p.ls2 p.ls1 := by
  cases r <;> decide

end Sys2Proof.Machine
end

section
/-! The bit cursors of the two ends of a direction (30_encoding.md R103): what keeps their agreement. -/

namespace Sys2Proof.Machine

/-- The bit index and the accumulator of a receiver against the sender's. -/
structure CursorsAgree (P : Params) (snd rcv : Engine) : Prop where
  indices : IndicesAgree snd rcv
  accumulators : P.rxClearOnDrop = true → AccumulatorAgrees snd rcv

section
variable {P : Params} {snd snd' rcv rcv' : Engine}

/-- The agreement reads the two cursors and the wire. -/
theorem CursorsAgree.congr (h : CursorsAgree P snd rcv) (htxIdx : snd'.txIdx = snd.txIdx) (htxByte : snd'.txByte = snd.txByte)
    (hrxIdx : rcv'.rxIdx = rcv.rxIdx) (hrxByte : rcv'.rxByte = rcv.rxByte)
    (hwire : bitOnTheWire snd' rcv' = bitOnTheWire snd rcv) : CursorsAgree P snd' rcv' where
  indices := by
    unfold IndicesAgree
    rw [hrxIdx, hwire, htxIdx]
    exact h.indices
  accumulators hc :=
    { boundary := by rw [hrxIdx, hrxByte]; exact (h.accumulators hc).boundary
      bits := by rw [hrxIdx, hrxByte, htxByte]; exact (h.accumulators hc).bits }

/-- T2 puts the next bit on the wire: the sender is then one bit ahead (41_framer.md R141). -/
theorem CursorsAgree.emit {r : Role} (h : CursorsAgree P snd rcv) (hpending : snd.txPending = true)
    (hsnd : SameTransmit snd' (snd.nextBitToSend P r).1) (hwire : bitOnTheWire snd rcv = false)
    (hwire' : bitOnTheWire snd' rcv = true) : CursorsAgree P snd' rcv := by
  have hidx : rcv.rxIdx = snd.txIdx := by simpa [IndicesAgree, hwire] using h.indices
  obtain ⟨_, htxIdx, htxByte⟩ := hsnd
  rcases nextBitToSend_cases P r snd with ⟨h7, hrd, _⟩ | ⟨i, h7, _, he⟩ | ⟨h7, he⟩
  · rw [(txPending_eq_false_iff snd).2 ⟨h7, hrd⟩] at hpending
    cases hpending
  · rw [he] at htxIdx htxByte
    have hboundary : rcv.rxIdx = 7 := hidx.trans h7
    refine ⟨?_, fun hc => ⟨(h.accumulators hc).boundary, fun hne => absurd hboundary hne⟩⟩
    rw [IndicesAgree, hwire', htxIdx, hboundary]
    rfl
  · rw [he] at htxIdx htxByte
    refine ⟨?_, fun hc => ⟨(h.accumulators hc).boundary, htxByte ▸ (h.accumulators hc).bits⟩⟩
    rw [IndicesAgree, hwire', htxIdx, hidx]
    simp

/-- Captured bits move the receive index on by one, to 7 with the eighth (R140, R143). -/
theorem newBitReceived_rxIdx (P : Params) (bit : Bool) (e : Engine) : (e.newBitReceived P bit).rxIdx = e.rxIdx + 1 := by
  rcases newBitReceived_cases P bit e with ⟨_, he⟩ | ⟨h6, _, he⟩ | ⟨h6, _, he⟩
  · rw [he]
  · simp [he, h6]
  · simp [he, h6]

/-- A captured bit of the sender's byte keeps the accumulator in agreement, a dropped byte included where it is cleared (R143, R144). -/
theorem AccumulatorAgrees.newBitReceived (h : AccumulatorAgrees snd rcv) (hclear : P.rxClearOnDrop = true) :
    AccumulatorAgrees snd (rcv.newBitReceived P (snd.txByte.getLsbD (rcv.rxIdx + 1).val)) := by
  rcases newBitReceived_cases P (snd.txByte.getLsbD (rcv.rxIdx + 1).val) rcv with ⟨h6, he⟩ | ⟨_, _, he⟩ | ⟨_, _, he⟩ <;> rw [he]
  · refine accumulatorAgrees_of_insertBit (acc := rcv.rxByte) (by simp only; omega) (fun j => ?_) rfl
    by_cases h7 : rcv.rxIdx = 7
    · simp [h.boundary h7, h7]
    · have hbelow : j ≤ rcv.rxIdx ↔ j < rcv.rxIdx + 1 := by omega
      rw [h.bits h7 j, decide_eq_decide.2 hbelow]
  · exact ⟨fun _ => rfl, fun hne => absurd rfl hne⟩
  · exact ⟨fun _ => by simp [hclear], fun hne => absurd rfl hne⟩

/-- T8 takes the bit off the wire: the receiver is then at the sender's bit (R143). -/
theorem CursorsAgree.capture {bit : Bool} (h : CursorsAgree P snd rcv) (hbit : bit = snd.txByte.getLsbD snd.txIdx.val)
    (hrxIdx : rcv'.rxIdx = (rcv.newBitReceived P bit).rxIdx) (hrxByte : rcv'.rxByte = (rcv.newBitReceived P bit).rxByte)
    (hwire : bitOnTheWire snd rcv = true) (hwire' : bitOnTheWire snd rcv' = false) : CursorsAgree P snd rcv' := by
  have hidx : rcv.rxIdx + 1 = snd.txIdx := by
    have hbehind : rcv.rxIdx = snd.txIdx - 1 := by simpa [IndicesAgree, hwire] using h.indices
    rw [hbehind, sub_add_cancel]
  rw [← hidx] at hbit
  subst hbit
  refine ⟨?_, fun hc => ?_⟩
  · rw [IndicesAgree, hwire', hrxIdx, newBitReceived_rxIdx, hidx]
    rfl
  · have hacc := (h.accumulators hc).newBitReceived hc
    exact ⟨by rw [hrxIdx, hrxByte]; exact hacc.boundary, by rw [hrxIdx, hrxByte]; exact hacc.bits⟩

end

/-! ### `HANDLE_EDGE` -/

/-- What an edge that neither asks for a bit nor captures one leaves: both cursors and the transmit buffer (42_link_state_machine.md R166,
R168 to R172, R174). -/
structure SameFramer (e' e : Engine) : Prop where
  transmit : SameTransmit e' e
  rxIdx : e'.rxIdx = e.rxIdx
  rxByte : e'.rxByte = e.rxByte

theorem complete_sameFramer (r : Role) (k : Work) : SameFramer (complete r k).engine k.engine := by
  rcases complete_cases r k with ⟨_, he⟩ | ⟨_, he⟩ <;> rw [he] <;> exact ⟨⟨rfl, rfl, rfl⟩, rfl, rfl⟩

theorem handleEdge_sameFramer {P : Params} {r : Role} {line : InLine} {pol : Polarity} {k : Work} (hemit : ¬ Emits r line pol k.engine)
    (hcapture : ¬ Captures r line pol k.engine) (dc : Level) : SameFramer (handleEdge P r line pol dc k).engine k.engine := by
  rcases handleEdge_cases P r line pol dc k with
    ⟨_, _, _, _, e⟩ | ⟨hl, hp, hd, hls, _⟩ | ⟨_, _, _, _, e⟩ | ⟨_, _, _, _, e⟩ | ⟨_, _, _, _, e⟩ | ⟨_, _, _, _, _, e⟩ |
    ⟨_, _, _, _, e⟩ | ⟨hl, hp, hd, hls, _⟩ | ⟨_, _, _, _, e⟩ | e
  · exact e ▸ ⟨⟨rfl, rfl, rfl⟩, rfl, rfl⟩
  · exact absurd ⟨hl, hp, hd, hls⟩ hemit
  · exact e ▸ ⟨⟨rfl, rfl, rfl⟩, rfl, rfl⟩
  · exact e ▸ complete_sameFramer r k
  · exact e ▸ ⟨⟨rfl, rfl, rfl⟩, rfl, rfl⟩
  · exact e ▸ ⟨⟨rfl, rfl, rfl⟩, rfl, rfl⟩
  · exact e ▸ ⟨⟨rfl, rfl, rfl⟩, rfl, rfl⟩
  · exact absurd ⟨hl, hp, hd, hls⟩ hcapture
  · obtain ⟨⟨htx, htxIdx, htxByte⟩, hrxIdx, hrxByte⟩ := complete_sameFramer r (k.lineWrite .dcOut .high)
    exact e ▸ ⟨⟨htx, htxIdx, htxByte⟩, hrxIdx, hrxByte⟩
  · rw [e]
    exact ⟨⟨rfl, rfl, rfl⟩, rfl, rfl⟩

end Sys2Proof.Machine
end

section
/-! A link whose environment keeps the rules (42_link_state_machine.md R185): the link invariant through every step. -/

namespace Sys2Proof.Machine

/-! ### The link invariant, from one node -/

theorem LinkInv.phaseAt {s : State} (h : LinkInv s) (x : Role) : s.phaseAt x ∈ phasesOf (platform s.params.tellsOrder) x := by
  rw [← phasesOf_eq, phaseAt_mem_phasesOf]
  exact h.phase

theorem LinkInv.cursors {s : State} (h : LinkInv s) (x : Role) :
    CursorsAgree s.params (s.node x).engine (s.node (peerOf x)).engine :=
  ⟨h.indices x, fun hc => h.accumulators hc x⟩

/-- The link invariant, as node `x` sees it. -/
theorem LinkInv.of_parts {s : State} (x : Role) (hinv : Inv s) (hinit : ∀ y, (s.node y).initialised = true)
    (hphase : s.phaseAt x ∈ phasesOf (platform s.params.tellsOrder) x)
    (hout : CursorsAgree s.params (s.node x).engine (s.node (peerOf x)).engine)
    (hin : CursorsAgree s.params (s.node (peerOf x)).engine (s.node x).engine) : LinkInv s := by
  have hcursors : ∀ y, CursorsAgree s.params (s.node y).engine (s.node (peerOf y)).engine := fun y => by
    rcases eq_or_eq_peerOf x y with rfl | rfl
    · exact hout
    · rwa [peerOf_peerOf]
  exact {
    inv := hinv
    initialised := hinit
    phase := by rwa [← phasesOf_eq, phaseAt_mem_phasesOf] at hphase
    indices := fun y => (hcursors y).indices
    accumulators := fun hc y => (hcursors y).accumulators hc }

/-- Settles O52: both nodes are idle with empty queues, and all cursors are between bytes. -/
theorem resetHasTheLinkInvariant : Obligations.ResetHasTheLinkInvariant := by
  have hreset : ∀ P : Params, P.legal = true → LinkInv (State.resetWith P) := fun P hP =>
    { inv := resetWith_inv P hP
      initialised := fun x => by rw [node_resetWith]; rfl
      phase := List.mem_cons_self
      indices := fun x => by rw [node_resetWith, node_resetWith]; rfl
      accumulators := fun _ x => by
        rw [node_resetWith, node_resetWith]
        exact ⟨fun _ => rfl, fun hne => absurd rfl hne⟩ }
  exact ⟨hreset Config.hardware hardware_legal, hreset⟩

/-! ### Commands -/

/-- Any node may be the active one. -/
theorem linkInv_withActive (s : State) (a : Role) (h : LinkInv s) : LinkInv { s with active := a } where
  inv := inv_of_pend_le h.inv rfl fun x => ⟨(s.node x).pend, by cases x <;> rfl, le_rfl⟩
  initialised x := by simpa using h.initialised x
  phase := h.phase
  indices x := by simpa using h.indices x
  accumulators hc x := by simpa using h.accumulators hc x

/-- What an application operation leaves of its engine's handshake and cursors, when it does not request. -/
structure SameControl (e' e : Engine) : Prop where
  ls : e'.ls = e.ls
  txIdx : e'.txIdx = e.txIdx
  txByte : e'.txByte = e.txByte
  rxIdx : e'.rxIdx = e.rxIdx
  rxByte : e'.rxByte = e.rxByte

/-- An operation that writes no line and keeps the handshake and the cursors of its node keeps the link invariant. -/
theorem linkInv_commit_nil {s : State} {n : Node} (h : LinkInv s) (hinv : Inv (s.commit n [])) (hinit : n.initialised = true)
    (hpend : n.pend = (s.node s.active).pend) (hengine : SameControl n.engine (s.node s.active).engine) : LinkInv (s.commit n []) := by
  obtain ⟨hls, htxIdx, htxByte, hrxIdx, hrxByte⟩ := hengine
  refine .of_parts s.active hinv (forall_node_commit (fun _ m => m.initialised = true) hinit (by simpa using h.initialised _)) ?_ ?_ ?_
  · have hsame : (s.commit n []).phaseAt s.active = s.phaseAt s.active := by
      simp only [State.phaseAt, commit_node_active, commit_node_peer, observeAll_nil, hls, hpend]
    rw [hsame, commit_params]
    exact h.phaseAt s.active
  · rw [commit_params, commit_node_active, commit_node_peer, observeAll_nil]
    exact (h.cursors s.active).congr htxIdx htxByte rfl rfl (by rw [bitOnTheWire_eq, bitOnTheWire_eq, hls])
  · rw [commit_params, commit_node_active, commit_node_peer, observeAll_nil]
    have hpeer := h.cursors (peerOf s.active)
    rw [peerOf_peerOf] at hpeer
    exact hpeer.congr rfl rfl hrxIdx hrxByte (by rw [bitOnTheWire_eq, bitOnTheWire_eq, hls])

/-- `SEND_BYTE` at an idle node queues its byte and requests (43_application_api.md R201). -/
theorem sendByteWork_of_idle {P : Params} {r : Role} {e : Engine} (h : EngineInv P r e) (hidle : e.ls = .idle) (b : Byte) :
    (sendByteWork P r b e).1 =
      (((Work.start { e with tx := (e.tx.enqueue P.capacity b).buf }).lineWrite .reqOut .low).setDir (myDir r)).setLs
        .requestSent := by
  rcases sendByteWork_cases P r b e with ⟨_, _, he⟩ | ⟨hbusy, _⟩
  · exact he
  · have hempty := ((txPending_eq_false_iff e).1 (h.idle_not_pending hidle)).2
    simp [hempty, h.idle_iff.1 hidle] at hbusy

/-- A request from `Idle` keeps the link invariant: the peer gains the fall of `REQ_IN`. -/
theorem linkInv_request {s t : State} {b : Byte} (h : LinkInv s) (ht : exec (.sendByte b) s = .next t)
    (hidle : (s.node s.active).engine.ls = .idle) : LinkInv t := by
  have hengine := h.inv.engines s.active (h.initialised _)
  have hreq : (s.node s.active).engine.outReq = .high := hengine.req_level.trans (by rw [hidle]; rfl)
  obtain ⟨hroom, hmem⟩ := requested_mem_platform s.active s.params.tellsOrder _ (h.phaseAt s.active) hidle
  have hgain := exec_peer_pend h.inv ht h.initialised hroom
  have hpeer : (t.node (peerOf s.active)).engine = (s.node (peerOf s.active)).engine :=
    (operationLeavesThePeersEngine s t _ _ _ ht rfl rfl).1
  have hactive : t.node s.active =
      { s.node s.active with
        engine :=
          { (s.node s.active).engine with
            tx := ((s.node s.active).engine.tx.enqueue s.params.capacity b).buf
            outReq := .low
            dir := myDir s.active
            ls := .requestSent }
        rsp := ⟨(sendByteWork s.params s.active b (s.node s.active).engine).2, 0x00#8⟩ } := by
    obtain ⟨_, rfl⟩ := (whenInitialised_next s _ t).1 ht
    rw [State.finish, commit_node_active, byteOperand, sendByteWork_of_idle hengine hidle]
    rfl
  have hphase : t.phaseAt s.active =
      { s.phaseAt s.active with ls1 := .requestSent, pend2 := (s.phaseAt s.active).pend2 ++ [⟨.reqIn, .fall⟩] } := by
    have horder : lineOrder s.params (.sendByte b) = [.dcOut, .reqOut] := by
      unfold lineOrder
      split <;> rfl
    simp only [State.phaseAt, hgain, hpeer, hactive, horder]
    simp [changeEvents, Engine.latch, hreq, polarityTo]
  have hpeerCursors := h.cursors (peerOf s.active)
  rw [peerOf_peerOf] at hpeerCursors
  refine .of_parts s.active (exec_inv _ h.inv ht) (exec_initialised ht h.initialised) ?_ ?_ ?_ <;> rw [exec_params _ s t ht]
  · rwa [hphase]
  · rw [hpeer, hactive]
    exact (h.cursors s.active).congr rfl rfl rfl rfl (by rw [bitOnTheWire_eq, bitOnTheWire_eq, hidle]; rfl)
  · rw [hpeer, hactive]
    exact hpeerCursors.congr rfl rfl rfl rfl (by rw [bitOnTheWire_eq, bitOnTheWire_eq, hidle]; rfl)

/-- Every application operation and every reserved word keeps the link invariant; only the request of `SEND_BYTE` moves the handshake. -/
theorem linkInv_command {s t : State} {i : Instr} (h : LinkInv s) (hlaw : lawfulInstr i = true) (ht : exec i s = .next t) :
    LinkInv t := by
  have hinv := exec_inv i h.inv ht
  cases i with
  | sendByte b =>
    rcases sendByteWork_cases s.params s.active b (s.node s.active).engine with ⟨_, hdir, _⟩ | ⟨_, hwork⟩
    · exact linkInv_request h ht ((h.inv.engines s.active (h.initialised _)).idle_iff.2 hdir)
    · obtain ⟨hinit, rfl⟩ := (whenInitialised_next s _ t).1 ht
      simp only [State.finish, byteOperand, hwork, start_writes, start_engine] at hinv ⊢
      exact linkInv_commit_nil h hinv hinit rfl ⟨rfl, rfl, rfl, rfl, rfl⟩
  | recvByte v =>
    obtain ⟨hinit, rfl⟩ := (whenInitialised_next s _ t).1 ht
    obtain ⟨hshim, hpend, _⟩ := recvByte_shim s.params s.active (s.node s.active)
    refine linkInv_commit_nil h hinv (hshim.trans hinit) hpend ?_
    rw [recvByte_engine]
    exact ⟨rfl, rfl, rfl, rfl, rfl⟩
  | available v | reserved47 w | reservedCF w =>
    obtain ⟨hinit, rfl⟩ := (whenInitialised_next s _ t).1 ht
    exact linkInv_commit_nil h hinv hinit rfl ⟨rfl, rfl, rfl, rfl, rfl⟩
  | init v | edgeReqFall v | edgeReqRise v | edgeDcFall v | edgeDcRise v => cases hlaw

/-! ### Events -/

/-- In `u` the shim has handed the oldest event `ev` of `s` to the active node (60_exceptions.md R230). -/
structure HandsOver (s u : State) (ev : EdgeEvent) : Prop where
  same : SameEngines u s
  inv : Inv u
  head : (s.node u.active).pend.head? = some ev
  own : (u.node u.active).pend = (s.node u.active).pend.tail
  peer : (u.node (peerOf u.active)).pend = (s.node (peerOf u.active)).pend

/-- What the edge operation of the oldest event of node `a` has made of `s`, `dc` being the live level of `DC_IN`. -/
structure Handles (s t : State) (a : Role) (ev : EdgeEvent) (dc : Level) : Prop where
  params : t.params = s.params
  inv : Inv t
  initialised : ∀ x, (t.node x).initialised = true
  head : ev ∈ (s.phaseAt a).pend1.head?
  engine : (t.node a).engine = (handleEdge s.params a ev.line ev.pol dc (Work.start (s.node a).engine)).engine
  peer : (t.node (peerOf a)).engine = (s.node (peerOf a)).engine
  phase : ∃ bit bit', t.phaseAt a = (s.phaseAt a).handled s.params.tellsOrder a (s.node a).engine.txPending bit bit' ev

/-- The phase moves as the table says, the event leaves the queue, and the peer gains the events of the lines that the two phases drive at
different levels. -/
theorem handles_of_exec {s u t : State} {ev : EdgeEvent} {v : Byte} (h : LinkInv s) (hu : HandsOver s u ev)
    (ht : exec (edgeInstr ev v) u = .next t) : Handles s t u.active ev (levelOperand v) := by
  have hinit : ∀ x, (u.node x).initialised = true := fun x => by rw [hu.same.initialised]; exact h.initialised x
  have hinv := exec_inv _ hu.inv ht
  have hinit' := exec_initialised ht hinit
  have hpeer : (t.node (peerOf u.active)).engine = (s.node (peerOf u.active)).engine :=
    (operationLeavesThePeersEngine u t _ _ _ ht rfl rfl).1.trans (hu.same.engine _)
  have hroom := peer_room_of_event_platform u.active s.params.tellsOrder _ (h.phaseAt u.active)
    (List.ne_nil_of_mem (List.mem_of_mem_head? hu.head))
  have hgain := exec_peer_pend hu.inv ht hinit (hu.peer ▸ hroom)
  have hparams := (exec_params _ u t ht).trans hu.same.params
  obtain ⟨hengine, hown⟩ : (t.node u.active).engine =
        (handleEdge s.params u.active ev.line ev.pol (levelOperand v) (Work.start (s.node u.active).engine)).engine ∧
      (t.node u.active).pend = (s.node u.active).pend.tail := by
    rw [exec_edgeInstr] at ht
    obtain ⟨_, rfl⟩ := (handleEdge_next u t ev.line ev.pol v).1 ht
    rw [State.finish, commit_node_active, hu.same.params, hu.same.engine]
    exact ⟨rfl, hu.own⟩
  have hls : (t.node u.active).engine.ls =
      tableNext u.active (s.node u.active).engine.txPending (s.node u.active).engine.ls ev.line ev.pol := by
    rw [hengine]
    exact handleEdge_ls (k := Work.start _) (h.inv.engines _ (h.initialised _)).dir_eq_dirIn ev.line ev.pol (levelOperand v)
  obtain ⟨bit, hbit⟩ := (h.inv.engines u.active (h.initialised _)).exists_latch
  obtain ⟨bit', hbit'⟩ := (hinv.engines u.active (hinit' _)).exists_latch
  refine ⟨hparams, hinv, hinit', hu.head, hengine, hpeer, bit, bit', ?_⟩
  simp only [hu.peer, hu.same.params, hu.same.engine, lineOrder_edgeInstr, hbit, hbit', hls] at hgain
  simp only [State.phaseAt, LinkPhase.handled, hls, hpeer, hown, hgain]

section
variable {s t : State} {a : Role} {ev : EdgeEvent} {dc : Level}

theorem Handles.ls (h : Handles s t a ev dc) :
    (t.node a).engine.ls = tableNext a (s.node a).engine.txPending (s.node a).engine.ls ev.line ev.pol := by
  obtain ⟨_, _, hphase⟩ := h.phase
  exact congrArg LinkPhase.ls1 hphase

/-- Of the condition of a transition a sound engine decides the direction (R40, R41, R164). -/
theorem condition_iff {P : Params} {r : Role} {e : Engine} (h : EngineInv P r e) (line : InLine) (pol : Polarity) (ls : LinkState) :
    (ev.line = line ∧ ev.pol = pol ∧ e.dir = dirIn r ls ∧ e.ls = ls) ↔ ev = ⟨line, pol⟩ ∧ e.ls = ls := by
  constructor
  · rintro ⟨rfl, rfl, _, hls⟩
    exact ⟨rfl, hls⟩
  · rintro ⟨rfl, rfl⟩
    exact ⟨rfl, rfl, h.dir_eq_dirIn, rfl⟩

theorem emits_iff {P : Params} {r : Role} {e : Engine} (h : EngineInv P r e) :
    Emits r ev.line ev.pol e ↔ ev = ⟨.dcIn, .rise⟩ ∧ e.ls = .requestConfAckReceived :=
  condition_iff h .dcIn .rise .requestConfAckReceived

theorem captures_iff {P : Params} {r : Role} {e : Engine} (h : EngineInv P r e) :
    Captures r ev.line ev.pol e ↔ ev = ⟨.reqIn, .fall⟩ ∧ e.ls = .readyForData :=
  condition_iff h .reqIn .fall .readyForData

/-- The cursors of both directions agree after the event. -/
def CursorsAfter (s t : State) (a : Role) : Prop :=
  CursorsAgree s.params (t.node a).engine (s.node (peerOf a)).engine ∧ CursorsAgree s.params (s.node (peerOf a)).engine (t.node a).engine

/-- T2 moves the transmit cursor and puts the bit on the wire, to a receiver that is ready for it (R167). -/
theorem Handles.cursors_emit (hs : LinkInv s) (h : Handles s t a ev dc) (hemit : Emits a ev.line ev.pol (s.node a).engine) :
    CursorsAfter s t a := by
  have hengine := hs.inv.engines a (hs.initialised a)
  have hin := hs.cursors (peerOf a)
  rw [peerOf_peerOf] at hin
  have he := h.engine
  rw [handleEdge_of_emits (k := Work.start _) hemit] at he
  have hls := h.ls
  obtain ⟨rfl, hack⟩ := (emits_iff hengine).1 hemit
  have hready : (s.node (peerOf a)).engine.ls = .readyForData :=
    ready_of_ack_platform a s.params.tellsOrder _ (hs.phaseAt a) h.head hack
  simp only [hack, tableNext] at hls
  constructor
  · refine (hs.cursors a).emit (r := a) (hengine.request_pending (.inr hack)) (he ▸ ⟨rfl, rfl, rfl⟩) ?_ ?_
    · rw [bitOnTheWire_eq, hack, hready]; rfl
    · rw [bitOnTheWire_eq, hls, hready]; rfl
  · refine hin.congr rfl rfl (he ▸ nextBitToSend_rxIdx _ _ _) (he ▸ nextBitToSend_rxByte _ _ _) ?_
    rw [bitOnTheWire_eq, bitOnTheWire_eq, hls, hack, hready]; rfl

/-- T8 moves the receive cursor and takes the bit off the wire, where the sender has put the bit of its byte (R173). -/
theorem Handles.cursors_capture (hs : LinkInv s) (h : Handles s t a ev (s.lineRead a .dcIn))
    (hcapture : Captures a ev.line ev.pol (s.node a).engine) : CursorsAfter s t a := by
  have hin := hs.cursors (peerOf a)
  rw [peerOf_peerOf] at hin
  have he := h.engine
  rw [handleEdge_of_captures (k := Work.start _) hcapture] at he
  have hls := h.ls
  obtain ⟨rfl, hrfd⟩ := (captures_iff (hs.inv.engines a (hs.initialised a))).1 hcapture
  have hbusy := hs.transmission_of_strobe a h.head hrfd
  simp only [hrfd, tableNext] at hls
  have hsnd := newBitReceived_sameTransmit s.params (bitOfLevel s.params.bitLevel (s.lineRead a .dcIn)) (s.node a).engine
  constructor
  · refine (hs.cursors a).congr (he ▸ hsnd.txIdx) (he ▸ hsnd.txByte) rfl rfl ?_
    rw [bitOnTheWire_eq, bitOnTheWire_eq, hls, hrfd, hbusy]; rfl
  · refine hin.capture (bit := bitOfLevel s.params.bitLevel (s.lineRead a .dcIn)) ?_ (he ▸ rfl) (he ▸ rfl) ?_ ?_
    · rw [hs.lineRead_of_transmission a hbusy, bitOfLevel_levelOfBit]
    · rw [bitOnTheWire_eq, hrfd, hbusy]; rfl
    · rw [bitOnTheWire_eq, hls, hbusy]; rfl

/-- Every other event leaves both cursors and the wire. -/
theorem Handles.cursors_keep (hs : LinkInv s) (h : Handles s t a ev dc) (hemit : ¬ Emits a ev.line ev.pol (s.node a).engine)
    (hcapture : ¬ Captures a ev.line ev.pol (s.node a).engine) : CursorsAfter s t a := by
  have hin := hs.cursors (peerOf a)
  rw [peerOf_peerOf] at hin
  obtain ⟨⟨_, htxIdx, htxByte⟩, hrxIdx, hrxByte⟩ :=
    handleEdge_sameFramer (P := s.params) (k := Work.start (s.node a).engine) hemit hcapture dc
  rw [← h.engine] at htxIdx htxByte hrxIdx hrxByte
  have hengine := hs.inv.engines a (hs.initialised a)
  rw [emits_iff hengine] at hemit
  rw [captures_iff hengine] at hcapture
  obtain ⟨hwireOut, hwireIn⟩ :=
    onWire_platform a s.params.tellsOrder (s.node a).engine.txPending _ (hs.phaseAt a) ev h.head hemit hcapture
  constructor
  · refine (hs.cursors a).congr htxIdx htxByte rfl rfl ?_
    rw [bitOnTheWire_eq, bitOnTheWire_eq, h.ls]
    exact hwireOut
  · refine hin.congr rfl rfl hrxIdx hrxByte ?_
    rw [bitOnTheWire_eq, bitOnTheWire_eq, h.ls]
    exact hwireIn

/-- Handling the oldest event keeps the link invariant. -/
theorem Handles.linkInv (hs : LinkInv s) (h : Handles s t a ev (s.lineRead a .dcIn)) : LinkInv t := by
  have hcursors : CursorsAfter s t a := by
    by_cases hemit : Emits a ev.line ev.pol (s.node a).engine
    · exact h.cursors_emit hs hemit
    by_cases hcapture : Captures a ev.line ev.pol (s.node a).engine
    · exact h.cursors_capture hs hcapture
    exact h.cursors_keep hs hemit hcapture
  obtain ⟨hout, hin⟩ := hcursors
  rw [← h.params, ← h.peer] at hout hin
  obtain ⟨bit, bit', hphase⟩ := h.phase
  refine .of_parts a h.inv h.initialised ?_ hout hin
  rw [h.params, hphase]
  exact handled_mem_platform a bit bit' _ _ _ (hs.phaseAt a) ev h.head

end

/-! ### The step -/

/-- What a rule-keeping schedule gives: nothing, an application operation, or the oldest event of a node; it takes actions from the schedule and
adds none. -/
inductive LawfulNext (s : State) : Option OpWord × State → Prop where
  | nothing (q : List Action) (hq : q ⊆ s.schedule) : LawfulNext s (none, { s with schedule := q })
  | command (x : Role) (w : OpWord) (q : List Action) (hq : q ⊆ s.schedule) (hw : lawfulInstr (decode w) = true) :
    LawfulNext s (some w, { s with schedule := q, active := x })
  | event (y : Role) (ev : EdgeEvent) (u : State) (hy : u.active = y) (hq : u.schedule ⊆ s.schedule) (hu : HandsOver s u ev) :
    LawfulNext s (some (edgeWord ev (s.lineRead y .dcIn)), u)

theorem eventReady_iff (s : State) (y : Role) : s.eventReady y = true ↔ (s.node y).initialised = true ∧ (s.node y).pend ≠ [] := by
  simp [State.eventReady]

/-- Event entry at a node with no event ready does nothing (20_memory.md R78). -/
theorem takeEvent_of_notReady (s : State) (y : Role) (h : s.eventReady y = false) : s.takeEvent y = (none, s) := by
  rcases takeEvent_cases s y with ⟨ev, rest, hinit, hpend, _⟩ | ⟨_, he⟩
  · rw [(eventReady_iff s y).2 ⟨hinit, by simp [hpend]⟩] at h
    cases h
  · exact he

/-- Event entry at a node with an event ready hands over the oldest and touches nothing else of the nodes (60_exceptions.md R230). -/
theorem exists_handsOver {s : State} (hinv : Inv s) {y : Role} {q : List Action}
    (h : s.nextOperation = State.takeEvent { s with schedule := q } y) (hready : s.eventReady y = true) :
    ∃ ev u, s.nextOperation = (some (edgeWord ev (s.lineRead y .dcIn)), u) ∧ u.active = y ∧ u.schedule = q ∧ HandsOver s u ev := by
  have hsame := sameEngines_nextOperation s
  have hinv' := inv_nextOperation s hinv
  obtain ⟨hinit, hnonempty⟩ := (eventReady_iff s y).1 hready
  rcases takeEvent_cases { s with schedule := q } y with ⟨ev, rest, _, hpend, he⟩ | ⟨hno, _⟩
  · rw [node_withSchedule] at hpend
    rw [he, lineRead_withSchedule] at h
    rw [h] at hsame hinv'
    exact ⟨ev, _, h, rfl, by simp,
      { same := hsame
        inv := hinv'
        head := by rw [hpend]; rfl
        own := by rw [hpend]; cases y <;> rfl
        peer := by cases y <;> rfl }⟩
  · simp [hinit, hnonempty] at hno

theorem lawfulNext_of_takeEvent {s : State} (hinv : Inv s) (y : Role) (q : List Action) (hq : q ⊆ s.schedule)
    (h : s.nextOperation = State.takeEvent { s with schedule := q } y) : LawfulNext s s.nextOperation := by
  cases hready : s.eventReady y with
  | true =>
    obtain ⟨ev, u, hnext, hy, rfl, hu⟩ := exists_handsOver hinv h hready
    rw [hnext]
    exact .event y ev u hy hq hu
  | false =>
    rw [h, takeEvent_of_notReady _ y (by simpa [State.eventReady] using hready)]
    exact .nothing q hq

theorem lawfulNext_nextOperation {s : State} (hinv : Inv s) (hlaw : ∀ a ∈ s.schedule, lawful a = true) :
    LawfulNext s s.nextOperation := by
  cases hsched : s.schedule with
  | nil =>
    have hnone : s.nextOperation = (none, { s with schedule := s.schedule }) := by simp [State.nextOperation, hsched]
    rw [hnone]
    exact .nothing _ (List.Subset.refl _)
  | cons a rest =>
    have hhead : lawful a = true := hlaw a (by simp [hsched])
    have hrest : rest ⊆ s.schedule := by simp [hsched]
    cases a with
    | operation x w =>
      rw [nextOperation_operation s x w rest hsched]
      exact .command x w rest hrest hhead
    | deliver y =>
      exact lawfulNext_of_takeEvent hinv y rest hrest (nextOperation_deliver s y rest hsched)
    | arbitrate x w =>
      cases hready : s.eventReady x with
      | true =>
        exact lawfulNext_of_takeEvent hinv x s.schedule (List.Subset.refl _) (nextOperation_arbitrate_ready s x w rest hsched hready)
      | false =>
        rw [nextOperation_arbitrate_notReady s x w rest hsched hready]
        exact .command x w rest hrest hhead
    | lose y k | overtake y k | misreport y k => cases hhead

/-- An operation at an initialised node answers a next state. -/
theorem exec_answers (i : Instr) {s : State} (h : (s.node s.active).initialised = true) : ∃ t, exec i s = .next t := by
  cases i with
  | init v => exact ⟨_, rfl⟩
  | sendByte v | recvByte v | available v | edgeReqFall v | edgeReqRise v | edgeDcFall v | edgeDcRise v | reserved47 v | reservedCF v =>
    exact ⟨_, whenInitialised_of_initialised s _ h⟩

theorem exec_schedule {i : Instr} {s t : State} (h : exec i s = .next t) : t.schedule = s.schedule := by
  obtain ⟨n, ws, rfl⟩ := exec_commits i s t h
  exact commit_schedule s n ws

/-- Settles O53: what a rule-keeping schedule gives is nothing, an application operation or the oldest event of a node, and each keeps the link
invariant. -/
theorem lawfulStepsKeepTheLinkInvariant : Obligations.LawfulStepsKeepTheLinkInvariant := by
  intro s h hlaw
  have hnext := lawfulNext_nextOperation h.inv hlaw
  generalize hgiven : s.nextOperation = given at hnext
  cases hnext with
  | nothing q hq =>
    exact ⟨_, step_of_none s _ hgiven, linkInv_withSchedule s q h, fun a ha => hlaw a (hq ha)⟩
  | command x w q hq hw =>
    have hu : LinkInv { s with schedule := q, active := x } := linkInv_withActive _ x (linkInv_withSchedule s q h)
    obtain ⟨t, ht⟩ := exec_answers (decode w) (hu.initialised x)
    refine ⟨t, (step_of_operation s _ w hgiven).trans ht, linkInv_command hu hw ht, fun a ha => hlaw a (hq ?_)⟩
    rwa [exec_schedule ht] at ha
  | event y ev u hy hq hu =>
    subst hy
    obtain ⟨t, ht⟩ := exec_answers (edgeInstr ev ((s.lineRead u.active .dcIn).code.setWidth 8))
      ((hu.same.initialised _).trans (h.initialised u.active))
    have hhandles := handles_of_exec h hu ht
    rw [levelOperand_code] at hhandles
    refine ⟨t, ?_, hhandles.linkInv h, fun a ha => hlaw a (hq ?_)⟩
    · rw [step_of_operation s u _ hgiven, decode_edgeWord, ht]
    · rwa [exec_schedule ht] at ha

end Sys2Proof.Machine
end

section
/-! A link whose environment keeps the rules comes to rest only when there is nothing left to send (42_link_state_machine.md R185,
70_reset_and_hazards.md R270), and handling events alone brings it there (R282). -/

namespace Sys2Proof.Machine

/-! ### Rest -/

/-- Among the joint control states only that of two idle nodes has both queues empty. -/
theorem idle_of_quiescent_platform : ∀ tells : Bool, ∀ p ∈ phasesOf (platform tells) .node1,
    p.pend1 = [] → p.pend2 = [] → p.ls1 = .idle ∧ p.ls2 = .idle := by
  decide

theorem LinkInv.idle_of_quiescent {s : State} (h : LinkInv s) (hq : s.quiescent = true) :
    s.node1.engine.ls = .idle ∧ s.node2.engine.ls = .idle := by
  rw [State.quiescent, Bool.and_eq_true, List.isEmpty_iff, List.isEmpty_iff] at hq
  obtain ⟨h1, h2⟩ := hq
  exact idle_of_quiescent_platform s.params.tellsOrder _ (h.phaseAt .node1) h1 h2

/-- With nothing pending no bit is left (10_state.md R26, 41_framer.md R146). -/
theorem bitsLeft_of_not_pending (P : Params) (e : Engine) (h : e.txPending = false) : e.bitsLeft P = 0 := by
  obtain ⟨h7, hrd⟩ := (txPending_eq_false_iff e).1 h
  rw [Engine.bitsLeft, h7, count_empty _ _ hrd]
  rfl

/-- Settles O54: a link with both queues empty is idle at both nodes, and an idle node has nothing pending (R42). -/
theorem noStallUnderTheLinkInvariant : Obligations.NoStallUnderTheLinkInvariant := by
  intro s h
  refine ⟨?_, fun hq x => ?_⟩
  · unfold State.stalled
    cases hq : s.quiescent with
    | false => rfl
    | true =>
      obtain ⟨h1, h2⟩ := h.idle_of_quiescent hq
      rw [h1, h2]
      rfl
  · obtain ⟨h1, h2⟩ := h.idle_of_quiescent hq
    have hidle : (s.node x).engine.ls = .idle := by
      cases x
      · exact h1
      · exact h2
    exact ⟨hidle, bitsLeft_of_not_pending _ _ ((h.inv.engines x (h.initialised x)).idle_not_pending hidle)⟩

/-! ### The rank -/

/-- How many events a sender and a receiver in these phases still make until the next bit is asked for (T2), beyond one, at most: R102 with the
continuation of the completions and a collision. -/
def eventsAhead : LinkState → LinkState → Nat
  | .dataTransmission, .readyForData => 10
  | .dataTransmission, .dataTransConfirmed => 9
  | .dataTransConfAckReceived, .dataTransConfirmed => 7
  | .dataTransConfAckReceived, .requestSent => 5
  | .dataTransConfAckReceived, .idle => 4
  | .requestSent, .requestSent => 2
  | .requestSent, .idle => 3
  | .requestSent, .requestConfirmed => 2
  | .requestConfAckReceived, .requestConfirmed => 1
  | _, _ => 0

/-- A bound on the events that are handled before the next bit is asked for: those waiting and those still to be made. -/
def LinkPhase.eventsLeft (p : LinkPhase) : Nat :=
  p.pend1.length + p.pend2.length + eventsAhead p.ls1 p.ls2 + eventsAhead p.ls2 p.ls1 - 1

theorem eventsLeft_le_platform (r : Role) : ∀ tells : Bool, ∀ p ∈ phasesOf (platform tells) r, p.eventsLeft ≤ 11 := by
  cases r <;> decide

/-- Every event but the one that asks for a bit lowers the bound. -/
theorem eventsLeft_handled_platform (r : Role) (bit bit' : Level) : ∀ tells pending : Bool, ∀ p ∈ phasesOf (platform tells) r,
    ∀ ev ∈ p.pend1.head?, ¬ (ev = ⟨.dcIn, .rise⟩ ∧ p.ls1 = .requestConfAckReceived) →
      (p.handled tells r pending bit bit' ev).eventsLeft < p.eventsLeft := by
  cases r <;> cases bit <;> cases bit' <;> decide

/-- `DEQUEUE` leaves one unread byte fewer (40_circular_buffer.md R122). -/
theorem count_dequeue (n : Nat) (f : Nat → Byte) (b : Buffer) (r : Nat) (hb : b.inRange n = true) (h : b.rd = some r) :
    (b.dequeue n f).buf.count n + 1 = b.count n := by
  by_cases hlast : nextIndex n r = b.wr
  · rw [count_last n b r hb h hlast, count_empty _ _ (by simp [dequeue_some n f b r h, hlast])]
  · exact (dequeue_rd_count n f b r hb h hlast).2

/-- Asking for a pending bit leaves one bit fewer (41_framer.md R141). -/
theorem bitsLeft_nextBitToSend (P : Params) (r : Role) (e : Engine) (htx : e.tx.inRange P.capacity = true) (hp : e.txPending = true) :
    (e.nextBitToSend P r).1.bitsLeft P + 1 = e.bitsLeft P := by
  rcases nextBitToSend_cases P r e with ⟨h7, hrd, _⟩ | ⟨i, h7, hrd, he⟩ | ⟨h7, he⟩
  · rw [(txPending_eq_false_iff e).2 ⟨h7, hrd⟩] at hp
    cases hp
  · have hcount := count_dequeue P.capacity (Config.txStorageAtReset r) e.tx i htx hrd
    rw [dequeue_some _ _ _ i hrd] at hcount
    simp only [he, Engine.bitsLeft, h7, Fin.isValue, Fin.coe_ofNat_eq_mod] at hcount ⊢
    omega
  · simp only [he, Engine.bitsLeft]
    omega

theorem bitsLeft_congr {P : Params} {e e' : Engine} (h : SameTransmit e' e) : e'.bitsLeft P = e.bitsLeft P := by
  rw [Engine.bitsLeft, Engine.bitsLeft, h.tx, h.txIdx]

/-- The rank of a link: twelve events for each bit still to be sent, and those before the next bit is asked for. -/
def State.rank (s : State) : Nat :=
  12 * (s.node1.engine.bitsLeft s.params + s.node2.engine.bitsLeft s.params) + (s.phaseAt .node1).eventsLeft

/-- The rank, as either node sees it. -/
theorem rank_eq (s : State) (x : Role) :
    s.rank = 12 * ((s.node x).engine.bitsLeft s.params + (s.node (peerOf x)).engine.bitsLeft s.params) + (s.phaseAt x).eventsLeft := by
  cases x with
  | node1 => rfl
  | node2 =>
    simp only [State.rank, LinkPhase.eventsLeft, State.phaseAt, node_node1, node_node2, peerOf_node1, peerOf_node2]
    omega

theorem LinkInv.eventsLeft_le {s : State} (h : LinkInv s) (x : Role) : (s.phaseAt x).eventsLeft ≤ 11 :=
  eventsLeft_le_platform x s.params.tellsOrder _ (h.phaseAt x)

/-- Handling an event lowers the rank: T2 takes a bit off, which is worth more than all events before the next one, and every other event is one
of those. -/
theorem Handles.rank_lt {s t : State} {a : Role} {ev : EdgeEvent} (hs : LinkInv s) (h : Handles s t a ev (s.lineRead a .dcIn)) :
    t.rank < s.rank := by
  have hengine := hs.inv.engines a (hs.initialised a)
  have he := h.engine
  rw [rank_eq s a, rank_eq t a, h.params, h.peer]
  by_cases hemit : Emits a ev.line ev.pol (s.node a).engine
  · rw [handleEdge_of_emits (k := Work.start _) hemit] at he
    obtain ⟨_, hack⟩ := (emits_iff hengine).1 hemit
    have hbits := bitsLeft_nextBitToSend s.params a (s.node a).engine hengine.tx_range (hengine.request_pending (.inr hack))
    have hsame : (t.node a).engine.bitsLeft s.params = ((s.node a).engine.nextBitToSend s.params a).1.bitsLeft s.params :=
      bitsLeft_congr (he ▸ ⟨rfl, rfl, rfl⟩)
    have hle := (h.linkInv hs).eventsLeft_le a
    omega
  · have hsame : (t.node a).engine.bitsLeft s.params = (s.node a).engine.bitsLeft s.params := by
      by_cases hcapture : Captures a ev.line ev.pol (s.node a).engine
      · rw [handleEdge_of_captures (k := Work.start _) hcapture] at he
        have hsnd := newBitReceived_sameTransmit s.params (bitOfLevel s.params.bitLevel (s.lineRead a .dcIn)) (s.node a).engine
        exact bitsLeft_congr (he ▸ ⟨hsnd.tx, hsnd.txIdx, hsnd.txByte⟩)
      · exact bitsLeft_congr (he ▸ (handleEdge_sameFramer (k := Work.start _) hemit hcapture _).transmit)
    obtain ⟨bit, bit', hphase⟩ := h.phase
    rw [emits_iff hengine] at hemit
    have hlt := eventsLeft_handled_platform a bit bit' _ (s.node a).engine.txPending _ (hs.phaseAt a) ev h.head hemit
    rw [← hphase] at hlt
    omega

/-- Settles O55: the rank is at most twelve for each bit and the eleven events of one round of the handshake, and a delivery handles an event. -/
theorem handlingEventsRunsOut : Obligations.HandlingEventsRunsOut := by
  refine ⟨State.rank, fun s h => ⟨?_, fun y rest t hsched hready hstep => ?_⟩⟩
  · have hle := h.eventsLeft_le .node1
    unfold State.rank
    omega
  · obtain ⟨ev, u, hnext, rfl, _, hu⟩ := exists_handsOver h.inv (nextOperation_deliver s y rest hsched) hready
    rw [step_of_operation s u _ hnext, decode_edgeWord] at hstep
    have hhandles := handles_of_exec h hu hstep
    rw [levelOperand_code] at hhandles
    exact hhandles.rank_lt h

end Sys2Proof.Machine
end

section
/-! The answers of the application commands (43_application_api.md R200 to R203): the node that each leaves, and what the peer's shim sees of its
line writes. -/

namespace Sys2Proof.Machine

/-- An operation that ends with node `n` and line writes `ws` completes with `n` and with the peer that has seen `ws`. -/
theorem completes_of_commit {i : Instr} {s : State} {n p : Node} {ws : List LineWrite} (hexec : exec i s = .next (s.commit n ws))
    (hp : (s.node (peerOf s.active)).observeAll s.params ws = p) : Completes i s n p :=
  ⟨_, hexec, commit_node_active s n ws, (commit_node_peer s n ws).trans hp, commit_params s n ws, commit_active s n ws,
    commit_schedule s n ws⟩

/-- Settles O12: `INIT` is accepted in every state, and its two line writes are the release of the request line, then of the data line. -/
theorem initResult : Obligations.InitResult := by
  rintro s v n p rfl rfl
  exact completes_of_commit rfl (observeAll_req_dc _ _ _ _)

/-- Settles O16: `AVAILABLE` leaves the engine, and its answer is `IS_NONEMPTY` of the receive buffer (40_circular_buffer.md R123). -/
theorem availableResult : Obligations.AvailableResult := by
  rintro s v n rfl hinit
  have hok : (s.node s.active).engine.rx.isNonempty = decide ((s.node s.active).engine.rx.rd ≠ none) := by
    rw [Bool.eq_iff_iff, isNonempty_iff, decide_eq_true_iff]
  exact hok ▸ completes_of_finish_start rfl hinit

/-- `RECV_BYTE` at an initialised node writes no line. -/
theorem completes_recvByte (s : State) (v : Byte) (hinit : (s.node s.active).initialised = true) :
    Completes (.recvByte v) s ((s.node s.active).recvByte s.params s.active) (s.node (peerOf s.active)) :=
  completes_of_commit (whenInitialised_of_initialised s _ hinit) (observeAll_nil _ _)

/-- Settles O15: `DEQUEUE` answers the byte at the read index, or nothing from an empty buffer. -/
theorem recvByteResult : Obligations.RecvByteResult := by
  rintro s v n e rfl rfl hinit
  refine ⟨fun r hrd => ?_, fun hempty => ?_⟩
  · have hrecv := recvByte_some s.params s.active (s.node s.active) r hrd
    rw [dequeue_some _ _ _ r hrd] at hrecv
    exact hrecv ▸ completes_recvByte s v hinit
  · exact recvByte_empty s.params s.active (s.node s.active) hempty ▸ completes_recvByte s v hinit

/-- `SEND_BYTE` into a buffer with room ends with the engine and the line writes of its work `k`, and answers `(1, 0x00)` (R201). -/
theorem completes_sendByte {s : State} {b : Byte} {k : Work} {p : Node} (hinit : (s.node s.active).initialised = true)
    (hroom : (s.node s.active).engine.tx.isFull = false)
    (hk : (sendByteWork s.params s.active b (s.node s.active).engine).1 = k)
    (hp : (s.node (peerOf s.active)).observeAll s.params k.writes = p) :
    Completes (.sendByte b) s { s.node s.active with engine := k.engine, rsp := { ok := true, data := 0x00#8 } } p := by
  have hok : (sendByteWork s.params s.active b (s.node s.active).engine).2 = true := by
    rw [sendByteWork, enqueue_ok, hroom, Bool.not_false]
  have hexec : exec (.sendByte b) s = .next (s.finish k { ok := true, data := 0x00#8 }) := by
    rw [exec, execSendByte, whenInitialised_of_initialised s _ hinit, byteOperand, hk, hok]
  exact completes_of_commit hexec hp

/-- A buffer with room after `ENQUEUE` (40_circular_buffer.md R121). -/
theorem enqueue_buf_of_room (n : Nat) (b : Buffer) (v : Byte) (h : b.rd ≠ some b.wr) :
    (b.enqueue n v).buf =
      { mem := b.mem.write b.wr v, wr := nextIndex n b.wr, rd := if b.rd = none then some b.wr else b.rd } := by
  rw [enqueue_notFull n b v ((isFull_eq_false_iff b).2 h)]
  simp only [isEmpty_iff]

/-- Settles O14: `SEND_BYTE` queues its byte, and requests from an empty buffer with no direction active. -/
theorem sendByteStored : Obligations.SendByteStored := by
  rintro s b n p e rfl rfl rfl hinit hroom
  have hnotFull := (isFull_eq_false_iff _).2 hroom
  have hqueued := enqueue_buf_of_room s.params.capacity (s.node s.active).engine.tx b hroom
  have hwritten := fun j => written_write (s.node s.active).engine.tx.mem (s.node s.active).engine.tx.wr j b
  refine ⟨(sendByteWork s.params s.active b (s.node s.active).engine).1.engine, ?_⟩
  rcases sendByteWork_cases s.params s.active b (s.node s.active).engine with ⟨hempty, hdir, hwork⟩ | ⟨hbusy, hwork⟩ <;>
    rw [hqueued] at hwork <;> rw [hwork]
  case inl =>
    refine ⟨rfl, rfl, rfl, rfl, rfl, rfl, rfl, hwritten, ?_⟩
    rw [if_pos ⟨hempty, hdir⟩]
    exact ⟨rfl, rfl, rfl, completes_sendByte hinit hnotFull hwork (observeAll_one _ _ _)⟩
  case inr =>
    refine ⟨rfl, rfl, rfl, rfl, rfl, rfl, rfl, hwritten, ?_⟩
    rw [if_neg (not_and_or.2 hbusy)]
    exact ⟨rfl, rfl, rfl, completes_sendByte hinit hnotFull hwork (observeAll_nil _ _)⟩

end Sys2Proof.Machine
end

section
/-! Runs of a rule-keeping link with the traffic of the two applications written down (43_application_api.md R205): as long as no receive buffer
overruns, the accumulators keep agreeing with the bytes being sent, and what has been accepted is what has been received and the stream. -/

namespace Sys2Proof.Machine

/-! ### The accumulators, without an overrun -/

/-- The agreement reads the two bytes and the receive index, and the sender's byte only inside a byte. -/
theorem AccumulatorAgrees.congr {snd snd' rcv rcv' : Engine} (h : AccumulatorAgrees snd rcv)
    (htxByte : rcv.rxIdx ≠ 7 → snd'.txByte = snd.txByte) (hrxIdx : rcv'.rxIdx = rcv.rxIdx) (hrxByte : rcv'.rxByte = rcv.rxByte) :
    AccumulatorAgrees snd' rcv' where
  boundary := by rw [hrxIdx, hrxByte]; exact h.boundary
  bits := by
    rw [hrxIdx, hrxByte]
    intro hne
    rw [htxByte hne]
    exact h.bits hne

/-- A new byte is pulled between bytes only (41_framer.md R141). -/
theorem nextBitToSend_txByte {P : Params} {r : Role} {e : Engine} (h : e.txIdx ≠ 7) : (e.nextBitToSend P r).1.txByte = e.txByte := by
  rcases nextBitToSend_cases P r e with ⟨_, _, he⟩ | ⟨_, h7, _⟩ | ⟨_, he⟩
  · rw [he]
  · exact absurd h7 h
  · rw [he]

/-- Without an overrun `RX_CLEAR_ON_DROP` plays no part (R144). -/
theorem newBitReceived_clearing {P : Params} {e : Engine} (hroom : ¬ (e.rxIdx = 6 ∧ e.rx.isFull = true)) (bit : Bool) :
    e.newBitReceived { P with rxClearOnDrop := true } bit = e.newBitReceived P bit := by
  unfold Engine.newBitReceived
  split
  next h7 =>
    have hok : e.rx.isFull = false := by
      rw [← Bool.not_eq_true]
      exact fun hfull => hroom ⟨by omega, hfull⟩
    simp [hok]
  next => rfl

/-- What one operation of node `a` leaves of both directions' agreement is decided at its own engine, since the peer's is as before. -/
theorem accumulatorsAgree_of_node {s t : State} (a : Role) (hpeer : (t.node (peerOf a)).engine = (s.node (peerOf a)).engine)
    (hout : AccumulatorAgrees (t.node a).engine (s.node (peerOf a)).engine)
    (hin : AccumulatorAgrees (s.node (peerOf a)).engine (t.node a).engine) : t.AccumulatorsAgree := by
  intro x
  rcases eq_or_eq_peerOf a x with rfl | rfl
  · rwa [hpeer]
  · rwa [hpeer, peerOf_peerOf]

/-- What the schedule does before an operation keeps the agreement. -/
theorem SameEngines.accumulatorsAgree {s u : State} (h : SameEngines u s) (hacc : s.AccumulatorsAgree) : u.AccumulatorsAgree := by
  intro x
  rw [h.engine, h.engine]
  exact hacc x

/-- An application operation keeps the agreement: it touches neither cursor of its engine (10_state.md R37). -/
theorem accumulatorsAgree_command {s t : State} {i : Instr} (h : s.AccumulatorsAgree) (hlaw : lawfulInstr i = true)
    (ht : exec i s = .next t) : t.AccumulatorsAgree := by
  have hpeer : (t.node (peerOf s.active)).engine = (s.node (peerOf s.active)).engine :=
    (operationLeavesThePeersEngine s t _ _ _ ht rfl rfl).1
  have hin := h (peerOf s.active)
  rw [peerOf_peerOf] at hin
  have keep (htxByte : (t.node s.active).engine.txByte = (s.node s.active).engine.txByte)
      (hrxIdx : (t.node s.active).engine.rxIdx = (s.node s.active).engine.rxIdx)
      (hrxByte : (t.node s.active).engine.rxByte = (s.node s.active).engine.rxByte) : t.AccumulatorsAgree :=
    accumulatorsAgree_of_node s.active hpeer ((h s.active).congr (fun _ => htxByte) rfl rfl) (hin.congr (fun _ => rfl) hrxIdx hrxByte)
  cases i with
  | sendByte b =>
    obtain ⟨_, _, _, htxByte, hrxIdx, hrxByte, _⟩ := (applicationCommandsTouchOnlyTheBuffers s t b _ _ rfl rfl).1 ht
    exact keep htxByte hrxIdx hrxByte
  | recvByte v =>
    have hengine := (applicationCommandsTouchOnlyTheBuffers s t v _ _ rfl rfl).2.1 ht
    exact keep (hengine ▸ rfl) (hengine ▸ rfl) (hengine ▸ rfl)
  | available v | reserved47 w | reservedCF w =>
    obtain ⟨_, rfl⟩ := (whenInitialised_next s _ t).1 ht
    rw [State.finish, commit_node_active] at keep
    exact keep rfl rfl rfl
  | init v | edgeReqFall v | edgeReqRise v | edgeDcFall v | edgeDcRise v => cases hlaw

/-- Where a bit is asked for, none is on the wire, and the receiver is at the sender's bit (30_encoding.md R103). -/
theorem EventAgrees.rxIdx_of_emits {s : State} {ev : EdgeEvent} {dc : Level} (h : EventAgrees s ev dc)
    (hemit : Emits s.active ev.line ev.pol (s.node s.active).engine) :
    (s.node (peerOf s.active)).engine.rxIdx = (s.node s.active).engine.txIdx := by
  obtain ⟨_, _, _, hls⟩ := hemit
  have hidx := h.indices s.active
  rwa [IndicesAgree, bitOnTheWire, hls] at hidx

/-- An event that does not overrun keeps the agreement: T2 pulls a byte only where the receiver is between bytes, T8 puts the sender's bit into
the accumulator, and no other transition touches either. -/
theorem accumulatorsAgree_event {s t : State} {ev : EdgeEvent} {v : Byte} (h : EventAgrees s ev (levelOperand v))
    (ht : exec (edgeInstr ev v) s = .next t)
    (hroom : ¬ (ev = ⟨.reqIn, .fall⟩ ∧ (s.node s.active).engine.overrunNext s.active = true)) : t.AccumulatorsAgree := by
  have hpeer : (t.node (peerOf s.active)).engine = (s.node (peerOf s.active)).engine :=
    (operationLeavesThePeersEngine s t _ _ _ ht rfl rfl).1
  have hout := h.accumulators s.active
  have hin := h.accumulators (peerOf s.active)
  rw [peerOf_peerOf] at hin
  rw [overruns_iff, not_and] at hroom
  have hengine : (t.node s.active).engine =
      (handleEdge s.params s.active ev.line ev.pol (levelOperand v) (Work.start (s.node s.active).engine)).engine := by
    rw [exec_edgeInstr] at ht
    obtain ⟨_, rfl⟩ := (handleEdge_next s t ev.line ev.pol v).1 ht
    rw [State.finish, commit_node_active]
  by_cases hcap : Captures s.active ev.line ev.pol (s.node s.active).engine
  · rw [handleEdge_of_captures (k := Work.start _) hcap] at hengine
    have hbit : (s.node (peerOf s.active)).engine.txIdx = (s.node s.active).engine.rxIdx + 1 := by
      rw [h.rxIdx_of_captures hcap, sub_add_cancel]
    have hcaptured := hin.newBitReceived (P := { s.params with rxClearOnDrop := true }) rfl
    rw [newBitReceived_clearing (hroom hcap), ← hbit, ← (h.capture hcap).2] at hcaptured
    have hsnd := newBitReceived_sameTransmit s.params (bitOfLevel s.params.bitLevel (levelOperand v)) (s.node s.active).engine
    exact accumulatorsAgree_of_node s.active hpeer (hout.congr (fun _ => hengine ▸ hsnd.txByte) rfl rfl)
      (hcaptured.congr (fun _ => rfl) (hengine ▸ rfl) (hengine ▸ rfl))
  by_cases hemit : Emits s.active ev.line ev.pol (s.node s.active).engine
  · rw [handleEdge_of_emits (k := Work.start _) hemit] at hengine
    have hinside (hne : (s.node (peerOf s.active)).engine.rxIdx ≠ 7) :
        (t.node s.active).engine.txByte = (s.node s.active).engine.txByte := by
      rw [h.rxIdx_of_emits hemit] at hne
      exact hengine ▸ nextBitToSend_txByte hne
    exact accumulatorsAgree_of_node s.active hpeer (hout.congr hinside rfl rfl)
      (hin.congr (fun _ => rfl) (hengine ▸ nextBitToSend_rxIdx _ _ _) (hengine ▸ nextBitToSend_rxByte _ _ _))
  · obtain ⟨⟨_, _, htxByte⟩, hrxIdx, hrxByte⟩ :=
      handleEdge_sameFramer (P := s.params) (k := Work.start (s.node s.active).engine) hemit hcap (levelOperand v)
    rw [← hengine] at htxByte hrxIdx hrxByte
    exact accumulatorsAgree_of_node s.active hpeer (hout.congr (fun _ => htxByte) rfl rfl) (hin.congr (fun _ => rfl) hrxIdx hrxByte)

/-! ### The traffic -/

section
variable (h : Traffic) (a x : Role) (b : Byte) (rsp : Response)

/-- An accepted `SEND_BYTE` adds its byte to what its node has had accepted. -/
theorem after_sendByte_accepted : (h.after a (.sendByte b) rsp).accepted x =
    if a = x ∧ rsp.ok = true then h.accepted x ++ [b] else h.accepted x := by
  cases hok : rsp.ok <;> simp [Traffic.after, hok, appendAt, eq_comm]

theorem after_sendByte_received : (h.after a (.sendByte b) rsp).received = h.received := by
  cases hok : rsp.ok <;> simp [Traffic.after, hok]

/-- A successful `RECV_BYTE` adds its byte to what its node has received. -/
theorem after_recvByte_received : (h.after a (.recvByte b) rsp).received x =
    if a = x ∧ rsp.ok = true then h.received x ++ [rsp.data] else h.received x := by
  cases hok : rsp.ok <;> simp [Traffic.after, hok, appendAt, eq_comm]

theorem after_recvByte_accepted : (h.after a (.recvByte b) rsp).accepted = h.accepted := by
  cases hok : rsp.ok <;> simp [Traffic.after, hok]

end

/-- The step of a run without overruns: the schedule gives no operation, or one that answers and does not overrun. -/
theorem stepTraffic_cases {s t : State} {h h' : Traffic} (hstep : stepTraffic s h = some (t, h')) :
    (s.nextOperation = (none, t) ∧ h' = h) ∨
    ∃ w u, s.nextOperation = (some w, u) ∧
      ¬ (decode w = .edgeReqFall (operandField w) ∧ (u.node u.active).engine.overrunNext u.active = true) ∧
      exec (decode w) u = .next t ∧ h' = h.after u.active (decode w) (t.node u.active).rsp := by
  unfold stepTraffic at hstep
  split at hstep
  next u hnone =>
    cases hstep
    exact .inl ⟨hnone, rfl⟩
  next w u hsome =>
    split at hstep
    next => cases hstep
    next hroom =>
      split at hstep
      next t' hexec =>
        cases hstep
        exact .inr ⟨w, u, hsome, by simpa [and_comm] using hroom, hexec, rfl⟩
      next => cases hstep
      next => cases hstep

theorem step_of_stepTraffic {s t : State} {h h' : Traffic} (hstep : stepTraffic s h = some (t, h')) : step s = .next t := by
  rcases stepTraffic_cases hstep with ⟨hnone, _⟩ | ⟨w, u, hsome, _, hexec, _⟩
  · exact step_of_none s t hnone
  · exact (step_of_operation s u w hsome).trans hexec

/-- An `EDGE_REQ_FALL` carries the operand field of its word (30_encoding.md R90). -/
theorem eq_operandField_of_decode {w : OpWord} {v : Byte} (h : decode w = .edgeReqFall v) : v = operandField w := by
  have hword := (encodeOfDecode w).2
  rw [h] at hword
  exact hword ▸ (operandField_packWord _ v).symm

/-! ### The run -/

/-- What every step of a run without overruns keeps: the bytes accepted at a node are those received at its peer and those on the way (R205). -/
structure Conserves (s : State) (h : Traffic) : Prop where
  link : LinkInv s
  accumulators : s.AccumulatorsAgree
  lawful : ∀ a ∈ s.schedule, lawful a = true
  balance : ∀ x, h.accepted x = h.received (peerOf x) ++ s.stream x

section
variable {s t : State} {h h' : Traffic} (hs : Conserves s h) (hstep : stepTraffic s h = some (t, h'))
include hs hstep

/-- The agreement of the accumulators outlives every step that drops no byte, whatever `RX_CLEAR_ON_DROP` is (R144). -/
theorem Conserves.accumulators_step : t.AccumulatorsAgree := by
  have hnext := lawfulNext_nextOperation hs.link.inv hs.lawful
  have hgiven := (sameEngines_nextOperation s).accumulatorsAgree hs.accumulators
  rcases stepTraffic_cases hstep with ⟨hnone, _⟩ | ⟨w, u, hsome, hroom, hexec, _⟩
  · rwa [hnone] at hgiven
  · rw [hsome] at hnext hgiven
    cases hnext with
    | command x _ q _ hw => exact accumulatorsAgree_command hgiven hw hexec
    | event y ev _ hy _ hu =>
      subst hy
      rw [decode_edgeWord] at hexec
      refine accumulatorsAgree_event ?_ hexec fun hover => hroom ?_
      · rw [levelOperand_code]
        exact eventAgrees_of_linkInv hs.link hs.accumulators hu.same hu.inv hu.head
      · obtain ⟨rfl, hnextOver⟩ := hover
        have hdecode := decode_edgeWord ⟨.reqIn, .fall⟩ (s.lineRead u.active .dcIn)
        exact ⟨eq_operandField_of_decode hdecode ▸ hdecode, hnextOver⟩

/-- An accepted byte enters the stream at its end, and a received one leaves it at its front (R201, R202). -/
theorem Conserves.balance_step (x : Role) : h'.accepted x = h'.received (peerOf x) ++ t.stream x := by
  obtain ⟨hidle, hoperation⟩ := stepConservesTheByteStream s t x hs.link hs.accumulators hs.lawful (step_of_stepTraffic hstep)
  have hbefore := hs.balance x
  rcases stepTraffic_cases hstep with ⟨hnone, rfl⟩ | ⟨w, u, hsome, hroom, _, rfl⟩
  · rwa [hidle t hnone]
  · have hstream := hoperation w u hsome
    cases hi : decode w with
    | sendByte b =>
      simp only [hi] at hstream
      rw [after_sendByte_accepted, after_sendByte_received, hstream, hbefore]
      by_cases hx : u.active = x
      · subst hx
        cases (t.node u.active).rsp.ok <;> simp
      · simp [hx]
    | recvByte v =>
      simp only [hi] at hstream
      rw [after_recvByte_accepted, after_recvByte_received, hbefore]
      by_cases hx : u.active = peerOf x
      · rw [← hx] at hstream ⊢
        cases hok : (t.node u.active).rsp.ok
        · simp only [hok, Bool.false_eq_true, and_false, if_false] at hstream ⊢
          rw [hstream]
        · simp only [hok, and_self, if_true] at hstream ⊢
          rw [hstream, List.append_assoc, List.singleton_append]
      · simp only [hx, false_and, if_false] at hstream ⊢
        rw [hstream]
    | edgeReqFall v =>
      simp only [hi] at hstream
      have hnot : ¬ (u.active = peerOf x ∧ (u.node (peerOf x)).engine.overrunNext (peerOf x) = true) := fun ⟨hx, hover⟩ =>
        hroom ⟨eq_operandField_of_decode hi ▸ hi, hx ▸ hover⟩
      rw [if_neg hnot] at hstream
      rw [hstream]
      exact hbefore
    | init v | available v | edgeReqRise v | edgeDcFall v | edgeDcRise v | reserved47 v | reservedCF v =>
      simp only [hi] at hstream
      rw [hstream]
      exact hbefore

theorem Conserves.step : Conserves t h' := by
  obtain ⟨t', hnext, hlink, hlawful⟩ := lawfulStepsKeepTheLinkInvariant s hs.link hs.lawful
  rw [step_of_stepTraffic hstep] at hnext
  cases hnext
  exact ⟨hlink, hs.accumulators_step hstep, hlawful, hs.balance_step hstep⟩

end

/-- The induction over the steps of a run. -/
theorem Conserves.run {k : Nat} {s t : State} {h h' : Traffic} (hs : Conserves s h) (hrun : runTraffic k s h = some (t, h')) :
    Conserves t h' := by
  induction k generalizing s h with
  | zero =>
    cases hrun
    exact hs
  | succ k ih =>
    rw [runTraffic] at hrun
    split at hrun
    next u hu hstep => exact ih (hs.step hstep) hrun
    next => cases hrun

/-- Settles O57, by induction over the run: each step moves a byte between what was accepted, the stream and what was received, as O56 says. -/
theorem endToEndFifo : Obligations.EndToEndFifo :=
  fun _ _ _ _ _ hlink hacc hlaw hbalance hrun => (Conserves.run ⟨hlink, hacc, hlaw, hbalance⟩ hrun).balance

end Sys2Proof.Machine
end

section
/-! Events and faults (60_exceptions.md): the room a pending queue needs (R248), the order in which an arbiter serves (R229), and that no operation
ends in anything but its response (R220, R221). -/

namespace Sys2Proof.Machine

/-! ### Pending queues -/

/-- In the joint control states no queue holds more than three events; only the yield of a collision puts three into one (R170). -/
theorem pend_le_three_platform (r : Role) : ∀ tells : Bool, ∀ p ∈ phasesOf (platform tells) r, p.pend1.length ≤ 3 := by
  cases r <;> decide

/-- Settles O58: the link invariant lists the joint control states, and with them every content of a queue. -/
theorem atMostThreeEventsPending : Obligations.AtMostThreeEventsPending :=
  fun s x h => pend_le_three_platform x s.params.tellsOrder _ (h.phaseAt x)

/-! ### The arbiter -/

/-- A step is determined by the operation the schedule gives. -/
theorem step_congr {s u : State} (h : s.nextOperation = u.nextOperation) : step s = step u := by
  rw [step, step, h]

/-- Settles O8: with an event ready both schedules give the event entry of the node, with the word still waiting; without one the word is
presented. -/
theorem arbiterServesEventsFirst : Obligations.ArbiterServesEventsFirst := by
  refine fun s x w rest hsched => ⟨fun hready => step_congr ?_, fun hidle => ?_⟩
  · calc s.nextOperation
        = s.takeEvent x := nextOperation_arbitrate_ready s x w rest hsched hready
      _ = State.nextOperation { s with schedule := .deliver x :: s.schedule } :=
          (nextOperation_deliver { s with schedule := .deliver x :: s.schedule } x s.schedule rfl).symm
  · exact step_of_operation s _ w (nextOperation_arbitrate_notReady s x w rest hsched hidle)

/-! ### No operation faults -/

/-- Settles O10: the model has no reason for a fault, and the initialisation check is the only one an operation can fail. -/
theorem everyOperationCompletes : Obligations.EveryOperationCompletes :=
  fun _ => ⟨nofun, fun i hinit => exec_answers i hinit⟩

/-- `SEND_BYTE` into a full buffer does nothing to the engine and answers `ok = 0` (R221, 43_application_api.md R201). -/
theorem sendByteWork_full (P : Params) (r : Role) (b : Byte) (e : Engine) (hfull : e.tx.isFull = true) :
    sendByteWork P r b e = (Work.start e, false) := by
  simp [sendByteWork, enqueue_full _ _ _ hfull]

/-- Settles O13: the work of the rejected `SEND_BYTE` leaves the engine and writes no line. -/
theorem sendByteToAFullBuffer : Obligations.SendByteToAFullBuffer := by
  rintro s b n rfl hinit hrd
  refine completes_of_finish_start ?_ hinit
  rw [exec, execSendByte, sendByteWork_full _ _ _ _ ((isFull_iff _).2 hrd)]

end Sys2Proof.Machine
end

section
/-! Reset and hazards (70_reset_and_hazards.md): the reset values (R261), the time before a node's first `INIT` (R260, R262, R264), and the
re-initialisation of both nodes (R265). -/

namespace Sys2Proof.Machine

/-! ### Reset -/

/-- Settles O51: both nodes of a reset state are `Node.reset`, which lists the values of R261. -/
theorem resetValues : Obligations.ResetValues :=
  ⟨⟨rfl, rfl⟩, fun P x =>
    ⟨Node.reset, node_resetWith P x, rfl, rfl, rfl, rfl, rfl, rfl, rfl, rfl, rfl, rfl, rfl, rfl, rfl, rfl, rfl, rfl, rfl⟩⟩

/-! ### Before the first `INIT` -/

/-- An operation behind the initialisation check is refused before the node's first `INIT` (R260, U12). -/
theorem whenInitialised_of_uninitialised (s t : State) (h : (s.node s.active).initialised = false) :
    s.whenInitialised t = .refused .beforeFirstInit := by
  simp [State.whenInitialised, h]

/-- Settles O11: every operation but `INIT` stands behind the initialisation check. -/
theorem onlyInitBeforeTheFirstInit : Obligations.OnlyInitBeforeTheFirstInit := by
  refine fun s hinit => ⟨fun v => ⟨_, rfl⟩, fun i hi => ?_⟩
  cases i with
  | init v => exact absurd rfl (hi v)
  | sendByte v | recvByte v | available v | edgeReqFall v | edgeReqRise v | edgeDcFall v | edgeDcRise v | reserved47 v | reservedCF v =>
    exact whenInitialised_of_uninitialised s _ hinit

/-- A sample at the level already seen changes nothing (20_memory.md R73). -/
theorem observe_of_seen {P : Params} {n : Node} {l : InLine} {v : Level} (h : n.seen l = v) : n.observe P l v = n := if_pos h

/-- The peer of a node before its first `INIT` has seen both lines HIGH, the idle level (R262, 20_memory.md R70). -/
theorem Inv.peer_seen_high {s : State} (h : Inv s) {x : Role} (hx : (s.node x).initialised = false) (l : OutLine) :
    (s.node (peerOf x)).seen (seenAs l) = .high := by
  rw [(detectors_iff s).1 h.detectors, peerOf_peerOf, drives_of_uninitialised _ l hx]

/-- Quiescence, from one node. -/
theorem quiescent_iff (s : State) (x : Role) :
    s.quiescent = true ↔ (s.node x).pend = [] ∧ (s.node (peerOf x)).pend = [] := by
  cases x <;> simp [State.quiescent, and_comm]

/-- A quiescent link with a node that is not idle is stalled (R270). -/
theorem stalled_of_quiescent {s : State} (hq : s.quiescent = true) {x : Role} (hx : (s.node x).engine.ls ≠ .idle) :
    s.stalled = true := by
  cases x <;> simp_all [State.stalled]

/-- Settles O59: `INIT` releases lines that the peer sees HIGH already, so no event answers the request, and none is left
for the node itself. -/
theorem initAfterThePeersRequestStalls : Obligations.InitAfterThePeersRequestStalls := by
  rintro s v n p hinv rfl rfl hinit _ hrequest hpend
  obtain ⟨t, ht, hactive, hpeer, _⟩ := initResult s v _ _ rfl rfl
  have hreq : (s.node (peerOf s.active)).seen .reqIn = .high := hinv.peer_seen_high hinit .reqOut
  have hdc : (s.node (peerOf s.active)).seen .dcIn = .high := hinv.peer_seen_high hinit .dcOut
  rw [observe_of_seen hreq, observe_of_seen hdc, observe_of_seen hreq, ite_self] at hpeer
  refine ⟨t, ht, stalled_of_quiescent (x := peerOf s.active) ((quiescent_iff t s.active).2 ⟨?_, ?_⟩) ?_⟩
  · rw [hactive]
  · rw [hpeer, hpend]
  · rw [hpeer, hrequest]
    decide

/-! ### Re-initialising both nodes -/

/-- A node that has done nothing since its last `INIT`, with at most `k` events waiting, all of them rises of the peer's lines (R265). -/
structure Node.Fresh (k : Nat) (n : Node) : Prop where
  engine : ∃ e, n.engine = (initWork e).engine
  initialised : n.initialised = true
  few : n.pend.length ≤ k
  rises : ∀ ev ∈ n.pend, ev.pol = .rise

/-- A line released by the peer makes at most one more rise. -/
theorem Node.Fresh.observe_high {k : Nat} {n : Node} (h : n.Fresh k) (P : Params) (l : InLine) :
    (n.observe P l .high).Fresh (k + 1) := by
  have hfew := h.few
  rcases observe_cases P n l .high with ⟨_, e⟩ | ⟨_, _, _, e⟩ | ⟨_, _, e⟩ <;> rw [e]
  · exact ⟨h.engine, h.initialised, by omega, h.rises⟩
  · refine ⟨by simpa using h.engine, by simpa using h.initialised, by simpa using hfew, fun ev hev => ?_⟩
    rcases List.mem_append.1 hev with hold | hnew
    · exact h.rises ev hold
    · rw [List.mem_singleton.1 hnew]
      rfl
  · exact ⟨by simpa using h.engine, by simpa using h.initialised, by simp only [setSeen_pend]; omega, by simpa using h.rises⟩

/-- A fresh node is idle. -/
theorem Node.Fresh.ls {k : Nat} {n : Node} (h : n.Fresh k) : n.engine.ls = .idle := by
  obtain ⟨e, he⟩ := h.engine
  rw [he]
  rfl

/-- A fresh node ignores a rise, as every idle node does (42_link_state_machine.md R165, R176). -/
theorem Node.Fresh.completes_rise {k : Nat} {s : State} (h : (s.node s.active).Fresh k) {ev : EdgeEvent} (hrise : ev.pol = .rise)
    (v : Byte) :
    Completes (edgeInstr ev v) s { s.node s.active with rsp := edgeResponse } (s.node (peerOf s.active)) := by
  refine completes_of_ignored h.initialised (handleEdge_of_tableNext_eq ?_ (levelOperand v))
  rw [start_engine, h.ls, hrise]
  cases ev.line <;> rfl

/-- A fresh node with its oldest event taken. -/
theorem Node.Fresh.tail {k : Nat} {n : Node} (h : n.Fresh (k + 1)) {ev : EdgeEvent} {q : List EdgeEvent} (hpend : n.pend = ev :: q) :
    ev.pol = .rise ∧ Node.Fresh k { n with pend := q } := by
  obtain ⟨hengine, hinit, hfew, hrises⟩ := h
  rw [hpend] at hfew hrises
  exact ⟨hrises ev List.mem_cons_self, hengine, hinit, Nat.le_of_succ_le_succ hfew,
    fun ev' hev' => hrises ev' (List.mem_cons_of_mem _ hev')⟩

/-- A presented `INIT` leaves its node fresh with no event, and makes at most two rises at a fresh peer (43_application_api.md R200). -/
theorem step_init {s : State} {x : Role} {rest : List Action} (hinv : Inv s) (hsched : s.schedule = .operation x 0x000#12 :: rest) :
    ∃ t, step s = .next t ∧ Inv t ∧ t.schedule = rest ∧ (t.node x).Fresh 0 ∧
      ∀ k, (s.node (peerOf x)).Fresh k → (t.node (peerOf x)).Fresh (k + 2) := by
  have hstep := stepRunsThePresentedOperation s x 0x000#12 rest (.init 0x00#8) hsched (by decide) rfl
  obtain ⟨t, ht, hactive, hpeer, _, _, hrest⟩ := initResult { s with schedule := rest, active := x } 0x00#8 _ _ rfl rfl
  rw [← hstep] at ht
  refine ⟨t, ht, everyStepKeepsTheInvariants s t hinv ht, hrest, ?_, fun k hk => ?_⟩
  · rw [hactive]
    exact ⟨⟨(s.node x).engine, by cases x <;> rfl⟩, rfl, le_rfl, nofun⟩
  · have hpeer' : (({ s with schedule := rest, active := x } : State).node (peerOf x)).Fresh k := by cases x <;> exact hk
    rw [hpeer]
    split
    · exact (hpeer'.observe_high _ .reqIn).observe_high _ .dcIn
    · exact (hpeer'.observe_high _ .dcIn).observe_high _ .reqIn

/-- A delivery to a fresh node takes one of its rises, which the node ignores; the peer sees nothing of it. -/
theorem step_deliver_fresh {s : State} {y : Role} {rest : List Action} {k : Nat} (hinv : Inv s)
    (hsched : s.schedule = .deliver y :: rest) (hy : (s.node y).Fresh (k + 1)) :
    ∃ t, step s = .next t ∧ Inv t ∧ t.schedule = rest ∧ (t.node y).Fresh k ∧ t.node (peerOf y) = s.node (peerOf y) := by
  obtain ⟨hevent, hnone⟩ := deliveryHandlesTheOldestEvent s y rest hsched
  cases hpend : (s.node y).pend with
  | nil =>
    have hstep := hnone (.inr hpend)
    refine ⟨_, hstep, everyStepKeepsTheInvariants s _ hinv hstep, rfl, ?_, node_withSchedule s rest _⟩
    rw [node_withSchedule]
    exact ⟨hy.engine, hy.initialised, by simp [hpend], hy.rises⟩
  | cons ev q =>
    obtain ⟨v, _, hstep⟩ := hevent ev q hy.initialised hpend
    obtain ⟨hrise, htail⟩ := hy.tail hpend
    generalize hu : ({ (s.setNode y { s.node y with pend := q }) with schedule := rest, active := y } : State) = u at hstep
    have hown : u.node y = { s.node y with pend := q } := by rw [← hu]; cases y <;> rfl
    have hother : u.node (peerOf y) = s.node (peerOf y) := by rw [← hu]; cases y <;> rfl
    have hrest : u.schedule = rest := by rw [← hu]
    obtain rfl : y = u.active := by rw [← hu]
    rw [← hown] at htail
    obtain ⟨t, ht, hnode, hpeer, _, _, hsched'⟩ := htail.completes_rise hrise v
    rw [← hstep] at ht
    refine ⟨t, ht, everyStepKeepsTheInvariants s t hinv ht, hsched'.trans hrest, ?_, hpeer.trans hother⟩
    rw [hnode]
    exact ⟨htail.engine, htail.initialised, htail.few, htail.rises⟩

/-- Two fresh nodes with no event waiting are a link at rest with the link invariant (R265). -/
theorem linkInv_of_fresh {s : State} (hinv : Inv s) (hfresh : ∀ x, (s.node x).Fresh 0) : LinkInv s ∧ s.quiescent = true := by
  have hpend : ∀ x, (s.node x).pend = [] := fun x => List.length_eq_zero_iff.1 (Nat.le_zero.1 (hfresh x).few)
  have hcursors : ∀ x, CursorsAgree s.params (s.node x).engine (s.node (peerOf x)).engine := fun x => by
    obtain ⟨e, he⟩ := (hfresh x).engine
    obtain ⟨e', he'⟩ := (hfresh (peerOf x)).engine
    rw [he, he']
    exact ⟨rfl, fun _ => ⟨fun _ => rfl, fun hne => absurd rfl hne⟩⟩
  have hphase : s.phaseAt .node1 = ⟨.idle, .idle, [], []⟩ := by
    simp only [State.phaseAt, (hfresh _).ls, hpend]
  refine ⟨?_, (quiescent_iff s .node1).2 ⟨hpend _, hpend _⟩⟩
  exact LinkInv.of_parts .node1 hinv (fun x => (hfresh x).initialised) (hphase ▸ List.mem_cons_self) (hcursors .node1)
    (hcursors .node2)

/-- A run takes one step and goes on from there. -/
theorem core_run_succ {s t : State} (k : Nat) (h : step s = .next t) : Sys2Proof.core.run (k + 1) s = Sys2Proof.core.run k t := by
  have hcore : Sys2Proof.core.step s = .next t := h
  simp only [Host.Core.run, hcore]

/-- Settles O60: the first `INIT` leaves its node fresh, the second leaves the peer so and makes at most two rises at the first, and the two
deliveries handle them. -/
theorem reinitialisingBothNodesRestoresTheLink : Obligations.ReinitialisingBothNodesRestoresTheLink := by
  intro s x hinv hsched
  obtain ⟨s₁, hstep₁, hinv₁, hsched₁, hfirst, _⟩ := step_init hinv hsched
  obtain ⟨s₂, hstep₂, hinv₂, hsched₂, hsecond, hrises⟩ := step_init hinv₁ hsched₁
  rw [peerOf_peerOf] at hrises
  obtain ⟨s₃, hstep₃, hinv₃, hsched₃, hone, hpeer₃⟩ := step_deliver_fresh hinv₂ hsched₂ (hrises 0 hfirst)
  obtain ⟨s₄, hstep₄, hinv₄, _, hnone, hpeer₄⟩ := step_deliver_fresh hinv₃ hsched₃ hone
  have hfresh : ∀ y, (s₄.node y).Fresh 0 := fun y => by
    rcases eq_or_eq_peerOf x y with rfl | rfl
    · exact hnone
    · rwa [hpeer₄, hpeer₃]
  refine ⟨s₄, ?_, linkInv_of_fresh hinv₄ hfresh⟩
  rw [core_run_succ 3 hstep₁, core_run_succ 2 hstep₂, core_run_succ 1 hstep₃, core_run_succ 0 hstep₄]
  rfl

end Sys2Proof.Machine
end
